-- ==== Sys2Proof/Word.lean ====
section
/-! DEFINITION. The two word types of the block: the byte of the buffers and the 16-bit word of the
command port (00_scope.md R8: all values are unsigned, bit 0 is the least significant bit). -/

namespace Sys2Proof

/-- One byte of a buffer, an immediate or a character (10_state.md R13, 42_base32.md R92). -/
abbrev Byte := BitVec 8

/-- A 16-bit command word, response word or register (30_encoding.md R45, R59). -/
abbrev Word := BitVec 16

end Sys2Proof
end

