-- ==== Sys2Proof/Syntax.lean ====
section
/-! DEFINITION. The commands of the block as syntax: one constructor per row of
spec/opcode_table.json (30_encoding.md R49). `RDR r` has one row per register, hence one constructor
per register (log 12); the mnemonic is the table's. -/

namespace Sys2Proof

/-- The three command formats of R45, which differ in how bits 7:0 are used. -/
inductive Format where
  /-- Bits 7:0 must be zero. -/
  | z
  /-- Bits 7:0 are `imm8`, any value. -/
  | i
  /-- Bits 7:0 are a register number, 0 to 4. -/
  | r
  deriving DecidableEq, Repr

/-- The sixteen commands of R49, `RDR` once per readable register (10_state.md R19). -/
inductive Instr where
  /-- `NOP` (R62). -/
  | nop
  /-- `CLR`, soft reset (R61). -/
  | clr
  /-- `CLRE`, clear a recoverable error (R63). -/
  | clre
  /-- `CLRI`, empty the input buffer (R64). -/
  | clri
  /-- `ST imm8`, append a byte to the input buffer (R65). -/
  | st (imm : Byte)
  /-- `LD imm8`, read a byte of the output buffer (R66). -/
  | ld (imm : Byte)
  /-- `MOVO`, copy the output buffer into the input buffer (R67). -/
  | movo
  /-- `RDR 0`, read `STATUS` (R68). -/
  | rdrStatus
  /-- `RDR 1`, read `EINFO` (R68). -/
  | rdrEinfo
  /-- `RDR 2`, read `CRC` (R68). -/
  | rdrCrc
  /-- `RDR 3`, read `ILEN` (R68). -/
  | rdrIlen
  /-- `RDR 4`, read `OLEN` (R68). -/
  | rdrOlen
  /-- `CRC.INIT`, start a new checksum (R82). -/
  | crcInit
  /-- `CRC.BYTE imm8`, feed one byte (R83). -/
  | crcByte (imm : Byte)
  /-- `CRC.BUF`, feed the input buffer (R84). -/
  | crcBuf
  /-- `CRC.SUM`, checksum of the input buffer (R85). -/
  | crcSum
  /-- `B32.ENC`, base-32 encode the input buffer (R97). -/
  | b32Enc
  /-- `B32.DEC`, base-32 decode the input buffer (R98). -/
  | b32Dec
  /-- `PAY.BUILD`, marshal a payload (R108). -/
  | payBuild
  /-- `PAY.PARSE`, validate a payload (R109). -/
  | payParse
  deriving DecidableEq, Repr

/-- The three kinds of illegal word that R55 distinguishes; all are treated alike. -/
inductive Illegal where
  /-- R55 (a): an opcode byte that is not in the map. -/
  | reservedOpcode
  /-- R55 (b): a format-Z opcode with bits 7:0 not zero. -/
  | nonzeroLowByte
  /-- R55 (c): `RDR` with a register number from 5 to 255. -/
  | reservedRegister
  deriving DecidableEq, Repr

end Sys2Proof
end

