-- ==== Sys2Proof/WellFormed.lean ====
section
/-! DEFINITION. When the two fields of a command word are well formed: R45's constraint on bits 7:0
by format, and R49's set of opcodes. It is written apart from the decoder, so that the two can be
compared. A constructor of `Instr` carries only operands its format admits, so every `Instr` passes;
the terms the checks can refuse are raw fields. -/

namespace Sys2Proof

/-- The two fields of a command word, before decoding (R45). -/
structure Fields where
  /-- Bits 15:8. -/
  opcode : Byte
  /-- Bits 7:0. -/
  lo : Byte
  deriving DecidableEq, Repr

/-- Which format an opcode has; `none` for an opcode that is not in the map of R49. -/
def Fields.format? (f : Fields) : Option Format :=
  if f.opcode ∈ [0x04#8, 0x05#8, 0x11#8] then some .i
  else if f.opcode = 0x07#8 then some .r
  else if f.opcode ∈ [0x00#8, 0x01#8, 0x02#8, 0x03#8, 0x06#8, 0x10#8, 0x12#8, 0x13#8, 0x20#8,
      0x21#8, 0x30#8, 0x31#8] then some .z
  else none

/-- R45's constraint on bits 7:0. -/
def Format.admits : Format → Byte → Bool
  | .z, lo => lo == 0#8
  | .i, _ => true
  | .r, lo => decide (lo.toNat ≤ 4)

/-- The word is a command: its opcode is in the map and its format admits its low byte (R55's
complement). -/
def Fields.WellFormed (f : Fields) : Bool :=
  match f.format? with
  | none => false
  | some fmt => fmt.admits f.lo

/-- The format of an instruction (R45, R49). -/
def Instr.format : Instr → Format
  | .st _ | .ld _ | .crcByte _ => .i
  | .rdrStatus | .rdrEinfo | .rdrCrc | .rdrIlen | .rdrOlen => .r
  | .nop | .clr | .clre | .clri | .movo | .crcInit | .crcBuf | .crcSum
  | .b32Enc | .b32Dec | .payBuild | .payParse => .z

/-- What an instruction puts in bits 7:0 (R45, R48; the register numbers of R19). -/
def Instr.lowByte : Instr → Byte
  | .st imm | .ld imm | .crcByte imm => imm
  | .rdrStatus => 0#8
  | .rdrEinfo => 1#8
  | .rdrCrc => 2#8
  | .rdrIlen => 3#8
  | .rdrOlen => 4#8
  | .nop | .clr | .clre | .clri | .movo | .crcInit | .crcBuf | .crcSum
  | .b32Enc | .b32Dec | .payBuild | .payParse => 0#8

/-- An instruction is well formed when its format admits its low byte. -/
def Instr.WellFormed (i : Instr) : Bool :=
  i.format.admits i.lowByte

end Sys2Proof
end

