-- ==== Sys2Proof/Decode.lean ====
section
/-! DEFINITION. The decoder of 30_encoding.md R50, total on all 65536 words and rejecting by name,
and after it the encoder, the inverse of R50 written from the word column of R49. -/

namespace Sys2Proof

/-- Bits 15:8 and 7:0 of a command word (R45). -/
def fieldsOf (w : Word) : Fields :=
  { opcode := w.extractLsb' 8 8, lo := w.extractLsb' 0 8 }

/-- A format-Z row: the low byte must be zero (R45, R55 (b)). -/
def zForm (lo : Byte) (i : Instr) : Except Illegal Instr :=
  if lo = 0#8 then .ok i else .error .nonzeroLowByte

/-- The format-R rows: the register number selects the row, 5 to 255 are illegal (R19, R55 (c)). -/
def rForm (lo : Byte) : Except Illegal Instr :=
  if lo = 0#8 then .ok .rdrStatus
  else if lo = 1#8 then .ok .rdrEinfo
  else if lo = 2#8 then .ok .rdrCrc
  else if lo = 3#8 then .ok .rdrIlen
  else if lo = 4#8 then .ok .rdrOlen
  else .error .reservedRegister

/-- R50's table on the two fields; everything it does not name is illegal (R55 (a)). -/
def decodeFields (f : Fields) : Except Illegal Instr :=
  if f.opcode = 0x00#8 then zForm f.lo .nop
  else if f.opcode = 0x01#8 then zForm f.lo .clr
  else if f.opcode = 0x02#8 then zForm f.lo .clre
  else if f.opcode = 0x03#8 then zForm f.lo .clri
  else if f.opcode = 0x04#8 then .ok (.st f.lo)
  else if f.opcode = 0x05#8 then .ok (.ld f.lo)
  else if f.opcode = 0x06#8 then zForm f.lo .movo
  else if f.opcode = 0x07#8 then rForm f.lo
  else if f.opcode = 0x10#8 then zForm f.lo .crcInit
  else if f.opcode = 0x11#8 then .ok (.crcByte f.lo)
  else if f.opcode = 0x12#8 then zForm f.lo .crcBuf
  else if f.opcode = 0x13#8 then zForm f.lo .crcSum
  else if f.opcode = 0x20#8 then zForm f.lo .b32Enc
  else if f.opcode = 0x21#8 then zForm f.lo .b32Dec
  else if f.opcode = 0x30#8 then zForm f.lo .payBuild
  else if f.opcode = 0x31#8 then zForm f.lo .payParse
  else .error .reservedOpcode

/-- `decode(cmd)` of R50. -/
def decode (w : Word) : Except Illegal Instr :=
  decodeFields (fieldsOf w)

/-- `encode` of R50: the word column of R49 with the operand in bits 7:0. -/
def encode : Instr → Word
  | .nop => 0x0000#16
  | .clr => 0x0100#16
  | .clre => 0x0200#16
  | .clri => 0x0300#16
  | .st imm => 0x04#8 ++ imm
  | .ld imm => 0x05#8 ++ imm
  | .movo => 0x0600#16
  | .rdrStatus => 0x0700#16
  | .rdrEinfo => 0x0701#16
  | .rdrCrc => 0x0702#16
  | .rdrIlen => 0x0703#16
  | .rdrOlen => 0x0704#16
  | .crcInit => 0x1000#16
  | .crcByte imm => 0x11#8 ++ imm
  | .crcBuf => 0x1200#16
  | .crcSum => 0x1300#16
  | .b32Enc => 0x2000#16
  | .b32Dec => 0x2100#16
  | .payBuild => 0x3000#16
  | .payParse => 0x3100#16

/-- One row of R49: a word `w` is the row's command if and only if `w AND mask = word`. -/
structure OpcodeRow where
  /-- The mnemonic as R49 and spec/opcode_table.json spell it. -/
  mnemonic : String
  /-- The `match` column. -/
  word : Word
  /-- The `mask` column. -/
  mask : Word
  deriving DecidableEq, Repr

/-- R49's row of an instruction. -/
def Instr.row : Instr → OpcodeRow
  | .nop => ⟨"NOP", 0x0000#16, 0xFFFF#16⟩
  | .clr => ⟨"CLR", 0x0100#16, 0xFFFF#16⟩
  | .clre => ⟨"CLRE", 0x0200#16, 0xFFFF#16⟩
  | .clri => ⟨"CLRI", 0x0300#16, 0xFFFF#16⟩
  | .st _ => ⟨"ST", 0x0400#16, 0xFF00#16⟩
  | .ld _ => ⟨"LD", 0x0500#16, 0xFF00#16⟩
  | .movo => ⟨"MOVO", 0x0600#16, 0xFFFF#16⟩
  | .rdrStatus => ⟨"RDR", 0x0700#16, 0xFFFF#16⟩
  | .rdrEinfo => ⟨"RDR", 0x0701#16, 0xFFFF#16⟩
  | .rdrCrc => ⟨"RDR", 0x0702#16, 0xFFFF#16⟩
  | .rdrIlen => ⟨"RDR", 0x0703#16, 0xFFFF#16⟩
  | .rdrOlen => ⟨"RDR", 0x0704#16, 0xFFFF#16⟩
  | .crcInit => ⟨"CRC.INIT", 0x1000#16, 0xFFFF#16⟩
  | .crcByte _ => ⟨"CRC.BYTE", 0x1100#16, 0xFF00#16⟩
  | .crcBuf => ⟨"CRC.BUF", 0x1200#16, 0xFFFF#16⟩
  | .crcSum => ⟨"CRC.SUM", 0x1300#16, 0xFFFF#16⟩
  | .b32Enc => ⟨"B32.ENC", 0x2000#16, 0xFFFF#16⟩
  | .b32Dec => ⟨"B32.DEC", 0x2100#16, 0xFFFF#16⟩
  | .payBuild => ⟨"PAY.BUILD", 0x3000#16, 0xFFFF#16⟩
  | .payParse => ⟨"PAY.PARSE", 0x3100#16, 0xFFFF#16⟩

/-- The instruction the decoder reads from an opcode-table word of `nbits` bits, bit 0 the least
significant; `none` where it refuses. A command is one 16-bit word (R45), so bits at and above
`nbits` are zero and bits above 15 do not exist. -/
def decodeTableWord (nbits w : Nat) : Option Instr :=
  match decode (BitVec.ofNat 16 (w % 2 ^ nbits)) with
  | .ok i => some i
  | .error _ => none

end Sys2Proof
end

