-- ==== Sys2Proof/Config.lean ====
section
/-! DEFINITION. The implementation parameters of 00_scope.md R7. Those the spec fixes are constants;
those it leaves open are the fields of `Params`, which the operations that depend on them take as an
argument, so that a statement can be made for every conforming value. -/

namespace Sys2Proof.Config

/-- `BUF_CAP`, the capacity in bytes of `IBUF` and of `OBUF`: fixed at 256 (R7, D3). -/
def bufCap : Nat := 256

/-- `B32_ENC_MAX_IN` = floor(`BUF_CAP` × 5 / 8) = 160, the largest `ILEN` that `B32.ENC` accepts
(R7, D10). -/
def b32EncMaxIn : Nat := bufCap * 5 / 8

/-- `VERSION_CONTRACT`, the one accepted version byte (R3, R7). -/
def versionContract : Byte := 0x10

/-- The parameters R7 leaves to the implementation, each with R7's stated default as its value.
DESIGN CHOICE (log 7, 8, 14): the machine of `exec` runs at the defaults. -/
structure Params where
  /-- `B32_MAX_IN`: the largest `ILEN` that `B32.DEC` accepts (D9). -/
  b32MaxIn : Nat := 128
  /-- `ACC_W`: the width of the base-32 accumulator that the decoder's guard tests (D11). -/
  accW : Nat := 12
  /-- `HEX_TRIM_SET`: the bytes the host's `toBytes` strips from both ends (D21, host layer only). -/
  hexTrimSet : List Byte := [0x09, 0x0A, 0x0B, 0x0C, 0x0D, 0x20]
  deriving DecidableEq, Repr

/-- R7's constraints: 58 ≤ `B32_MAX_IN` ≤ `BUF_CAP` and `ACC_W` ≥ 12. -/
abbrev Params.Conforming (p : Params) : Prop :=
  58 ≤ p.b32MaxIn ∧ p.b32MaxIn ≤ bufCap ∧ 12 ≤ p.accW

/-- The parameters of the modelled block: the defaults of R7. -/
def params : Params := { }

end Sys2Proof.Config
end

