-- ==== Sys2Proof/Machine/State.lean ====
section
/-! DEFINITION. The state of the block as plain data (10_state.md section 1), the host's command
stream and response list the model adds, the names of the errors, and the state after reset. -/

namespace Sys2Proof.Machine

/-- The contents of a byte buffer: the bytes that have a value, by index. Its one canonical form is
`Memory.wf` (Ops.lean): indices strictly rising and below 256. An index that is not listed has NO
value (log 4): after reset nothing is listed, as R24 leaves the contents unspecified. -/
abbrev Memory := List Host.Cell

/-- The two byte spaces of 20_memory.md R30. -/
inductive Space where
  /-- The input buffer. -/
  | ibuf
  /-- The output buffer. -/
  | obuf
  deriving DecidableEq, Repr

/-- The error kinds of 60_exceptions.md R130, codes 1 to 13. -/
inductive ErrorKind where
  /-- Code 1, host only. -/
  | invalidHexCharacter
  /-- Code 2, host only. -/
  | invalidHexLength
  /-- Code 3, `B32.DEC`. -/
  | invalidBase32Character
  /-- Code 4, `B32.DEC`. -/
  | inputTooLong
  /-- Code 5, `B32.DEC` in principle, never in fact (42_base32.md R99). -/
  | malformedInput
  /-- Code 6, `PAY.PARSE`. -/
  | invalidPayloadLength
  /-- Code 7, `PAY.PARSE`. -/
  | unsupportedVersion
  /-- Code 8, `PAY.PARSE`. -/
  | invalidChecksum
  /-- Code 9, host only. -/
  | alreadyStrKey
  /-- Code 10, `ST` and `B32.ENC`. -/
  | eCap
  /-- Code 11, `LD`. -/
  | eRange
  /-- Code 12, any illegal command word. -/
  | eIllCmd
  /-- Code 13, `PAY.BUILD`, fatal. -/
  | ePrecond
  deriving DecidableEq, Repr

/-- What the host can present to the block (30_encoding.md R59): a command word, or the hardware
reset of 70_reset_and_hazards.md R155. -/
inductive HostInput where
  /-- One transaction: a 16-bit command word. -/
  | command (w : Word)
  /-- The hardware reset input is asserted between two commands. -/
  | reset
  deriving DecidableEq, Repr

/-- The two ways a step of the MODEL stops. Neither is an error of the block, whose errors are next
states (R143), and neither is raised from a state that keeps the invariant of R22 (log 13). -/
inductive Fault where
  /-- Raised by `memRead` for an index at or beyond the valid length, or one no command has written
  since reset, where R31 does not define `MemRead`. Safe: the model stops where the spec gives no
  value. -/
  | readUndefined (space : Space) (index : Nat)
  /-- Raised by `memWrite` for an index above 255, where R31 does not define `MemWrite`. Safe: the
  model stops where the spec gives no effect. -/
  | writeUndefined (space : Space) (index : Nat)
  deriving DecidableEq, Repr

/-- Why an instruction has no meaning. -/
inductive Refusal where
  /-- Raised by an arm of `exec` for an instruction without a meaning; no arm raises it. Safe. -/
  | notModelled (mnemonic : String)
  deriving DecidableEq, Repr

/-- The state of the block: the table of 10_state.md section 1, and the two fields the model adds
for the command port. -/
structure State where
  /-- `CRC`, 16 bits: the running CRC-16/XMODEM value (R12). -/
  crc : Word
  /-- `IBUF`, 256 × 8 bits: the input buffer (R13). -/
  ibuf : Memory
  /-- `ILEN`, 9 bits, 0 to 256: how many bytes of `IBUF` are valid (R13). -/
  ilen : BitVec 9
  /-- `OBUF`, 256 × 8 bits: the output buffer (R14). -/
  obuf : Memory
  /-- `OLEN`, 9 bits, 0 to 256: how many bytes of `OBUF` are valid (R14). -/
  olen : BitVec 9
  /-- `ERR`, 4 bits: the sticky error code, 0 is `OK` (R15, R130). -/
  err : BitVec 4
  /-- `FF`, 1 bit: the fatal flag (R16). -/
  ff : Bool
  /-- `EINFO`, 16 bits: the data the error carries (R17). -/
  einfo : Word
  /-- `ACC`, 12 bits: the hidden base-32 accumulator (R20; log 6). -/
  acc : BitVec 12
  /-- `NB`, 4 bits: how many bits of `ACC` are not yet emitted (R20; log 6). -/
  nb : BitVec 4
  /-- The MODEL's: what the host has still to present, oldest first (R23, R59; log 1). -/
  inputs : List HostInput
  /-- The MODEL's: the response words given back so far, oldest first (R46, R170; log 2). -/
  responses : List Word
  deriving DecidableEq, Repr

/-- The state after a hardware reset (R24): every register zero. The contents of both buffers are
unspecified, so nothing is listed (log 4); `ACC` and `NB` are unspecified and stand at 0
(DESIGN CHOICE, log 6); no input is pending and no response has been given (log 1, log 2). -/
def State.reset : State where
  crc := 0x0000
  ibuf := []
  ilen := 0
  obuf := []
  olen := 0
  err := 0
  ff := false
  einfo := 0x0000
  acc := 0
  nb := 0
  inputs := []
  responses := []

/-- The outcome of a command. -/
abbrev Result := Host.Outcome State Fault Refusal

end Sys2Proof.Machine
end

