-- ==== Sys2Proof/Machine/Flags.lean ====
section
/-! DEFINITION. The error codes (60_exceptions.md R130) and the `STATUS` view (10_state.md R18), the
block's only flags. -/

namespace Sys2Proof.Machine

/-- The 4-bit code of an error kind (R130). -/
def ErrorKind.code : ErrorKind → BitVec 4
  | .invalidHexCharacter => 1
  | .invalidHexLength => 2
  | .invalidBase32Character => 3
  | .inputTooLong => 4
  | .malformedInput => 5
  | .invalidPayloadLength => 6
  | .unsupportedVersion => 7
  | .invalidChecksum => 8
  | .alreadyStrKey => 9
  | .eCap => 10
  | .eRange => 11
  | .eIllCmd => 12
  | .ePrecond => 13

/-- `EF`, bit 15 of `STATUS`: 1 if `ERR != 0` (R18). -/
def errorFlag (s : State) : BitVec 1 :=
  if s.err = 0 then 0 else 1

/-- `STATUS` = {`EF`, `FF`, ten zero bits, `ERR`}, recomputed whenever it is read (R18). -/
def status (s : State) : Word :=
  errorFlag s ++ BitVec.ofBool s.ff ++ 0#10 ++ s.err

end Sys2Proof.Machine
end

