-- ==== Sys2Proof/Machine/Ops.lean ====
section
/-! DEFINITION. The named operations every command is written with: one byte of a buffer read or
written (20_memory.md R31), the response (30_encoding.md R46), the error-state test
(60_exceptions.md R138), raising an error (R136), and leaving the error state (R61, R63, R141). -/

namespace Sys2Proof.Machine

/-! ### Buffers -/

/-- The byte a memory holds at an index, `none` where it has no value. -/
def Memory.byteAt : Memory → Nat → Option Byte
  | [], _ => none
  | (j, c) :: m, i => if i = j then some c else Memory.byteAt m i

/-- The memory with byte `b` at index `i`, the canonical form kept. -/
def Memory.store : Memory → Nat → Byte → Memory
  | [], i, b => [(i, b)]
  | (j, c) :: m, i, b =>
    if i < j then (i, b) :: (j, c) :: m
    else if i = j then (i, b) :: m
    else (j, c) :: Memory.store m i b

/-- The canonical form: indices strictly rising and inside the buffer. -/
abbrev Memory.wf (m : Memory) : Prop :=
  (m.map Prod.fst).Pairwise (· < ·) ∧ ∀ c ∈ m, c.1 < Config.bufCap

/-- The contents of a space. -/
def memOf : Space → State → Memory
  | .ibuf, s => s.ibuf
  | .obuf, s => s.obuf

/-- The valid length of a space: `ILEN` or `OLEN` (R13, R14). -/
def lenOf : Space → State → BitVec 9
  | .ibuf, s => s.ilen
  | .obuf, s => s.olen

/-- The state with other contents in one space. -/
def setMem : Space → Memory → State → State
  | .ibuf, m, s => { s with ibuf := m }
  | .obuf, m, s => { s with obuf := m }

/-- `MemRead(space, i, 1)`: defined only below the valid length (R31). -/
def memRead (sp : Space) (i : Nat) (s : State) : Except Fault Byte :=
  if i < (lenOf sp s).toNat then
    match (memOf sp s).byteAt i with
    | some b => .ok b
    | none => .error (.readUndefined sp i)
  else .error (.readUndefined sp i)

/-- `MemWrite(space, i, 1, b)`: defined only for indices 0 to 255 (R31). -/
def memWrite (sp : Space) (i : Nat) (b : Byte) (s : State) : Except Fault State :=
  if i < Config.bufCap then .ok (setMem sp ((memOf sp s).store i b) s)
  else .error (.writeUndefined sp i)

/-- `n` bytes read in order, the first at index `i`. -/
def memReadFrom (sp : Space) (i : Nat) : Nat → State → Except Fault (List Byte)
  | 0, _ => .ok []
  | n + 1, s =>
    match memRead sp i s with
    | .error f => .error f
    | .ok b =>
      match memReadFrom sp (i + 1) n s with
      | .error f => .error f
      | .ok bs => .ok (b :: bs)

/-- Bytes written in order, the first at index `i`. -/
def memWriteFrom (sp : Space) (i : Nat) : List Byte → State → Except Fault State
  | [], s => .ok s
  | b :: bs, s =>
    match memWrite sp i b s with
    | .error f => .error f
    | .ok s' => memWriteFrom sp (i + 1) bs s'

/-- Go on with the value of a buffer access, or stop with its fault. -/
def orFault {α : Type} (r : Except Fault α) (k : α → Result) : Result :=
  match r with
  | .ok a => k a
  | .error f => .fault f

/-! ### Registers -/

/-- The working registers of the B32 unit as the pseudocode's natural numbers `acc` and `nb`
(00_scope.md R8, 42_base32.md R93, R95). -/
structure Bits where
  /-- The accumulator. -/
  acc : Nat
  /-- How many of its low bits are not yet emitted. -/
  nb : Nat
  deriving DecidableEq, Repr

/-- `ACC` and `NB` take the values of the working variables (10_state.md R20). -/
def setWork (w : Bits) (s : State) : State :=
  { s with acc := BitVec.ofNat 12 w.acc, nb := BitVec.ofNat 4 w.nb }

/-- The state with another `CRC`. -/
def setCrc (c : Word) (s : State) : State := { s with crc := c }

/-- The state with another `ILEN`. -/
def setIlen (n : BitVec 9) (s : State) : State := { s with ilen := n }

/-- The state with another `OLEN`. -/
def setOlen (n : BitVec 9) (s : State) : State := { s with olen := n }

/-! ### Responses -/

/-- `rsp <- v`: the response word of the command (R46). -/
def respond (v : Word) (s : State) : State :=
  { s with responses := s.responses ++ [v] }

/-- A command ends with `rsp <- STATUS`, read after its writes (R46 case 5). -/
def complete (s : State) : Result :=
  .next (respond (status s) s)

/-- A command ends with the value it read as its response (R46 cases 3 and 4). -/
def answer (v : Word) (s : State) : Result :=
  .next (respond v s)

/-! ### Errors -/

/-- What `raise` writes: `ERR`, `FF`, `EINFO` and nothing else (R136, R137). -/
def recordError (x : ErrorKind) (info : Word) (s : State) : State :=
  { s with
    err := x.code
    ff := if x = .ePrecond then true else s.ff
    einfo := if x = .invalidBase32Character then info else 0x0000 }

/-- `raise X(info)`: the whole of error entry; the command ends and its response is the new
`STATUS` (R136). -/
def raise (x : ErrorKind) (info : Word) (s : State) : Result :=
  complete (recordError x info s)

/-- The error-state test of R60 and R138: in an error state the command is skipped, no state changes
and the response is `STATUS`. It tests `ERR` alone, as R60 does, also in states outside R22
(log 17). -/
def unlessError (s : State) (k : State → Result) : Result :=
  if s.err = 0 then k s else complete s

/-- What `CLRE` clears: `ERR` and `EINFO`, and only outside the fatal state (R63, R141, R142). -/
def clearError (s : State) : State :=
  if s.ff then s else { s with err := 0, einfo := 0x0000 }

/-- What `CLR` clears: every register; buffer contents, `ACC` and `NB` are not written (R61). -/
def clearAll (s : State) : State :=
  { s with crc := 0x0000, ilen := 0, olen := 0, err := 0, ff := false, einfo := 0x0000 }

/-- The hardware reset: the reset state of R24 whatever the state was, the fatal state included
(R155). What the host holds, its inputs and the responses it has, is not the block's (log 9). -/
def hardwareReset (s : State) : State :=
  { State.reset with inputs := s.inputs, responses := s.responses }

end Sys2Proof.Machine
end

