-- ==== Sys2Proof/Machine/Operands.lean ====
section
/-! DEFINITION. The operand forms of the commands (30_encoding.md R48): the implicit byte sequences
`IBUF[0..ILEN)` and `OBUF[0..OLEN)`, the immediate as a data byte and as an index, and the widening
of a byte or a length to the 16-bit response. -/

namespace Sys2Proof.Machine

/-- `IBUF[0..ILEN)`, the operand of every unit command (R13, R48). -/
def ibufOperand (s : State) : Except Fault (List Byte) :=
  memReadFrom .ibuf 0 s.ilen.toNat s

/-- `OBUF[0..OLEN)`, the operand of `MOVO` (R14, R67). -/
def obufOperand (s : State) : Except Fault (List Byte) :=
  memReadFrom .obuf 0 s.olen.toNat s

/-- `zext_9(imm8)`, the index form of the immediate (R48, R66). -/
def indexOf (imm : Byte) : Nat := imm.toNat

/-- `zext_16` of a byte (R46 case 3). -/
def zextByte (b : Byte) : Word := b.zeroExtend 16

/-- `zext_16` of a length register (R19). -/
def zextLen (n : BitVec 9) : Word := n.zeroExtend 16

/-- A length as the 9-bit value of `ILEN` or `OLEN`. -/
def lenBits (bs : List Byte) : BitVec 9 := BitVec.ofNat 9 bs.length

/-- A unit command's success: the bytes replace the valid content of `OBUF`, `OLEN` takes their
number, and the response is `STATUS` (R14). -/
def deliver (bs : List Byte) (s : State) : Result :=
  orFault (memWriteFrom .obuf 0 bs s) fun s' => complete (setOlen (lenBits bs) s')

end Sys2Proof.Machine
end

