-- ==== Sys2Proof/Machine/Base32.lean ====
section
/-! DEFINITION. The B32 unit (42_base32.md): alphabet, encoder, decoder, and the two commands. The
working variables are natural numbers, as R8 has the shifts of the pseudocode. -/

namespace Sys2Proof.Machine

/-- The alphabet `ABCDEFGHIJKLMNOPQRSTUVWXYZ234567` as ASCII bytes (R90; the codes are PRESUMED,
log 15). -/
def b32Alphabet : List Byte :=
  [0x41, 0x42, 0x43, 0x44, 0x45, 0x46, 0x47, 0x48, 0x49, 0x4A, 0x4B, 0x4C, 0x4D, 0x4E, 0x4F, 0x50,
   0x51, 0x52, 0x53, 0x54, 0x55, 0x56, 0x57, 0x58, 0x59, 0x5A, 0x32, 0x33, 0x34, 0x35, 0x36, 0x37]

/-- `ALPHA[v]` for `v` from 0 to 31 (R90); every use has `v` below 32. -/
def b32Alpha (v : Nat) : Byte := b32Alphabet.getD v 0

/-- `INV(u)`: the inverse lookup, `none` where R91 says absent. -/
def b32Inv (u : Byte) : Option Nat :=
  if 0x41 ≤ u.toNat ∧ u.toNat ≤ 0x5A then some (u.toNat - 0x41)
  else if 0x32 ≤ u.toNat ∧ u.toNat ≤ 0x37 then some (u.toNat - 0x32 + 26)
  else none

/-- `upcase(ch)`: `a` to `z` lose 0x20, no other byte changes (R92). -/
def upcase (ch : Byte) : Byte :=
  if 0x61 ≤ ch.toNat ∧ ch.toNat ≤ 0x7A then ch - 0x20 else ch

/-- `acc AND ((1 << nb) - 1)`: only the unemitted bits stay (R93, R95). -/
def keepBits (acc nb : Nat) : Nat := acc &&& ((1 <<< nb) - 1)

/-- The new byte goes below the unemitted bits (R93). -/
def pushByte (w : Bits) (b : Byte) : Bits :=
  { acc := (w.acc <<< 8) ||| b.toNat, nb := w.nb + 8 }

/-- The `while nb >= 5` loop of R93: the characters it emits and the variables it leaves. Each turn
takes 5 from `nb`, so `nb` turns are enough for the loop to end. -/
def emitGroups : Nat → Bits → List Byte × Bits
  | 0, w => ([], w)
  | turns + 1, w =>
    if 5 ≤ w.nb then
      let v := (w.acc >>> (w.nb - 5)) &&& 0x1F
      let r := emitGroups turns { acc := keepBits w.acc (w.nb - 5), nb := w.nb - 5 }
      (b32Alpha v :: r.1, r.2)
    else ([], w)

/-- The leftover 1 to 4 bits, left-aligned with zero bits on the right (R93). -/
def flushGroup (w : Bits) : List Byte :=
  if 0 < w.nb then [b32Alpha ((w.acc <<< (5 - w.nb)) &&& 0x1F)] else []

/-- The outer loop of R93 from given working variables, with the variables it leaves. -/
def b32EncodeFrom : List Byte → Bits → List Byte × Bits
  | [], w => (flushGroup w, w)
  | b :: bs, w =>
    let p := pushByte w b
    let g := emitGroups p.nb p
    let r := b32EncodeFrom bs g.2
    (g.1 ++ r.1, r.2)

/-- `b32_encode(data)` (R93). -/
def b32Encode (data : List Byte) : List Byte := (b32EncodeFrom data ⟨0, 0⟩).1

/-- The two errors of `b32_decode` (R95). -/
inductive B32Error where
  /-- `InvalidBase32Character(char, pos)`. -/
  | invalidCharacter (char : Byte) (pos : Nat)
  /-- `MalformedInput`, never raised when `ACC_W` ≥ 12 (R99). -/
  | malformedInput
  deriving DecidableEq, Repr

/-- The loop of R95 from position `pos`, with the variables it leaves; `accW` is `ACC_W`. The guard
is dead for a conforming width and kept (R99; log 10). -/
def b32DecodeFrom (accW : Nat) : Nat → List Byte → Bits → Bits × Except B32Error (List Byte)
  | _, [], w => (w, .ok [])
  | pos, ch :: rest, w =>
    match b32Inv (upcase ch) with
    | none => (w, .error (.invalidCharacter ch pos))
    | some v =>
      if accW < w.nb + 5 then (w, .error .malformedInput)
      else
        let acc := (w.acc <<< 5) ||| v
        let nb := w.nb + 5
        if 8 ≤ nb then
          let byte := BitVec.ofNat 8 ((acc >>> (nb - 8)) &&& 0xFF)
          let r := b32DecodeFrom accW (pos + 1) rest { acc := keepBits acc (nb - 8), nb := nb - 8 }
          (r.1, r.2.map (byte :: ·))
        else b32DecodeFrom accW (pos + 1) rest { acc := acc, nb := nb }

/-- `b32_decode(text)` (R95). -/
def b32Decode (accW : Nat) (text : List Byte) : Except B32Error (List Byte) :=
  (b32DecodeFrom accW 0 text ⟨0, 0⟩).2

/-- `EINFO` for a bad character: {`pos[7:0]`, `char[7:0]`} (R17, R98). -/
def charInfo (char : Byte) (pos : Nat) : Word := BitVec.ofNat 8 pos ++ char

/-- `B32.ENC` (R97). `ACC` and `NB` start at 0 (R20) and keep what the encoder leaves (log 6). -/
def execB32Enc (s : State) : Result :=
  unlessError s fun s =>
    let s := setWork ⟨0, 0⟩ s
    if Config.b32EncMaxIn < s.ilen.toNat then raise .eCap 0 s
    else orFault (ibufOperand s) fun data =>
      let r := b32EncodeFrom data ⟨0, 0⟩
      deliver r.1 (setWork r.2 s)

/-- `B32.DEC` with the open parameters of R7 as an argument (R98): the length test before any
character is looked at, then the decoder's error or its bytes. -/
def b32DecWith (p : Config.Params) (s : State) : Result :=
  unlessError s fun s =>
    let s := setWork ⟨0, 0⟩ s
    if p.b32MaxIn < s.ilen.toNat then raise .inputTooLong 0 s
    else orFault (ibufOperand s) fun text =>
      let r := b32DecodeFrom p.accW 0 text ⟨0, 0⟩
      let s := setWork r.1 s
      match r.2 with
      | .error (.invalidCharacter char pos) => raise .invalidBase32Character (charInfo char pos) s
      | .error .malformedInput => raise .malformedInput 0 s
      | .ok bytes => deliver bytes s

/-- `B32.DEC` (R98) at the stated parameters of R7. -/
def execB32Dec (s : State) : Result := b32DecWith Config.params s

end Sys2Proof.Machine
end

