-- ==== Sys2Proof/Machine/BufferSystem.lean ====
section
/-! DEFINITION. The buffer and system commands of 40_buffer_system.md, and what an illegal word
does. -/

namespace Sys2Proof.Machine

/-- `NOP` (R62): executes in every state, changes nothing, response `STATUS`. -/
def execNop (s : State) : Result := complete s

/-- `CLR` (R61): soft reset, executes in every state. -/
def execClr (s : State) : Result := complete (clearAll s)

/-- `CLRE` (R63): clears a recoverable error, executes in every state. -/
def execClre (s : State) : Result := complete (clearError s)

/-- `CLRI` (R64): `ILEN <- 0`. -/
def execClri (s : State) : Result :=
  unlessError s fun s => complete (setIlen 0 s)

/-- `ST imm8` (R65): `E_CAP` when the buffer holds 256 bytes, else the byte is appended at index
`ILEN`. -/
def execSt (imm : Byte) (s : State) : Result :=
  unlessError s fun s =>
    if s.ilen = 256 then raise .eCap 0 s
    else orFault (memWrite .ibuf s.ilen.toNat imm s) fun s' => complete (setIlen (s.ilen + 1) s')

/-- `LD imm8` (R66): `E_RANGE` for an index at or beyond `OLEN`, else the byte is the response. -/
def execLd (imm : Byte) (s : State) : Result :=
  unlessError s fun s =>
    if s.olen.toNat ≤ indexOf imm then raise .eRange 0 s
    else orFault (memRead .obuf (indexOf imm) s) fun b => answer (zextByte b) s

/-- `MOVO` (R67): `OBUF[0..OLEN)` replaces the valid content of `IBUF`. -/
def execMovo (s : State) : Result :=
  unlessError s fun s =>
    orFault (obufOperand s) fun bs =>
      orFault (memWriteFrom .ibuf 0 bs s) fun s' => complete (setIlen s.olen s')

/-- `RDR STATUS` (R68, `r` = 0): executes in every state. -/
def execRdrStatus (s : State) : Result := answer (status s) s

/-- `RDR EINFO` (R68, `r` = 1). -/
def execRdrEinfo (s : State) : Result := answer s.einfo s

/-- `RDR CRC` (R68, `r` = 2). -/
def execRdrCrc (s : State) : Result := answer s.crc s

/-- `RDR ILEN` (R68, `r` = 3). -/
def execRdrIlen (s : State) : Result := answer (zextLen s.ilen) s

/-- `RDR OLEN` (R68, `r` = 4). -/
def execRdrOlen (s : State) : Result := answer (zextLen s.olen) s

/-- An illegal word (30_encoding.md R55, 60_exceptions.md R135): skipped in an error state, else it
raises `E_ILLCMD` and changes nothing else. -/
def illegalCommand (s : State) : Result :=
  unlessError s fun s => raise .eIllCmd 0 s

end Sys2Proof.Machine
end

