-- ==== Sys2Proof/Machine/Crc.lean ====
section
/-! DEFINITION. The CRC unit (41_crc.md): the per-byte step, the checksum, and the four commands. -/

namespace Sys2Proof.Machine

/-- One of the eight rounds of R80: the top bit is tested before the shift, the bit shifted out is
discarded. -/
def crcRound (c : Word) : Word :=
  if c.msb then (c <<< 1) ^^^ 0x1021 else c <<< 1

/-- `n` rounds. -/
def crcRounds : Nat → Word → Word
  | 0, c => c
  | n + 1, c => crcRounds n (crcRound c)

/-- `crc_update(c, b)` (R80): the byte enters at bits 15:8, then eight rounds. -/
def crcUpdate (c : Word) (b : Byte) : Word :=
  crcRounds 8 (c ^^^ (zextByte b <<< 8))

/-- `crc_update` folded over a byte sequence, index 0 first (R81, R84). -/
def crcFold (c : Word) : List Byte → Word
  | [] => c
  | b :: bs => crcFold (crcUpdate c b) bs

/-- `checksum(data)` (R81): initial value 0, no final XOR. -/
def checksum (data : List Byte) : Word := crcFold 0x0000 data

/-- One round as the shift register of R87, bit by bit from the feedback bit `f = c[15]`. -/
def crcRoundShiftRegister (c : Word) : Word :=
  let f := c.getLsbD 15
  BitVec.ofBoolListLE
    [f, c.getLsbD 0, c.getLsbD 1, c.getLsbD 2, c.getLsbD 3, (c.getLsbD 4).xor f, c.getLsbD 5,
     c.getLsbD 6, c.getLsbD 7, c.getLsbD 8, c.getLsbD 9, c.getLsbD 10, (c.getLsbD 11).xor f,
     c.getLsbD 12, c.getLsbD 13, c.getLsbD 14]

/-- `CRC.INIT` (R82). -/
def execCrcInit (s : State) : Result :=
  unlessError s fun s => complete (setCrc 0x0000 s)

/-- `CRC.BYTE imm8` (R83). -/
def execCrcByte (imm : Byte) (s : State) : Result :=
  unlessError s fun s => complete (setCrc (crcUpdate s.crc imm) s)

/-- `CRC.BUF` (R84): continues from the current register. -/
def execCrcBuf (s : State) : Result :=
  unlessError s fun s =>
    orFault (ibufOperand s) fun bs => complete (setCrc (crcFold s.crc bs) s)

/-- `CRC.SUM` (R85): starts from 0x0000, the old `CRC` is not read. -/
def execCrcSum (s : State) : Result :=
  unlessError s fun s =>
    orFault (ibufOperand s) fun bs => complete (setCrc (checksum bs) s)

end Sys2Proof.Machine
end

