-- ==== Sys2Proof/Machine/Payload.lean ====
section
/-! DEFINITION. The PAY unit (43_payload.md): marshalling, validation, and the two commands. Its
checksum is a private use of the function of R81: `CRC` is neither read nor written (R110). -/

namespace Sys2Proof.Machine

/-- The checksum as it stands in a payload, low byte first (R105, 20_memory.md R33 item 3). -/
def checksumBytes (k : Word) : List Byte := [k.extractLsb' 0 8, k.extractLsb' 8 8]

/-- `payload_build(hash)` (R106), meant for 32 bytes. -/
def payloadBuild (hash : List Byte) : List Byte :=
  let p33 := Config.versionContract :: hash
  p33 ++ checksumBytes (checksum p33)

/-- The little-endian 16-bit value of payload bytes 33 and 34 (R107). -/
def storedChecksum (p : List Byte) : Word :=
  (zextByte (p.getD 34 0) <<< 8) ||| zextByte (p.getD 33 0)

/-- `payload_parse(p)` (R107): length, then version, then checksum; the first that fails decides. -/
def payloadParse (p : List Byte) : Except ErrorKind (List Byte) :=
  if p.length ≠ 35 then .error .invalidPayloadLength
  else if p.getD 0 0 ≠ Config.versionContract then .error .unsupportedVersion
  else if checksum (p.take 33) ≠ storedChecksum p then .error .invalidChecksum
  else .ok ((p.drop 1).take 32)

/-- `PAY.BUILD` (R108): a length other than 32 is the fatal error. -/
def execPayBuild (s : State) : Result :=
  unlessError s fun s =>
    if s.ilen.toNat ≠ 32 then raise .ePrecond 0 s
    else orFault (ibufOperand s) fun hash => deliver (payloadBuild hash) s

/-- `PAY.PARSE` (R109): the hash is delivered to `OBUF`, the payload stays in `IBUF`. -/
def execPayParse (s : State) : Result :=
  unlessError s fun s =>
    orFault (ibufOperand s) fun p =>
      match payloadParse p with
      | .error x => raise x 0 s
      | .ok hash => deliver hash s

end Sys2Proof.Machine
end

