-- ==== Sys2Proof/Machine/Dispatch.lean ====
section
/-! DEFINITION. One command executed in a state, one arm per constructor of `Instr`
(40_buffer_system.md R60). -/

namespace Sys2Proof.Machine

/-- The command `i` executed in state `s`; the error-state test of R60 stands in each meaning
(log 11). -/
def exec (i : Instr) (s : State) : Host.Outcome State Fault Refusal :=
  match i with
  | .nop => Sys2Proof.Machine.execNop s
  | .clr => Sys2Proof.Machine.execClr s
  | .clre => Sys2Proof.Machine.execClre s
  | .clri => Sys2Proof.Machine.execClri s
  | .st imm => Sys2Proof.Machine.execSt imm s
  | .ld imm => Sys2Proof.Machine.execLd imm s
  | .movo => Sys2Proof.Machine.execMovo s
  | .rdrStatus => Sys2Proof.Machine.execRdrStatus s
  | .rdrEinfo => Sys2Proof.Machine.execRdrEinfo s
  | .rdrCrc => Sys2Proof.Machine.execRdrCrc s
  | .rdrIlen => Sys2Proof.Machine.execRdrIlen s
  | .rdrOlen => Sys2Proof.Machine.execRdrOlen s
  | .crcInit => Sys2Proof.Machine.execCrcInit s
  | .crcByte imm => Sys2Proof.Machine.execCrcByte imm s
  | .crcBuf => Sys2Proof.Machine.execCrcBuf s
  | .crcSum => Sys2Proof.Machine.execCrcSum s
  | .b32Enc => Sys2Proof.Machine.execB32Enc s
  | .b32Dec => Sys2Proof.Machine.execB32Dec s
  | .payBuild => Sys2Proof.Machine.execPayBuild s
  | .payParse => Sys2Proof.Machine.execPayParse s

end Sys2Proof.Machine
end

