-- ==== Sys2Proof/Machine/Fetch.lean ====
section
/-! DEFINITION. How the block takes what the host presents (30_encoding.md R59): the next input, a
command word run by R60, the hardware reset of R155. -/

namespace Sys2Proof.Machine

/-- The oldest pending input and the state without it, `none` when the host presents nothing. -/
def nextInput (s : State) : Option (HostInput × State) :=
  match s.inputs with
  | [] => none
  | x :: rest => some (x, { s with inputs := rest })

/-- One command word (R60): a legal word executes its command, any other is an illegal command. -/
def runWord (w : Word) (s : State) : Result :=
  match decode w with
  | .ok i => exec i s
  | .error _ => illegalCommand s

/-- One input of the host: a command word is run; the hardware reset gives no response (R155,
log 9). -/
def runInput (x : HostInput) (s : State) : Result :=
  match x with
  | .command w => runWord w s
  | .reset => .next (hardwareReset s)

/-- The state with one more command word, to be taken before what is already pending. -/
def presentFirst (w : Word) (s : State) : State :=
  { s with inputs := .command w :: s.inputs }

end Sys2Proof.Machine
end

