-- ==== Sys2Proof/Machine/Step.lean ====
section
/-! DEFINITION. One step of the block: the next input of the host, or, when there is none, nothing:
between commands the block holds its state (60_exceptions.md R154, log 3). -/

namespace Sys2Proof.Machine

/-- The step function of 30_encoding.md R59 and 40_buffer_system.md R60 over the host's inputs. -/
def step (s : State) : Host.Outcome State Fault Refusal :=
  match nextInput s with
  | none => .next s
  | some (x, s') => runInput x s'

/-- The state in which the very next step runs the command word whose bits are `w` (log 1). -/
def State.withFetchWord (s : State) (nbits w : Nat) : State :=
  presentFirst (BitVec.ofNat 16 (w % 2 ^ nbits)) s

end Sys2Proof.Machine
end

