-- ==== Sys2Proof/Machine/BitStream.lean ====
section
/-! DEFINITION. Base-32 as a cut of one bit string, most significant bit first (20_memory.md R33
item 2, 42_base32.md R100): the second, plainer form of the encoder and decoder, against which the
accumulator loops of R93 and R95 are compared. -/

namespace Sys2Proof.Machine

/-- The low `k` bits of a number, most significant first. -/
def bitsOf : Nat → Nat → List Bool
  | 0, _ => []
  | k + 1, v => v.testBit k :: bitsOf k v

/-- The number a bit string writes, most significant first, after the value read so far. -/
def valueFrom (v : Nat) : List Bool → Nat
  | [] => v
  | b :: bs => valueFrom (2 * v + b.toNat) bs

/-- The number a bit string writes, most significant first. -/
def valueOf (bs : List Bool) : Nat := valueFrom 0 bs

/-- The bit string cut in groups of five, the last filled with zeros on the right (R93). -/
def groupsOf5 : List Bool → List Nat
  | a :: b :: c :: d :: e :: rest => valueOf [a, b, c, d, e] :: groupsOf5 rest
  | [a, b, c, d] => [valueOf [a, b, c, d, false]]
  | [a, b, c] => [valueOf [a, b, c, false, false]]
  | [a, b] => [valueOf [a, b, false, false, false]]
  | [a] => [valueOf [a, false, false, false, false]]
  | [] => []

/-- The bit string cut in whole bytes, the leftover bits dropped (R95). -/
def wholeBytes : List Bool → List Byte
  | a :: b :: c :: d :: e :: f :: g :: h :: rest =>
    BitVec.ofNat 8 (valueOf [a, b, c, d, e, f, g, h]) :: wholeBytes rest
  | _ => []

/-- `b32_encode` as a cut of the input's bit string. -/
def b32EncodeStream (data : List Byte) : List Byte :=
  (groupsOf5 (data.flatMap fun b => bitsOf 8 b.toNat)).map b32Alpha

/-- `b32_decode` of a text whose characters have the values `vs`, as a cut of their bit string. -/
def b32DecodeStream (vs : List Nat) : List Byte :=
  wholeBytes (vs.flatMap (bitsOf 5))

end Sys2Proof.Machine
end

