-- ==== Sys2Proof/Machine/HostLayer.lean ====
section
/-! DEFINITION. The host software of 44_host_layer.md as pure reference procedures over the units'
functions. It is no part of the block's step; it is here because the source's properties (R125) are
stated through it. Texts are byte sequences (R116). -/

namespace Sys2Proof.Machine

/-- The source's nine error kinds with the data they carry (R123, 60_exceptions.md R130). -/
inductive CodecError where
  /-- `InvalidHexCharacter(at: position)`, the position in the trimmed text (R117). -/
  | invalidHexCharacter (position : Nat)
  /-- `InvalidHexLength` (R117, R120). -/
  | invalidHexLength
  /-- `InvalidBase32Character(char)` and, the spec's addition, its index (R123). -/
  | invalidBase32Character (char : Byte) (position : Nat)
  /-- `InputTooLong` (R119). -/
  | inputTooLong
  /-- `MalformedInput`, which can not occur (42_base32.md R99). -/
  | malformedInput
  /-- `InvalidPayloadLength` (R107). -/
  | invalidPayloadLength
  /-- `UnsupportedVersion` (R107). -/
  | unsupportedVersion
  /-- `InvalidChecksum` (R107). -/
  | invalidChecksum
  /-- `AlreadyStrKey` (R120). -/
  | alreadyStrKey
  deriving DecidableEq, Repr

/-- The error kind of R130 that a codec error is. -/
def CodecError.kind : CodecError → ErrorKind
  | .invalidHexCharacter _ => .invalidHexCharacter
  | .invalidHexLength => .invalidHexLength
  | .invalidBase32Character _ _ => .invalidBase32Character
  | .inputTooLong => .inputTooLong
  | .malformedInput => .malformedInput
  | .invalidPayloadLength => .invalidPayloadLength
  | .unsupportedVersion => .unsupportedVersion
  | .invalidChecksum => .invalidChecksum
  | .alreadyStrKey => .alreadyStrKey

/-- R123: what the host returns to its caller for the block's `ERR` and `EINFO`; `none` for `OK` and
for the codes 10 to 13, which only a wrong host program causes. -/
def codecErrorOf (err : BitVec 4) (einfo : Word) : Option CodecError :=
  if err = 3 then
    some (.invalidBase32Character (einfo.extractLsb' 0 8) (einfo.extractLsb' 8 8).toNat)
  else if err = 4 then some .inputTooLong
  else if err = 5 then some .malformedInput
  else if err = 6 then some .invalidPayloadLength
  else if err = 7 then some .unsupportedVersion
  else if err = 8 then some .invalidChecksum
  else none

/-! ### Characters -/

/-- The bytes of one character: itself in ASCII, its UTF-8 bytes, all at or above 0x80, outside
(R116; UTF-8 is one of the encodings R116 admits, log 14). -/
def charBytes (c : Char) : List Byte :=
  let n := c.toNat
  let tail (k : Nat) : Byte := BitVec.ofNat 8 (0x80 + (n >>> (6 * k)) % 0x40)
  if n < 0x80 then [BitVec.ofNat 8 n]
  else if n < 0x800 then [BitVec.ofNat 8 (0xC0 + n >>> 6), tail 0]
  else if n < 0x10000 then [BitVec.ofNat 8 (0xE0 + n >>> 12), tail 1, tail 0]
  else [BitVec.ofNat 8 (0xF0 + n >>> 18), tail 2, tail 1, tail 0]

/-- A text as the byte sequence the host works on (R116). -/
def textBytes (cs : List Char) : List Byte := cs.flatMap charBytes

/-! ### HexCodec -/

/-- A byte sequence without its leading and trailing bytes that are in `set` (R117). -/
def trimEnds (set : List Byte) (bs : List Byte) : List Byte :=
  ((bs.dropWhile (fun b => decide (b ∈ set))).reverse.dropWhile (fun b => decide (b ∈ set))).reverse

/-- `A` to `Z` gain 0x20, no other byte changes (R117). -/
def lowerByte (b : Byte) : Byte :=
  if 0x41 ≤ b.toNat ∧ b.toNat ≤ 0x5A then b + 0x20 else b

/-- `digit(c)` of R117 for `0` to `9` and `a` to `f`, `none` for every other byte. -/
def hexDigit (c : Byte) : Option Nat :=
  if 0x30 ≤ c.toNat ∧ c.toNat ≤ 0x39 then some (c.toNat - 0x30)
  else if 0x61 ≤ c.toNat ∧ c.toNat ≤ 0x66 then some (c.toNat - 0x61 + 10)
  else none

/-- The index, counted from `i`, of the first byte that is no hex digit. -/
def firstNonHex (i : Nat) : List Byte → Option Nat
  | [] => none
  | c :: cs => if (hexDigit c).isSome then firstNonHex (i + 1) cs else some i

/-- Pairs of hex digits as bytes, the first of a pair the high nibble (R117; PRESUMED, log 15). -/
def hexPairs : List Byte → List Byte
  | a :: b :: cs =>
    BitVec.ofNat 8 (16 * (hexDigit a).getD 0 + (hexDigit b).getD 0) :: hexPairs cs
  | _ => []

/-- `toBytes(hex)` (R117): trim, lower-case, odd length, bad character, pairs, in this order. -/
def toBytes (p : Config.Params) (hex : List Byte) : Except CodecError (List Byte) :=
  let t := (trimEnds p.hexTrimSet hex).map lowerByte
  if t.length % 2 = 1 then .error .invalidHexLength
  else
    match firstNonHex 0 t with
    | some i => .error (.invalidHexCharacter i)
    | none => .ok (hexPairs t)

/-- `HEX[v]`: the lower-case hex digit of a value below 16 (R118). -/
def hexChar (v : Nat) : Byte := BitVec.ofNat 8 (if v < 10 then 0x30 + v else 0x61 + (v - 10))

/-- `toHex(bytes)` (R118): two characters a byte, high nibble first (PRESUMED, log 15). -/
def toHex (bytes : List Byte) : List Byte :=
  bytes.flatMap fun b => [hexChar (b.toNat / 16), hexChar (b.toNat % 16)]

/-! ### Addresses -/

/-- `address_encode(h)` (R119), for 32 bytes. -/
def addressEncode (h : List Byte) : List Byte := b32Encode (payloadBuild h)

/-- The error `payload_parse` returns, as the host passes it on. -/
def parseError : ErrorKind → CodecError
  | .unsupportedVersion => .unsupportedVersion
  | .invalidChecksum => .invalidChecksum
  | _ => .invalidPayloadLength

/-- `address_decode(t)` (R119): the length bound, the decoder, the payload's three tests. -/
def addressDecode (p : Config.Params) (t : List Byte) : Except CodecError (List Byte) :=
  if p.b32MaxIn < t.length then .error .inputTooLong
  else
    match b32Decode p.accW t with
    | .error (.invalidCharacter char pos) => .error (.invalidBase32Character char pos)
    | .error .malformedInput => .error .malformedInput
    | .ok d =>
      match payloadParse d with
      | .error x => .error (parseError x)
      | .ok hash => .ok hash

/-- `decode(strKey)` (R122): the hash as 64 lower-case hex characters. -/
def codecDecode (p : Config.Params) (strKey : List Byte) : Except CodecError (List Byte) :=
  (addressDecode p strKey).map toHex

/-- `isValidContractAddress(value)` (R124): whether `decode` succeeds. -/
def isValidContractAddress (p : Config.Params) (value : List Byte) : Bool :=
  match codecDecode p value with
  | .ok _ => true
  | .error _ => false

/-- `encode(hex)` (R120): `AlreadyStrKey` first, on the input as given, then the hex text, then the
32-byte length. -/
def codecEncode (p : Config.Params) (hex : List Byte) : Except CodecError (List Byte) :=
  if isValidContractAddress p hex then .error .alreadyStrKey
  else
    match toBytes p hex with
    | .error e => .error e
    | .ok b => if b.length ≠ 32 then .error .invalidHexLength else .ok (addressEncode b)

/-! ### The reference command sequences of R121

`HostPrograms.lean` runs them on the block. -/

/-- Command words as the host presents them. -/
def commandWords (is : List Instr) : List HostInput := is.map fun i => .command (encode i)

/-- R121, encoding a hash: `CLR`, one `ST` a byte, `PAY.BUILD`, `MOVO`, `B32.ENC`, `LD 0` to
`LD 55`. -/
def encodeSequence (h : List Byte) : List Instr :=
  .clr :: h.map .st ++ [.payBuild, .movo, .b32Enc] ++
    (List.range 56).map fun i => .ld (BitVec.ofNat 8 i)

/-- R121, decoding a text of at most 256 bytes, up to `PAY.PARSE`, whose response tells the host how
it went. -/
def decodeSequence (t : List Byte) : List Instr :=
  .clr :: t.map .st ++ [.b32Dec, .movo, .payParse]

/-- R121, decoding a text, the reads the host issues only if `PAY.PARSE` answered 0x0000. -/
def readHashSequence : List Instr := (List.range 32).map fun i => .ld (BitVec.ofNat 8 i)

end Sys2Proof.Machine
end

