-- ==== Sys2Proof/Safety.lean ====
section
/-! DEFINITION. The terms claims are made in: the invariant of 10_state.md R22, what a program can
observe (R21), the bytes a command's operand holds, the states a run reaches, success and failure of
a program (60_exceptions.md R143). -/

namespace Sys2Proof.Machine

/-- The OK state (00_scope.md, glossary): no error recorded, no fatal flag. -/
abbrev State.Ok (s : State) : Prop := s.err = 0 ∧ s.ff = false

/-- The codes `ERR` can hold (R22): 0 and the codes the block writes. -/
abbrev LegalCode (e : BitVec 4) : Prop :=
  e ∈ ([0, 3, 4, 5, 6, 7, 8, 10, 11, 12, 13] : List (BitVec 4))

/-- R22's conditions on the registers. -/
abbrev State.RegistersLegal (s : State) : Prop :=
  s.ilen.toNat ≤ 256 ∧ s.olen.toNat ≤ 256 ∧ LegalCode s.err ∧ (s.ff = true ↔ s.err = 13) ∧
    (s.einfo ≠ 0 → s.err = 3)

/-- Every byte below the valid length has a value: the sense in which `IBUF[0..ILEN)` and
`OBUF[0..OLEN)` are the valid bytes (R13, R14, R31). -/
abbrev State.BuffersHeld (s : State) : Prop :=
  (∀ i < s.ilen.toNat, (s.ibuf.byteAt i).isSome) ∧ (∀ i < s.olen.toNat, (s.obuf.byteAt i).isSome)

/-- R99's bound on the working registers: `NB` below 8 and `ACC` below 2^`NB`. -/
abbrev State.WorkBounded (s : State) : Prop :=
  s.nb.toNat ≤ 7 ∧ s.acc.toNat < 2 ^ s.nb.toNat

/-- The invariant every step keeps. -/
abbrev State.Inv (s : State) : Prop :=
  s.RegistersLegal ∧ s.BuffersHeld ∧ s.WorkBounded ∧ s.ibuf.wf ∧ s.obuf.wf

/-- `IBUF[0..ILEN)` is the byte sequence `data`. -/
abbrev State.InputIs (s : State) (data : List Byte) : Prop :=
  s.ilen.toNat = data.length ∧ ∀ i < data.length, s.ibuf.byteAt i = data[i]?

/-- `OBUF[0..OLEN)` is the byte sequence `data`. -/
abbrev State.OutputIs (s : State) (data : List Byte) : Prop :=
  s.olen.toNat = data.length ∧ ∀ i < data.length, s.obuf.byteAt i = data[i]?

/-- What a program can observe of a state: the registers and the valid bytes of both buffers (R21);
neither bytes beyond the lengths nor `ACC` and `NB` (R20). -/
structure View where
  /-- `CRC`. -/
  crc : Word
  /-- `ILEN`. -/
  ilen : BitVec 9
  /-- `OLEN`. -/
  olen : BitVec 9
  /-- `ERR`. -/
  err : BitVec 4
  /-- `FF`. -/
  ff : Bool
  /-- `EINFO`. -/
  einfo : Word
  /-- `IBUF[0..ILEN)`. -/
  input : List (Option Byte)
  /-- `OBUF[0..OLEN)`. -/
  output : List (Option Byte)
  deriving DecidableEq, Repr

/-- The observable part of a state. -/
def State.view (s : State) : View where
  crc := s.crc
  ilen := s.ilen
  olen := s.olen
  err := s.err
  ff := s.ff
  einfo := s.einfo
  input := (List.range s.ilen.toNat).map s.ibuf.byteAt
  output := (List.range s.olen.toNat).map s.obuf.byteAt

/-- The commands the error-state rule does not skip (R138). -/
def Exempt : Instr → Bool
  | .nop | .clr | .clre | .rdrStatus | .rdrEinfo | .rdrCrc | .rdrIlen | .rdrOlen => true
  | .clri | .st _ | .ld _ | .movo | .crcInit | .crcByte _ | .crcBuf | .crcSum
  | .b32Enc | .b32Dec | .payBuild | .payParse => false

/-- `t` follows `s` by steps of the block. -/
inductive Follows : State → State → Prop where
  /-- No step. -/
  | refl (s : State) : Follows s s
  /-- One step more. -/
  | tail {s t u : State} : Follows s t → step t = .next u → Follows s u

/-- A state some run reaches: the host presents any finite list of inputs to the block after reset
(R170), and the block takes any number of them. -/
def Reachable (s : State) : Prop :=
  ∃ inputs : List HostInput, Follows { State.reset with inputs := inputs } s

/-- "The program succeeds": the final state has `ERR == 0` (R143). -/
abbrev Succeeds (s : State) : Prop := s.err = 0

/-- "The program reports kind X": the final state has `ERR == code(X)` (R143). -/
abbrev Reports (x : ErrorKind) (s : State) : Prop := s.err = x.code

/-- A safe state: its step is a next state, neither a fault nor a refusal (R59, R143). -/
def Safe (s : State) : Prop := ∃ t, step s = .next t

end Sys2Proof.Machine
end

