-- ==== Sys2Proof/Certificates/Slice0/Obligations.lean ====
section
/-! DEFINITION. The statements for the provers. Each names in its docstring the rule of spec/ it
formalises. Every statement about a command gives its next state as the old state with the fields
the rule writes, so the frame (all other fields, both buffers included) is part of it; where a
buffer is written, the statement says what every index reads as afterwards. -/

open Sys2Proof Sys2Proof.Machine

/-! ### Words -/

/-- Words of every family, written out from 30_encoding.md R49 (V60 of 95_test_vectors.md), decode to
the commands they stand for. -/
def Obligations.WordsWrittenFromTheMapDecode : Prop :=
  decode 0x0000#16 = .ok .nop ∧ decode 0x0443#16 = .ok (.st 0x43#8) ∧
  decode 0x0537#16 = .ok (.ld 55#8) ∧ decode 0x0600#16 = .ok .movo ∧
  decode 0x0703#16 = .ok .rdrIlen ∧ decode 0x11A5#16 = .ok (.crcByte 0xA5#8) ∧
  decode 0x1300#16 = .ok .crcSum ∧ decode 0x2100#16 = .ok .b32Dec ∧
  decode 0x3000#16 = .ok .payBuild ∧ decode 0x1301#16 = .error .nonzeroLowByte ∧
  decode 0x0705#16 = .error .reservedRegister ∧ decode 0x0800#16 = .error .reservedOpcode

/-- R49: a word is a command if and only if its masked bits equal the row's match, for each of the
twenty rows, with the operand in bits 7:0; 785 words are legal. -/
def Obligations.OpcodeMapDecidesEveryWord : Prop :=
  (∀ w : Word,
    (decode w = .ok .nop ↔ w &&& 0xFFFF#16 = 0x0000#16) ∧
    (decode w = .ok .clr ↔ w &&& 0xFFFF#16 = 0x0100#16) ∧
    (decode w = .ok .clre ↔ w &&& 0xFFFF#16 = 0x0200#16) ∧
    (decode w = .ok .clri ↔ w &&& 0xFFFF#16 = 0x0300#16) ∧
    (∀ b, decode w = .ok (.st b) ↔ w &&& 0xFF00#16 = 0x0400#16 ∧ b = w.extractLsb' 0 8) ∧
    (∀ b, decode w = .ok (.ld b) ↔ w &&& 0xFF00#16 = 0x0500#16 ∧ b = w.extractLsb' 0 8) ∧
    (decode w = .ok .movo ↔ w &&& 0xFFFF#16 = 0x0600#16) ∧
    (decode w = .ok .rdrStatus ↔ w &&& 0xFFFF#16 = 0x0700#16) ∧
    (decode w = .ok .rdrEinfo ↔ w &&& 0xFFFF#16 = 0x0701#16) ∧
    (decode w = .ok .rdrCrc ↔ w &&& 0xFFFF#16 = 0x0702#16) ∧
    (decode w = .ok .rdrIlen ↔ w &&& 0xFFFF#16 = 0x0703#16) ∧
    (decode w = .ok .rdrOlen ↔ w &&& 0xFFFF#16 = 0x0704#16) ∧
    (decode w = .ok .crcInit ↔ w &&& 0xFFFF#16 = 0x1000#16) ∧
    (∀ b, decode w = .ok (.crcByte b) ↔ w &&& 0xFF00#16 = 0x1100#16 ∧ b = w.extractLsb' 0 8) ∧
    (decode w = .ok .crcBuf ↔ w &&& 0xFFFF#16 = 0x1200#16) ∧
    (decode w = .ok .crcSum ↔ w &&& 0xFFFF#16 = 0x1300#16) ∧
    (decode w = .ok .b32Enc ↔ w &&& 0xFFFF#16 = 0x2000#16) ∧
    (decode w = .ok .b32Dec ↔ w &&& 0xFFFF#16 = 0x2100#16) ∧
    (decode w = .ok .payBuild ↔ w &&& 0xFFFF#16 = 0x3000#16) ∧
    (decode w = .ok .payParse ↔ w &&& 0xFFFF#16 = 0x3100#16)) ∧
  ∃ legal : List Word, legal.length = 785 ∧ legal.Nodup ∧
    ∀ w : Word, w ∈ legal ↔ ∃ i, decode w = .ok i

/-- R50: `decode(encode(c)) == c` for every command, `encode(decode(w)) == w` for every legal word;
every command's word is well formed, and the legal words are exactly the well-formed fields. -/
def Obligations.DecodeAndEncodeAreInverse : Prop :=
  (∀ i : Instr, i.WellFormed = true → decode (encode i) = .ok i) ∧
  (∀ (w : Word) (i : Instr), decode w = .ok i → i.WellFormed = true ∧ encode i = w) ∧
  (∀ w : Word, (∃ i, decode w = .ok i) ↔ (fieldsOf w).WellFormed = true)

/-- R55 with R135: the three kinds of illegal word, and what each does: in the OK state `E_ILLCMD`
and nothing else, in an error state it is skipped. -/
def Obligations.IllegalWordsRaiseOrAreSkipped : Prop :=
  (∀ w : Word,
    (decode w = .error .reservedOpcode ↔
      (0x08 ≤ w.toNat / 256 ∧ w.toNat / 256 ≤ 0x0F) ∨ (0x14 ≤ w.toNat / 256 ∧ w.toNat / 256 ≤ 0x1F) ∨
      (0x22 ≤ w.toNat / 256 ∧ w.toNat / 256 ≤ 0x2F) ∨ 0x32 ≤ w.toNat / 256) ∧
    (decode w = .error .nonzeroLowByte ↔
      w.toNat % 256 ≠ 0 ∧
        w.toNat / 256 ∈ [0x00, 0x01, 0x02, 0x03, 0x06, 0x10, 0x12, 0x13, 0x20, 0x21, 0x30, 0x31]) ∧
    (decode w = .error .reservedRegister ↔ w.toNat / 256 = 0x07 ∧ 5 ≤ w.toNat % 256)) ∧
  ∀ (w : Word) (k : Illegal) (s : State), decode w = .error k →
    (s.Ok → runWord w s =
      .next { s with err := 12, einfo := 0, responses := s.responses ++ [0x800C#16] }) ∧
    (s.err ≠ 0 → runWord w s = .next { s with responses := s.responses ++ [status s] })

/-! ### The step -/

/-- R60: with a command word at the head of the host's inputs, one step takes it and is the execution
of the decoded command on the rest; in an error state every command but `NOP`, `CLR`, `CLRE` and
`RDR`, and every illegal word, is skipped; in the OK state an illegal word raises `E_ILLCMD`. -/
def Obligations.StepRunsTheDecodedCommand : Prop :=
  ∀ (s : State) (w : Word) (rest : List HostInput), s.inputs = .command w :: rest →
    (∀ i, decode w = .ok i → step s = exec i { s with inputs := rest }) ∧
    (∀ i, decode w = .ok i → s.err ≠ 0 → Exempt i = false →
      step s = .next { s with inputs := rest, responses := s.responses ++ [status s] }) ∧
    (∀ k, decode w = .error k → s.err ≠ 0 →
      step s = .next { s with inputs := rest, responses := s.responses ++ [status s] }) ∧
    (∀ k, decode w = .error k → s.Ok →
      step s = .next { s with
        inputs := rest, err := 12, einfo := 0, responses := s.responses ++ [0x800C#16] })

/-- R46: every command gives exactly one response, and which one: the five cases in their order, and
an illegal word's. -/
def Obligations.ResponseWordOfEveryCommand : Prop :=
  (∀ (i : Instr) (s t : State), exec i s = .next t → ∃ r : Word,
    t.responses = s.responses ++ [r] ∧
    (s.err ≠ 0 → Exempt i = false → r = status s ∧ r.msb = true) ∧
    (s.err = 0 → t.err ≠ 0 → r = status t ∧ r.msb = true) ∧
    (∀ imm, i = .ld imm → s.err = 0 → t.err = 0 →
      ∃ b : Byte, s.obuf.byteAt imm.toNat = some b ∧ r = b.zeroExtend 16 ∧ r.msb = false) ∧
    (i = .rdrStatus → r = status s) ∧ (i = .rdrEinfo → r = s.einfo) ∧ (i = .rdrCrc → r = s.crc) ∧
    (i = .rdrIlen → r = s.ilen.zeroExtend 16) ∧ (i = .rdrOlen → r = s.olen.zeroExtend 16) ∧
    ((∀ imm, i ≠ .ld imm) → i ≠ .rdrEinfo → i ≠ .rdrCrc → i ≠ .rdrIlen → i ≠ .rdrOlen →
      r = status t ∧ (t.Ok → r = 0x0000#16))) ∧
  ∀ (w : Word) (k : Illegal) (s t : State), decode w = .error k → runWord w s = .next t →
    t.responses = s.responses ++ [status t] ∧ (status t).msb = true

/-- R18: the bits of `STATUS`, and its value in the OK, the recoverable and the fatal state. -/
def Obligations.StatusIsTheViewOfErrAndFf : Prop :=
  ∀ s : State,
    ((status s).getLsbD 15 = true ↔ s.err ≠ 0) ∧ (status s).getLsbD 14 = s.ff ∧
    (∀ k, 4 ≤ k → k ≤ 13 → (status s).getLsbD k = false) ∧ (status s).extractLsb' 0 4 = s.err ∧
    (s.Ok → status s = 0x0000#16) ∧
    (s.err ≠ 0 → s.ff = false → status s = 0x8000#16 + s.err.zeroExtend 16) ∧
    (s.err = 13 → s.ff = true → status s = 0xC00D#16)

/-- R24: after a hardware reset and equally after `CLR` every register the rule names is 0 and
`STATUS` is 0x0000; `CLR` leaves the buffer contents unchanged; the two states agree in everything a
program can observe (R156). -/
def Obligations.ResetAndClrLeaveTheResetState : Prop :=
  let zero : State → Prop := fun s =>
    s.crc = 0 ∧ s.ilen = 0 ∧ s.olen = 0 ∧ s.err = 0 ∧ s.ff = false ∧ s.einfo = 0 ∧
      status s = 0x0000#16
  zero State.reset ∧
  ∀ s : State, zero (hardwareReset s) ∧
    ∃ t, exec .clr s = .next t ∧ zero t ∧ t.ibuf = s.ibuf ∧ t.obuf = s.obuf ∧
      t.view = (hardwareReset s).view ∧ t.view = State.reset.view

/-- R155, with the model's choice that the reset is an element of the host's inputs and gives no
response (log 9): from any state, the fatal state included, one step on it observes as the reset
state, with the rest of the inputs pending. -/
def Obligations.HardwareResetStepFromAnyState : Prop :=
  ∀ (s : State) (rest : List HostInput), s.inputs = .reset :: rest →
    ∃ t, step s = .next t ∧ t.view = State.reset.view ∧ t.inputs = rest ∧
      t.responses = s.responses

/-! ### Buffer and system commands -/

/-- R62. -/
def Obligations.NopReturnsStatusAndChangesNothing : Prop :=
  decode 0x0000#16 = .ok .nop ∧
  ∀ s : State, exec .nop s = .next { s with responses := s.responses ++ [status s] }

/-- R61. -/
def Obligations.ClrZeroesEveryRegister : Prop :=
  decode 0x0100#16 = .ok .clr ∧
  ∀ s : State, exec .clr s = .next { s with
    crc := 0, ilen := 0, olen := 0, err := 0, ff := false, einfo := 0,
    responses := s.responses ++ [0x0000#16] }

/-- R63: `ERR` and `EINFO` are cleared if `FF` is 0; in the fatal state nothing changes and the
response is `STATUS`, 0xC00D. -/
def Obligations.ClreClearsARecoverableError : Prop :=
  decode 0x0200#16 = .ok .clre ∧
  ∀ s : State,
    (s.ff = false → exec .clre s = .next { s with
      err := 0, einfo := 0, responses := s.responses ++ [0x0000#16] }) ∧
    (s.ff = true → exec .clre s = .next { s with responses := s.responses ++ [status s] }) ∧
    (s.ff = true → s.err = 13 → status s = 0xC00D#16)

/-- R64. -/
def Obligations.ClriEmptiesTheInputBuffer : Prop :=
  decode 0x0300#16 = .ok .clri ∧
  ∀ s : State,
    (s.Ok → exec .clri s = .next { s with ilen := 0, responses := s.responses ++ [0x0000#16] }) ∧
    (s.err ≠ 0 → exec .clri s = .next { s with responses := s.responses ++ [status s] })

/-- R68: each of the five registers, in every state; a register number from 5 to 255 is an illegal
word. -/
def Obligations.RdrReadsTheFiveRegisters : Prop :=
  (decode 0x0700#16 = .ok .rdrStatus ∧ decode 0x0701#16 = .ok .rdrEinfo ∧
    decode 0x0702#16 = .ok .rdrCrc ∧ decode 0x0703#16 = .ok .rdrIlen ∧
    decode 0x0704#16 = .ok .rdrOlen ∧
    ∀ r : Byte, 5 ≤ r.toNat → decode (0x07#8 ++ r) = .error .reservedRegister) ∧
  ∀ s : State,
    exec .rdrStatus s = .next { s with responses := s.responses ++ [status s] } ∧
    exec .rdrEinfo s = .next { s with responses := s.responses ++ [s.einfo] } ∧
    exec .rdrCrc s = .next { s with responses := s.responses ++ [s.crc] } ∧
    exec .rdrIlen s = .next { s with responses := s.responses ++ [s.ilen.zeroExtend 16] } ∧
    exec .rdrOlen s = .next { s with responses := s.responses ++ [s.olen.zeroExtend 16] }

/-- R65: the byte is stored at index `ILEN`, `ILEN` grows by one, every other index of `IBUF` reads
as before; `E_CAP` when the buffer holds 256 bytes; skipped in an error state. -/
def Obligations.StAppendsOneByte : Prop :=
  ∀ (imm : Byte) (s : State), decode (0x04#8 ++ imm) = .ok (.st imm) ∧
    (s.Ok → s.ilen.toNat < 256 → ∃ t, exec (.st imm) s = .next t ∧
      t = { s with
        ibuf := t.ibuf, ilen := t.ilen, responses := s.responses ++ [0x0000#16] } ∧
      t.ilen.toNat = s.ilen.toNat + 1 ∧ t.ibuf.byteAt s.ilen.toNat = some imm ∧
      ∀ j, j ≠ s.ilen.toNat → t.ibuf.byteAt j = s.ibuf.byteAt j) ∧
    (s.Ok → s.ilen.toNat = 256 → exec (.st imm) s = .next { s with
      err := 10, einfo := 0, responses := s.responses ++ [0x800A#16] }) ∧
    (s.err ≠ 0 → exec (.st imm) s = .next { s with responses := s.responses ++ [status s] })

/-- R66: the byte, zero-extended, is the response and nothing else changes; `E_RANGE` for an index at
or beyond `OLEN`; skipped in an error state. -/
def Obligations.LdReadsOneOutputByte : Prop :=
  ∀ (imm : Byte) (s : State), decode (0x05#8 ++ imm) = .ok (.ld imm) ∧
    (∀ b : Byte, s.Ok → imm.toNat < s.olen.toNat → s.obuf.byteAt imm.toNat = some b →
      exec (.ld imm) s = .next { s with responses := s.responses ++ [b.zeroExtend 16] }) ∧
    (s.Ok → s.olen.toNat ≤ imm.toNat → exec (.ld imm) s = .next { s with
      err := 11, einfo := 0, responses := s.responses ++ [0x800B#16] }) ∧
    (s.err ≠ 0 → exec (.ld imm) s = .next { s with responses := s.responses ++ [status s] })

/-- R67: `OBUF[0..OLEN)` replaces the valid content of `IBUF`, `ILEN` becomes `OLEN`; indices at and
beyond `OLEN` are not written; skipped in an error state. -/
def Obligations.MovoCopiesTheOutputToTheInput : Prop :=
  decode 0x0600#16 = .ok .movo ∧
  ∀ s : State,
    (∀ data, s.Ok → s.OutputIs data → data.length ≤ 256 → ∃ t, exec .movo s = .next t ∧
      t = { s with
        ibuf := t.ibuf, ilen := s.olen, responses := s.responses ++ [0x0000#16] } ∧
      t.InputIs data ∧ ∀ j, s.olen.toNat ≤ j → t.ibuf.byteAt j = s.ibuf.byteAt j) ∧
    (s.err ≠ 0 → exec .movo s = .next { s with responses := s.responses ++ [status s] })

/-! ### CRC commands -/

/-- R82. -/
def Obligations.CrcInitZeroesTheRegister : Prop :=
  decode 0x1000#16 = .ok .crcInit ∧
  ∀ s : State,
    (s.Ok → exec .crcInit s = .next { s with crc := 0, responses := s.responses ++ [0x0000#16] }) ∧
    (s.err ≠ 0 → exec .crcInit s = .next { s with responses := s.responses ++ [status s] })

/-- R83. -/
def Obligations.CrcByteFeedsOneByte : Prop :=
  ∀ (imm : Byte) (s : State), decode (0x11#8 ++ imm) = .ok (.crcByte imm) ∧
    (s.Ok → exec (.crcByte imm) s = .next { s with
      crc := crcUpdate s.crc imm, responses := s.responses ++ [0x0000#16] }) ∧
    (s.err ≠ 0 → exec (.crcByte imm) s = .next { s with responses := s.responses ++ [status s] })

/-- R84: the fold of `crc_update` over `IBUF[0..ILEN)`, index 0 first, from the current register. -/
def Obligations.CrcBufFeedsTheInputBuffer : Prop :=
  decode 0x1200#16 = .ok .crcBuf ∧
  ∀ s : State,
    (∀ data, s.Ok → s.InputIs data → exec .crcBuf s = .next { s with
      crc := data.foldl crcUpdate s.crc, responses := s.responses ++ [0x0000#16] }) ∧
    (s.err ≠ 0 → exec .crcBuf s = .next { s with responses := s.responses ++ [status s] })

/-- R85: the fold from 0x0000 whatever `CRC` was; the same effect as `CRC.INIT` then `CRC.BUF`. -/
def Obligations.CrcSumIsTheChecksumOfTheInput : Prop :=
  decode 0x1300#16 = .ok .crcSum ∧
  ∀ s : State,
    (∀ data, s.Ok → s.InputIs data →
      exec .crcSum s = .next { s with
        crc := data.foldl crcUpdate 0x0000#16, responses := s.responses ++ [0x0000#16] } ∧
      ∃ t u v, exec .crcInit s = .next t ∧ exec .crcBuf t = .next u ∧ exec .crcSum s = .next v ∧
        u = { v with responses := u.responses }) ∧
    (s.err ≠ 0 → exec .crcSum s = .next { s with responses := s.responses ++ [status s] })

/-! ### B32 commands -/

/-- R97: the encoded text replaces the valid content of `OBUF` and `OLEN` is ceil(`ILEN` × 8 / 5);
indices beyond it read as before; `E_CAP` above 160; skipped in an error state. `ACC` and `NB`, the
unit's hidden working registers, may take any value (R20). -/
def Obligations.B32EncEncodesTheInput : Prop :=
  decode 0x2000#16 = .ok .b32Enc ∧
  ∀ s : State,
    (∀ data, s.Ok → s.InputIs data → data.length ≤ 160 → ∃ t, exec .b32Enc s = .next t ∧
      t = { s with
        obuf := t.obuf, olen := t.olen, acc := t.acc, nb := t.nb,
        responses := s.responses ++ [0x0000#16] } ∧
      t.OutputIs (b32Encode data) ∧ t.olen.toNat = (s.ilen.toNat * 8 + 4) / 5 ∧
      ∀ j, t.olen.toNat ≤ j → t.obuf.byteAt j = s.obuf.byteAt j) ∧
    (s.Ok → 160 < s.ilen.toNat → ∃ t, exec .b32Enc s = .next t ∧
      t = { s with
        err := 10, einfo := 0, acc := t.acc, nb := t.nb,
        responses := s.responses ++ [0x800A#16] }) ∧
    (s.err ≠ 0 → exec .b32Enc s = .next { s with responses := s.responses ++ [status s] })

/-- R98 at the default `B32_MAX_IN` of 128, which is the model's choice (log 7): `InputTooLong` above
128 before any character is looked at, else the decoder's bytes in `OBUF` with
`OLEN` = floor(`ILEN` × 5 / 8), or `InvalidBase32Character` with {`pos`, `char`} in `EINFO` and no
buffer written; skipped in an error state. -/
def Obligations.B32DecDecodesTheInput : Prop :=
  decode 0x2100#16 = .ok .b32Dec ∧
  ∀ s : State,
    (s.Ok → 128 < s.ilen.toNat → ∃ t, exec .b32Dec s = .next t ∧
      t = { s with
        err := 4, einfo := 0, acc := t.acc, nb := t.nb,
        responses := s.responses ++ [0x8004#16] }) ∧
    (∀ text out, s.Ok → s.InputIs text → text.length ≤ 128 → b32Decode 12 text = .ok out →
      ∃ t, exec .b32Dec s = .next t ∧
      t = { s with
        obuf := t.obuf, olen := t.olen, acc := t.acc, nb := t.nb,
        responses := s.responses ++ [0x0000#16] } ∧
      t.OutputIs out ∧ t.olen.toNat = s.ilen.toNat * 5 / 8 ∧
      ∀ j, t.olen.toNat ≤ j → t.obuf.byteAt j = s.obuf.byteAt j) ∧
    (∀ text char pos, s.Ok → s.InputIs text → text.length ≤ 128 →
      b32Decode 12 text = .error (.invalidCharacter char pos) →
      ∃ t, exec .b32Dec s = .next t ∧
      t = { s with
        err := 3, einfo := BitVec.ofNat 8 pos ++ char, acc := t.acc, nb := t.nb,
        responses := s.responses ++ [0x8003#16] }) ∧
    (∀ text : List Byte, b32Decode 12 text ≠ .error .malformedInput) ∧
    (s.err ≠ 0 → exec .b32Dec s = .next { s with responses := s.responses ++ [status s] })

/-- R98 for every conforming block, with `B32_MAX_IN` the block's own (R7, D9): the length test before
any character is looked at, the decoder's bytes, the bad character, the skip; on an input of at most
58 characters every conforming block does what the modelled one does. -/
def Obligations.B32DecOnEveryConformingBlock : Prop :=
  ∀ p : Config.Params, p.Conforming → ∀ s : State,
    (s.ilen.toNat ≤ 58 → b32DecWith p s = exec .b32Dec s) ∧
    (s.Ok → p.b32MaxIn < s.ilen.toNat → ∃ t, b32DecWith p s = .next t ∧
      t = { s with
        err := 4, einfo := 0, acc := t.acc, nb := t.nb,
        responses := s.responses ++ [0x8004#16] }) ∧
    (∀ text out, s.Ok → s.InputIs text → text.length ≤ p.b32MaxIn →
      b32Decode p.accW text = .ok out → ∃ t, b32DecWith p s = .next t ∧
      t = { s with
        obuf := t.obuf, olen := t.olen, acc := t.acc, nb := t.nb,
        responses := s.responses ++ [0x0000#16] } ∧
      t.OutputIs out ∧ t.olen.toNat = s.ilen.toNat * 5 / 8 ∧
      ∀ j, t.olen.toNat ≤ j → t.obuf.byteAt j = s.obuf.byteAt j) ∧
    (∀ text char pos, s.Ok → s.InputIs text → text.length ≤ p.b32MaxIn →
      b32Decode p.accW text = .error (.invalidCharacter char pos) →
      ∃ t, b32DecWith p s = .next t ∧
      t = { s with
        err := 3, einfo := BitVec.ofNat 8 pos ++ char, acc := t.acc, nb := t.nb,
        responses := s.responses ++ [0x8003#16] }) ∧
    (∀ text : List Byte, b32Decode p.accW text ≠ .error .malformedInput) ∧
    (s.err ≠ 0 → b32DecWith p s = .next { s with responses := s.responses ++ [status s] })

/-! ### PAY commands -/

/-- R108: the payload replaces the valid content of `OBUF`, `OLEN` is 35, `CRC` is untouched; any
length but 32 raises `E_PRECOND`, sets `FF` and changes nothing else; skipped in an error state. -/
def Obligations.PayBuildMarshalsThePayload : Prop :=
  decode 0x3000#16 = .ok .payBuild ∧
  ∀ s : State,
    (∀ hash, s.Ok → s.InputIs hash → hash.length = 32 → ∃ t, exec .payBuild s = .next t ∧
      t = { s with
        obuf := t.obuf, olen := 35, responses := s.responses ++ [0x0000#16] } ∧
      t.OutputIs (payloadBuild hash) ∧ ∀ j, 35 ≤ j → t.obuf.byteAt j = s.obuf.byteAt j) ∧
    (s.Ok → s.ilen.toNat ≠ 32 → exec .payBuild s = .next { s with
      err := 13, ff := true, einfo := 0, responses := s.responses ++ [0xC00D#16] }) ∧
    (s.err ≠ 0 → exec .payBuild s = .next { s with responses := s.responses ++ [status s] })

/-- R109: the three errors in their order, else the hash replaces the valid content of `OBUF`,
`OLEN` is 32 and `IBUF` keeps the payload; skipped in an error state. -/
def Obligations.PayParseValidatesThePayload : Prop :=
  decode 0x3100#16 = .ok .payParse ∧
  ∀ s : State,
    (∀ p, s.Ok → s.InputIs p → p.length ≠ 35 → exec .payParse s = .next { s with
      err := 6, einfo := 0, responses := s.responses ++ [0x8006#16] }) ∧
    (∀ p, s.Ok → s.InputIs p → p.length = 35 → p[0]? ≠ some 0x10#8 →
      exec .payParse s = .next { s with
        err := 7, einfo := 0, responses := s.responses ++ [0x8007#16] }) ∧
    (∀ p lo hi, s.Ok → s.InputIs p → p.length = 35 → p[0]? = some 0x10#8 → p[33]? = some lo →
      p[34]? = some hi → (p.take 33).foldl crcUpdate 0x0000#16 ≠ hi ++ lo →
      exec .payParse s = .next { s with
        err := 8, einfo := 0, responses := s.responses ++ [0x8008#16] }) ∧
    (∀ p lo hi, s.Ok → s.InputIs p → p.length = 35 → p[0]? = some 0x10#8 → p[33]? = some lo →
      p[34]? = some hi → (p.take 33).foldl crcUpdate 0x0000#16 = hi ++ lo →
      ∃ t, exec .payParse s = .next t ∧
        t = { s with
          obuf := t.obuf, olen := 32, responses := s.responses ++ [0x0000#16] } ∧
        (∀ i, i < 32 → t.obuf.byteAt i = s.ibuf.byteAt (1 + i)) ∧
        ∀ j, 32 ≤ j → t.obuf.byteAt j = s.obuf.byteAt j) ∧
    (s.err ≠ 0 → exec .payParse s = .next { s with responses := s.responses ++ [status s] })

/-! ### Errors -/

/-- R136: `raise` writes `ERR`, `FF` and `EINFO` and nothing else, and the response is the new
`STATUS`. -/
def Obligations.RaiseWritesTheErrorRegisters : Prop :=
  ∀ (x : ErrorKind) (info : Word) (s : State), s.Ok →
    raise x info s = .next { s with
      err := x.code, ff := decide (x = .ePrecond),
      einfo := if x = .invalidBase32Character then info else 0,
      responses := s.responses ++
        [if x = .ePrecond then 0xC00D#16 else 0x8000#16 + x.code.zeroExtend 16] }

/-- R137: a command that raises leaves `CRC`, `IBUF`, `ILEN`, `OBUF` and `OLEN` as they were, and
after `CLRE` the observable state is the state before the failing command. -/
def Obligations.ErrorsArePrecise : Prop :=
  ∀ (i : Instr) (s t : State), s.Ok → exec i s = .next t → t.err ≠ 0 →
    t.crc = s.crc ∧ t.ibuf = s.ibuf ∧ t.ilen = s.ilen ∧ t.obuf = s.obuf ∧ t.olen = s.olen ∧
    (t.ff = false → s.einfo = 0 → ∃ u, exec .clre t = .next u ∧ u.view = s.view)

/-- R138: while `ERR != 0` every command word other than `NOP`, `CLR`, `CLRE` and a legal `RDR`,
illegal words included, changes no state and answers `STATUS`, whose bit 15 is set. -/
def Obligations.ErrorStateSkipsEveryOtherCommand : Prop :=
  ∀ (w : Word) (s : State), s.err ≠ 0 →
    w ∉ [0x0000#16, 0x0100#16, 0x0200#16, 0x0700#16, 0x0701#16, 0x0702#16, 0x0703#16, 0x0704#16] →
    runWord w s = .next { s with responses := s.responses ++ [status s] } ∧ (status s).msb = true

/-- R131 as an upper bound: from the OK state a command ends in an error only with the codes the
table lists for it (code 5 included in none), an illegal word with 12. -/
def Obligations.CommandsRaiseOnlyTheirCodes : Prop :=
  (∀ (i : Instr) (s t : State), s.err = 0 → exec i s = .next t →
    t.err ∈ (match i with
      | .st _ => [0, 10]
      | .ld _ => [0, 11]
      | .b32Enc => [0, 10]
      | .b32Dec => [0, 4, 3]
      | .payBuild => [0, 13]
      | .payParse => [0, 6, 7, 8]
      | _ => [0] : List (BitVec 4))) ∧
  ∀ (w : Word) (k : Illegal) (s t : State), s.err = 0 → decode w = .error k →
    runWord w s = .next t → t.err = 12

/-- R141 (with R15): a recorded error is never replaced; it stays until `CLR`, or `CLRE` outside the
fatal state, sets `ERR` to 0, and a hardware reset clears it. -/
def Obligations.FirstErrorStaysUntilCleared : Prop :=
  (∀ (w : Word) (s t : State), s.err ≠ 0 → runWord w s = .next t →
    (t.err = s.err ∧ t.ff = s.ff ∧ t.einfo = s.einfo) ∨
    (t.Ok ∧ t.einfo = 0 ∧ (w = 0x0100#16 ∨ (w = 0x0200#16 ∧ s.ff = false)))) ∧
  ∀ s t : State, runInput .reset s = .next t → t.Ok ∧ t.einfo = 0

/-- R142: the fatal state is entered only by `PAY.BUILD` with `ILEN != 32`; in it no word but `CLR`
changes anything observable and `STATUS` is 0xC00D; `CLR` and a hardware reset leave it. -/
def Obligations.FatalStateOnlyByBuildAndLeftOnlyByClear : Prop :=
  (∀ (w : Word) (s t : State), s.ff = false → runWord w s = .next t → t.ff = true →
    w = 0x3000#16 ∧ s.err = 0 ∧ s.ilen.toNat ≠ 32 ∧ t.err = 13 ∧ status t = 0xC00D#16) ∧
  (∀ (w : Word) (s t : State), s.ff = true → s.err = 13 → runWord w s = .next t →
    (w ≠ 0x0100#16 → t.view = s.view ∧ status t = 0xC00D#16) ∧ (w = 0x0100#16 → t.Ok)) ∧
  ∀ s t : State, runInput .reset s = .next t → t.Ok

/-! ### Invariants and totality -/

/-- R22, for every state any run from reset reaches, whatever the host presents. -/
def Obligations.EveryReachableStateIsLegal : Prop :=
  ∀ s : State, Reachable s →
    s.ilen.toNat ≤ 256 ∧ s.olen.toNat ≤ 256 ∧
    s.err ∈ ([0, 3, 4, 5, 6, 7, 8, 10, 11, 12, 13] : List (BitVec 4)) ∧
    (s.ff = true ↔ s.err = 13) ∧ (s.einfo ≠ 0 → s.err = 3)

/-- The invariant as an invariant: every step from EVERY state that has it keeps it. Beside R22 it
says that both memories are in canonical form, that every byte below the lengths has a value (the
model's choice for unwritten bytes, log 4) and R99's bound on the working registers (log 6). -/
def Obligations.EveryStepKeepsTheInvariant : Prop :=
  ∀ s t : State, s.Inv → step s = .next t → t.Inv

/-- The state after reset has the invariant, with any inputs pending. The registers are R24's; that
`ACC` and `NB` are 0 (log 6) and that neither buffer lists a byte (log 4) is the model's choice, and
the clauses on the working registers and the memories rest on it. -/
def Obligations.ResetMeetsTheInvariant : Prop :=
  ∀ inputs : List HostInput, ({ State.reset with inputs := inputs } : State).Inv

/-- R59 and R143, under the invariant (whose clause on unwritten bytes is the model's, log 4): the
step is total. No word is stuck, faults or is refused, each gives exactly one response, and what the
host has still to present is not touched. -/
def Obligations.EveryWordAnswersUnderTheInvariant : Prop :=
  ∀ s : State, s.Inv →
    (∀ w : Word, ∃ t r, runWord w s = .next t ∧ t.responses = s.responses ++ [r] ∧
      t.inputs = s.inputs) ∧
    Safe s

/-- R21, R20: two states that observe alike stay alike on every input of the host and give the same
responses: neither bytes beyond the lengths nor `ACC` and `NB` can be observed. -/
def Obligations.HiddenBytesAndRegistersAreUnobservable : Prop :=
  ∀ (x : HostInput) (s s' t : State), s.Inv → s'.Inv → s.view = s'.view →
    runInput x s = .next t →
    ∃ t' rs, runInput x s' = .next t' ∧ t.view = t'.view ∧
      t.responses = s.responses ++ rs ∧ t'.responses = s'.responses ++ rs

/-- R26: from the OK state, what `CRC.SUM`, `B32.ENC`, `B32.DEC`, `PAY.BUILD` and `PAY.PARSE` write
is a function of `IBUF[0..ILEN)` alone. -/
def Obligations.UnitResultsDependOnTheInputAlone : Prop :=
  ∀ i ∈ [Instr.crcSum, .b32Enc, .b32Dec, .payBuild, .payParse],
  ∀ (s s' t t' : State) (data : List Byte), s.Ok → s'.Ok → s.InputIs data → s'.InputIs data →
    exec i s = .next t → exec i s' = .next t' →
    t.err = t'.err ∧ t.ff = t'.ff ∧ (t.err ≠ 0 → t.einfo = t'.einfo) ∧
    (i = .crcSum → t.crc = t'.crc) ∧
    (i ≠ .crcSum → t.err = 0 → ∃ out, t.OutputIs out ∧ t'.OutputIs out)

/-- R31, R30, R40: a byte written is the byte read, no other byte of either buffer changes, the
primitives are defined exactly where R31 says (a read also needs a value there, log 4). -/
def Obligations.BufferAccessesReadWhatWasWritten : Prop :=
  ∀ (sp : Space) (i : Nat) (b : Byte) (s : State),
    (i < 256 → ∃ t, memWrite sp i b s = .ok t ∧
      (i < (lenOf sp t).toNat → memRead sp i t = .ok b) ∧
      (∀ sp' j, (sp', j) ≠ (sp, i) → memRead sp' j t = memRead sp' j s) ∧
      ((memOf sp s).wf → (memOf sp t).wf)) ∧
    (256 ≤ i → memWrite sp i b s = .error (.writeUndefined sp i)) ∧
    ((lenOf sp s).toNat ≤ i → memRead sp i s = .error (.readUndefined sp i))

/-! ### The CRC function -/

/-- R87: one round as a shift register, bit by bit, and a byte as the XOR into bits 15:8 and eight
such rounds. -/
def Obligations.CrcRoundIsTheShiftRegister : Prop :=
  (∀ (c : Word) (k : Nat), k < 16 → (crcRound c).getLsbD k =
    if k = 0 then c.getLsbD 15
    else if k = 5 then (c.getLsbD 4).xor (c.getLsbD 15)
    else if k = 12 then (c.getLsbD 11).xor (c.getLsbD 15)
    else c.getLsbD (k - 1)) ∧
  (∀ c : Word, crcRound c = crcRoundShiftRegister c) ∧
  ∀ (c : Word) (b : Byte), crcUpdate c b = crcRoundShiftRegister^[8] (c ^^^ (b ++ 0x00#8))

/-- R86: for a fixed byte the step is a bijection, and it is linear. -/
def Obligations.CrcUpdateIsBijectiveAndLinear : Prop :=
  (∀ b : Byte, Function.Bijective fun c : Word => crcUpdate c b) ∧
  ∀ (c : Word) (b : Byte), crcUpdate c b = crcUpdate c 0x00#8 ^^^ crcUpdate 0x0000#16 b

/-- R88 items 1 to 4: streaming, leading zeros, linearity, residue. -/
def Obligations.ChecksumLaws : Prop :=
  (∀ a b : List Byte, checksum (a ++ b) = b.foldl crcUpdate (checksum a)) ∧
  (∀ d : List Byte, checksum (0x00#8 :: d) = checksum d) ∧
  (∀ a b : List Byte, a.length = b.length →
    checksum (List.zipWith (· ^^^ ·) a b) = checksum a ^^^ checksum b) ∧
  ∀ d : List Byte,
    checksum (d ++ [(checksum d).extractLsb' 8 8, (checksum d).extractLsb' 0 8]) = 0x0000#16

/-- R88 item 5: sequences of equal length that differ in exactly one bit have different checksums. -/
def Obligations.ChecksumDetectsEverySingleBitError : Prop :=
  ∀ (a c : List Byte) (b : Byte) (k : Nat), k < 8 →
    checksum (a ++ (b ^^^ 1#8 <<< k) :: c) ≠ checksum (a ++ b :: c)

/-! ### The base-32 functions -/

/-- R90, R91, R92: the closed form of the alphabet, the inverse lookup, and `upcase`. -/
def Obligations.AlphabetAndInverse : Prop :=
  (∀ v, v < 32 → (b32Alpha v).toNat = if v ≤ 25 then 0x41 + v else 0x32 + (v - 26)) ∧
  (∀ v, v < 32 → b32Inv (b32Alpha v) = some v) ∧
  (∀ (u : Byte) (v : Nat), b32Inv u = some v → v < 32 ∧ b32Alpha v = u) ∧
  (∀ u : Byte, b32Inv u = none ↔
    ¬(0x41 ≤ u.toNat ∧ u.toNat ≤ 0x5A) ∧ ¬(0x32 ≤ u.toNat ∧ u.toNat ≤ 0x37)) ∧
  (∀ ch : Byte, (upcase ch).toNat =
    if 0x61 ≤ ch.toNat ∧ ch.toNat ≤ 0x7A then ch.toNat - 0x20 else ch.toNat) ∧
  ∀ ch : Byte, b32Inv (upcase ch) = none → upcase ch = ch

/-- R93 against the plain cut of the bit string (R33 item 2): the accumulator loop of the encoder is
the input's bits, most significant first, cut in fives with zero bits on the right. -/
def Obligations.EncoderCutsTheBitString : Prop :=
  ∀ data : List Byte, b32Encode data = b32EncodeStream data

/-- R95 against the plain cut of the bit string: on a text of alphabet characters, in either case,
the accumulator loop of the decoder is the characters' bits cut in eights, the rest dropped, for
every conforming accumulator width. -/
def Obligations.DecoderCutsTheBitString : Prop :=
  ∀ (accW : Nat) (text : List Byte) (vs : List Nat), 12 ≤ accW →
    text.map (fun ch => b32Inv (upcase ch)) = vs.map some →
    b32Decode accW text = .ok (b32DecodeStream vs)

/-- R95: the first character outside the alphabet ends the function and is reported with its index,
whatever follows it. -/
def Obligations.DecoderReportsTheFirstBadCharacter : Prop :=
  ∀ (accW : Nat) (good : List Byte) (ch : Byte) (rest : List Byte), 12 ≤ accW →
    (∀ c ∈ good, (b32Inv (upcase c)).isSome) → b32Inv (upcase ch) = none →
    b32Decode accW (good ++ ch :: rest) = .error (.invalidCharacter ch good.length)

/-- R94: the length of an encoded text. -/
def Obligations.EncodedLengthLaw : Prop :=
  (∀ data : List Byte, (b32Encode data).length = (data.length * 8 + 4) / 5) ∧
  b32Encode [] = [] ∧ ∀ p : List Byte, p.length = 35 → (b32Encode p).length = 56

/-- R96: the length of a decoded text, whatever the text's length, and how many bits are dropped. -/
def Obligations.DecodedLengthLaw : Prop :=
  ∀ (accW : Nat) (text out : List Byte), b32Decode accW text = .ok out →
    out.length = text.length * 5 / 8 ∧
    (b32DecodeFrom accW 0 text ⟨0, 0⟩).1.nb = text.length * 5 % 8

/-- R100: every byte sequence comes back from its encoding. The dropped bits and the letter case are
not checked, and `=` is not accepted, so the other direction holds exactly for upper-case texts of a
length an encoder produces whose dropped bits (what the loop leaves in `acc`) are zero. -/
def Obligations.DecodingInvertsEncoding : Prop :=
  (∀ data : List Byte, b32Decode 12 (b32Encode data) = .ok data) ∧
  (∀ last ∈ [0x59#8, 0x5A#8, 0x32#8, 0x33#8], b32Decode 12 [0x4D#8, last] = .ok [0x66#8]) ∧
  (∀ text : List Byte, b32Decode 12 (text.map upcase) = b32Decode 12 text) ∧
  (∀ text : List Byte, 0x3D#8 ∈ text → ∀ out, b32Decode 12 text ≠ .ok out) ∧
  ∀ text out : List Byte, b32Decode 12 text = .ok out →
    (b32Encode out = text ↔
      text.map upcase = text ∧ text.length = (out.length * 8 + 4) / 5 ∧
        (b32DecodeFrom 12 0 text ⟨0, 0⟩).1.acc = 0)

/-- R99: in both loops the variables stay within `ACC_W` = 12 bits, so the guard never fires. -/
def Obligations.AccumulatorNeverOverflows : Prop :=
  (∀ data : List Byte, let w := (b32EncodeFrom data ⟨0, 0⟩).2
    w.nb ≤ 4 ∧ w.acc < 2 ^ w.nb ∧ ∀ b : Byte, (pushByte w b).acc < 2 ^ 12 ∧ (pushByte w b).nb ≤ 12) ∧
  ∀ (accW pos : Nat) (text : List Byte), 12 ≤ accW →
    let r := b32DecodeFrom accW pos text ⟨0, 0⟩
    r.1.nb ≤ 7 ∧ r.1.acc < 2 ^ r.1.nb ∧ r.2 ≠ .error .malformedInput

/-! ### The payload functions -/

/-- R105, R106: the 35 bytes of a payload, the checksum over the first 33 and its low byte first. -/
def Obligations.PayloadLayout : Prop :=
  ∀ hash : List Byte, hash.length = 32 →
    let k := (0x10#8 :: hash).foldl crcUpdate 0x0000#16
    (payloadBuild hash).length = 35 ∧ (payloadBuild hash)[0]? = some 0x10#8 ∧
    (∀ i, i < 32 → (payloadBuild hash)[1 + i]? = hash[i]?) ∧
    (payloadBuild hash)[33]? = some (k.extractLsb' 0 8) ∧
    (payloadBuild hash)[34]? = some (k.extractLsb' 8 8)

/-- R111 items 1 and 2: parsing a built payload gives its hash, and only built payloads parse. -/
def Obligations.ParseAcceptsExactlyTheBuiltPayloads : Prop :=
  (∀ hash : List Byte, hash.length = 32 → payloadParse (payloadBuild hash) = .ok hash) ∧
  ∀ p hash : List Byte, payloadParse p = .ok hash ↔
    p.length = 35 ∧ hash = (p.drop 1).take 32 ∧ p = payloadBuild hash

/-- R111 item 3 (the corrected property 3 of 90_conflicts.md C2): a payload that differs from an
accepted one in exactly one bit is refused, with `UnsupportedVersion` for byte 0 and
`InvalidChecksum` for bytes 1 to 34. -/
def Obligations.SingleBitFlipIsRefused : Prop :=
  ∀ p hash : List Byte, payloadParse p = .ok hash → ∀ (i k : Nat) (b : Byte), i < 35 → k < 8 →
    p[i]? = some b →
    payloadParse (p.set i (b ^^^ 1#8 <<< k)) =
      .error (if i = 0 then .unsupportedVersion else .invalidChecksum)

/-! ### The host layer -/

/-- R119: an address is 56 characters, begins with `C` and then `A` to `D`, and decodes back to its
hash, on every conforming block. -/
def Obligations.AddressRoundTrip : Prop :=
  ∀ (p : Config.Params) (hash : List Byte), p.Conforming → hash.length = 32 →
    (addressEncode hash).length = 56 ∧ (addressEncode hash)[0]? = some 0x43#8 ∧
    (∃ c ∈ [0x41#8, 0x42#8, 0x43#8, 0x44#8], (addressEncode hash)[1]? = some c) ∧
    addressDecode p (addressEncode hash) = .ok hash

/-- R117, R118: hex text has two lower-case digits a byte, comes back through `toBytes`, and what
`toBytes` accepts comes back trimmed and lower-cased. At the default `HEX_TRIM_SET`, which is the
model's choice (log 14), with the nibble order and digit codes the spec takes from general knowledge
(log 15). -/
def Obligations.HexTextRoundTrip : Prop :=
  (∀ d : List Byte, (toHex d).length = 2 * d.length ∧ toBytes Config.params (toHex d) = .ok d ∧
    ∀ c ∈ toHex d, (0x30 ≤ c.toNat ∧ c.toNat ≤ 0x39) ∨ (0x61 ≤ c.toNat ∧ c.toNat ≤ 0x66)) ∧
  ∀ s d : List Byte, toBytes Config.params s = .ok d →
    toHex d = (trimEnds Config.params.hexTrimSet s).map lowerByte

/-- R125 properties 1, 2 and 4: `encode` of a hash's hex text succeeds with 56 characters, `decode`
gives the hex text back, and `encode` of the result is refused with `AlreadyStrKey`. At the default
`B32_MAX_IN` (log 7) and `HEX_TRIM_SET` (log 14), which are the model's choice, with the character
codes and nibble order of log 15. -/
def Obligations.CodecRoundTrip : Prop :=
  ∀ hash : List Byte, hash.length = 32 → ∃ a,
    codecEncode Config.params (toHex hash) = .ok a ∧ a.length = 56 ∧
    codecDecode Config.params a = .ok (toHex hash) ∧
    isValidContractAddress Config.params a = true ∧
    codecEncode Config.params a = .error .alreadyStrKey

/-- R125 properties 4, 5 and 6, with the order of R139: too long first, then the first foreign
character, then the payload's length, then the version whatever the checksum bytes are. At the
default `B32_MAX_IN` of 128, which is the model's choice (log 7). -/
def Obligations.AddressDecodeRejectsInOrder : Prop :=
  (∀ t : List Byte, 128 < t.length → addressDecode Config.params t = .error .inputTooLong) ∧
  (∀ t : List Byte, t.length ≤ 128 → (∃ c ∈ t, b32Inv (upcase c) = none) →
    ∃ c pos, t[pos]? = some c ∧ b32Inv (upcase c) = none ∧
      addressDecode Config.params t = .error (.invalidBase32Character c pos)) ∧
  (∀ t : List Byte, t.length ≤ 128 → (∀ c ∈ t, (b32Inv (upcase c)).isSome) →
    t.length ≠ 56 → t.length ≠ 57 →
    addressDecode Config.params t = .error .invalidPayloadLength) ∧
  ∀ (v lo hi : Byte) (hash : List Byte), hash.length = 32 → v ≠ 0x10#8 →
    addressDecode Config.params (b32Encode (v :: hash ++ [lo, hi])) = .error .unsupportedVersion
end

