-- ==== Sys2Proof/Laws/State.lean ====
section
/-! SUPPORT. One lemma per field of the state and named update, so that no later proof unfolds a
record update. -/

namespace Sys2Proof.Machine

/-! ### `respond` -/

@[simp] theorem respond_crc (v : Word) (s : State) : (respond v s).crc = s.crc := rfl
@[simp] theorem respond_ibuf (v : Word) (s : State) : (respond v s).ibuf = s.ibuf := rfl
@[simp] theorem respond_ilen (v : Word) (s : State) : (respond v s).ilen = s.ilen := rfl
@[simp] theorem respond_obuf (v : Word) (s : State) : (respond v s).obuf = s.obuf := rfl
@[simp] theorem respond_olen (v : Word) (s : State) : (respond v s).olen = s.olen := rfl
@[simp] theorem respond_err (v : Word) (s : State) : (respond v s).err = s.err := rfl
@[simp] theorem respond_ff (v : Word) (s : State) : (respond v s).ff = s.ff := rfl
@[simp] theorem respond_einfo (v : Word) (s : State) : (respond v s).einfo = s.einfo := rfl
@[simp] theorem respond_acc (v : Word) (s : State) : (respond v s).acc = s.acc := rfl
@[simp] theorem respond_nb (v : Word) (s : State) : (respond v s).nb = s.nb := rfl
@[simp] theorem respond_inputs (v : Word) (s : State) : (respond v s).inputs = s.inputs := rfl
@[simp] theorem respond_responses (v : Word) (s : State) : (respond v s).responses = s.responses ++ [v] := rfl

/-! ### `setWork` -/

@[simp] theorem setWork_crc (w : Bits) (s : State) : (setWork w s).crc = s.crc := rfl
@[simp] theorem setWork_ibuf (w : Bits) (s : State) : (setWork w s).ibuf = s.ibuf := rfl
@[simp] theorem setWork_ilen (w : Bits) (s : State) : (setWork w s).ilen = s.ilen := rfl
@[simp] theorem setWork_obuf (w : Bits) (s : State) : (setWork w s).obuf = s.obuf := rfl
@[simp] theorem setWork_olen (w : Bits) (s : State) : (setWork w s).olen = s.olen := rfl
@[simp] theorem setWork_err (w : Bits) (s : State) : (setWork w s).err = s.err := rfl
@[simp] theorem setWork_ff (w : Bits) (s : State) : (setWork w s).ff = s.ff := rfl
@[simp] theorem setWork_einfo (w : Bits) (s : State) : (setWork w s).einfo = s.einfo := rfl
@[simp] theorem setWork_acc (w : Bits) (s : State) : (setWork w s).acc = BitVec.ofNat 12 w.acc := rfl
@[simp] theorem setWork_nb (w : Bits) (s : State) : (setWork w s).nb = BitVec.ofNat 4 w.nb := rfl
@[simp] theorem setWork_inputs (w : Bits) (s : State) : (setWork w s).inputs = s.inputs := rfl
@[simp] theorem setWork_responses (w : Bits) (s : State) : (setWork w s).responses = s.responses := rfl

/-! ### `setCrc` -/

@[simp] theorem setCrc_crc (c : Word) (s : State) : (setCrc c s).crc = c := rfl
@[simp] theorem setCrc_ibuf (c : Word) (s : State) : (setCrc c s).ibuf = s.ibuf := rfl
@[simp] theorem setCrc_ilen (c : Word) (s : State) : (setCrc c s).ilen = s.ilen := rfl
@[simp] theorem setCrc_obuf (c : Word) (s : State) : (setCrc c s).obuf = s.obuf := rfl
@[simp] theorem setCrc_olen (c : Word) (s : State) : (setCrc c s).olen = s.olen := rfl
@[simp] theorem setCrc_err (c : Word) (s : State) : (setCrc c s).err = s.err := rfl
@[simp] theorem setCrc_ff (c : Word) (s : State) : (setCrc c s).ff = s.ff := rfl
@[simp] theorem setCrc_einfo (c : Word) (s : State) : (setCrc c s).einfo = s.einfo := rfl
@[simp] theorem setCrc_acc (c : Word) (s : State) : (setCrc c s).acc = s.acc := rfl
@[simp] theorem setCrc_nb (c : Word) (s : State) : (setCrc c s).nb = s.nb := rfl
@[simp] theorem setCrc_inputs (c : Word) (s : State) : (setCrc c s).inputs = s.inputs := rfl
@[simp] theorem setCrc_responses (c : Word) (s : State) : (setCrc c s).responses = s.responses := rfl

/-! ### `setIlen` -/

@[simp] theorem setIlen_crc (n : BitVec 9) (s : State) : (setIlen n s).crc = s.crc := rfl
@[simp] theorem setIlen_ibuf (n : BitVec 9) (s : State) : (setIlen n s).ibuf = s.ibuf := rfl
@[simp] theorem setIlen_ilen (n : BitVec 9) (s : State) : (setIlen n s).ilen = n := rfl
@[simp] theorem setIlen_obuf (n : BitVec 9) (s : State) : (setIlen n s).obuf = s.obuf := rfl
@[simp] theorem setIlen_olen (n : BitVec 9) (s : State) : (setIlen n s).olen = s.olen := rfl
@[simp] theorem setIlen_err (n : BitVec 9) (s : State) : (setIlen n s).err = s.err := rfl
@[simp] theorem setIlen_ff (n : BitVec 9) (s : State) : (setIlen n s).ff = s.ff := rfl
@[simp] theorem setIlen_einfo (n : BitVec 9) (s : State) : (setIlen n s).einfo = s.einfo := rfl
@[simp] theorem setIlen_acc (n : BitVec 9) (s : State) : (setIlen n s).acc = s.acc := rfl
@[simp] theorem setIlen_nb (n : BitVec 9) (s : State) : (setIlen n s).nb = s.nb := rfl
@[simp] theorem setIlen_inputs (n : BitVec 9) (s : State) : (setIlen n s).inputs = s.inputs := rfl
@[simp] theorem setIlen_responses (n : BitVec 9) (s : State) : (setIlen n s).responses = s.responses := rfl

/-! ### `setOlen` -/

@[simp] theorem setOlen_crc (n : BitVec 9) (s : State) : (setOlen n s).crc = s.crc := rfl
@[simp] theorem setOlen_ibuf (n : BitVec 9) (s : State) : (setOlen n s).ibuf = s.ibuf := rfl
@[simp] theorem setOlen_ilen (n : BitVec 9) (s : State) : (setOlen n s).ilen = s.ilen := rfl
@[simp] theorem setOlen_obuf (n : BitVec 9) (s : State) : (setOlen n s).obuf = s.obuf := rfl
@[simp] theorem setOlen_olen (n : BitVec 9) (s : State) : (setOlen n s).olen = n := rfl
@[simp] theorem setOlen_err (n : BitVec 9) (s : State) : (setOlen n s).err = s.err := rfl
@[simp] theorem setOlen_ff (n : BitVec 9) (s : State) : (setOlen n s).ff = s.ff := rfl
@[simp] theorem setOlen_einfo (n : BitVec 9) (s : State) : (setOlen n s).einfo = s.einfo := rfl
@[simp] theorem setOlen_acc (n : BitVec 9) (s : State) : (setOlen n s).acc = s.acc := rfl
@[simp] theorem setOlen_nb (n : BitVec 9) (s : State) : (setOlen n s).nb = s.nb := rfl
@[simp] theorem setOlen_inputs (n : BitVec 9) (s : State) : (setOlen n s).inputs = s.inputs := rfl
@[simp] theorem setOlen_responses (n : BitVec 9) (s : State) : (setOlen n s).responses = s.responses := rfl

/-! ### `setMem .ibuf` -/

@[simp] theorem setMem_ibuf_crc (m : Memory) (s : State) : (setMem .ibuf m s).crc = s.crc := rfl
@[simp] theorem setMem_ibuf_ibuf (m : Memory) (s : State) : (setMem .ibuf m s).ibuf = m := rfl
@[simp] theorem setMem_ibuf_ilen (m : Memory) (s : State) : (setMem .ibuf m s).ilen = s.ilen := rfl
@[simp] theorem setMem_ibuf_obuf (m : Memory) (s : State) : (setMem .ibuf m s).obuf = s.obuf := rfl
@[simp] theorem setMem_ibuf_olen (m : Memory) (s : State) : (setMem .ibuf m s).olen = s.olen := rfl
@[simp] theorem setMem_ibuf_err (m : Memory) (s : State) : (setMem .ibuf m s).err = s.err := rfl
@[simp] theorem setMem_ibuf_ff (m : Memory) (s : State) : (setMem .ibuf m s).ff = s.ff := rfl
@[simp] theorem setMem_ibuf_einfo (m : Memory) (s : State) : (setMem .ibuf m s).einfo = s.einfo := rfl
@[simp] theorem setMem_ibuf_acc (m : Memory) (s : State) : (setMem .ibuf m s).acc = s.acc := rfl
@[simp] theorem setMem_ibuf_nb (m : Memory) (s : State) : (setMem .ibuf m s).nb = s.nb := rfl
@[simp] theorem setMem_ibuf_inputs (m : Memory) (s : State) : (setMem .ibuf m s).inputs = s.inputs := rfl
@[simp] theorem setMem_ibuf_responses (m : Memory) (s : State) : (setMem .ibuf m s).responses = s.responses := rfl

/-! ### `setMem .obuf` -/

@[simp] theorem setMem_obuf_crc (m : Memory) (s : State) : (setMem .obuf m s).crc = s.crc := rfl
@[simp] theorem setMem_obuf_ibuf (m : Memory) (s : State) : (setMem .obuf m s).ibuf = s.ibuf := rfl
@[simp] theorem setMem_obuf_ilen (m : Memory) (s : State) : (setMem .obuf m s).ilen = s.ilen := rfl
@[simp] theorem setMem_obuf_obuf (m : Memory) (s : State) : (setMem .obuf m s).obuf = m := rfl
@[simp] theorem setMem_obuf_olen (m : Memory) (s : State) : (setMem .obuf m s).olen = s.olen := rfl
@[simp] theorem setMem_obuf_err (m : Memory) (s : State) : (setMem .obuf m s).err = s.err := rfl
@[simp] theorem setMem_obuf_ff (m : Memory) (s : State) : (setMem .obuf m s).ff = s.ff := rfl
@[simp] theorem setMem_obuf_einfo (m : Memory) (s : State) : (setMem .obuf m s).einfo = s.einfo := rfl
@[simp] theorem setMem_obuf_acc (m : Memory) (s : State) : (setMem .obuf m s).acc = s.acc := rfl
@[simp] theorem setMem_obuf_nb (m : Memory) (s : State) : (setMem .obuf m s).nb = s.nb := rfl
@[simp] theorem setMem_obuf_inputs (m : Memory) (s : State) : (setMem .obuf m s).inputs = s.inputs := rfl
@[simp] theorem setMem_obuf_responses (m : Memory) (s : State) : (setMem .obuf m s).responses = s.responses := rfl

/-! ### `recordError` -/

@[simp] theorem recordError_crc (x : ErrorKind) (info : Word) (s : State) : (recordError x info s).crc = s.crc := rfl
@[simp] theorem recordError_ibuf (x : ErrorKind) (info : Word) (s : State) : (recordError x info s).ibuf = s.ibuf := rfl
@[simp] theorem recordError_ilen (x : ErrorKind) (info : Word) (s : State) : (recordError x info s).ilen = s.ilen := rfl
@[simp] theorem recordError_obuf (x : ErrorKind) (info : Word) (s : State) : (recordError x info s).obuf = s.obuf := rfl
@[simp] theorem recordError_olen (x : ErrorKind) (info : Word) (s : State) : (recordError x info s).olen = s.olen := rfl
@[simp] theorem recordError_err (x : ErrorKind) (info : Word) (s : State) : (recordError x info s).err = x.code := rfl
@[simp] theorem recordError_ff (x : ErrorKind) (info : Word) (s : State) : (recordError x info s).ff = if x = .ePrecond then true else s.ff := rfl
@[simp] theorem recordError_einfo (x : ErrorKind) (info : Word) (s : State) : (recordError x info s).einfo = if x = .invalidBase32Character then info else 0x0000 := rfl
@[simp] theorem recordError_acc (x : ErrorKind) (info : Word) (s : State) : (recordError x info s).acc = s.acc := rfl
@[simp] theorem recordError_nb (x : ErrorKind) (info : Word) (s : State) : (recordError x info s).nb = s.nb := rfl
@[simp] theorem recordError_inputs (x : ErrorKind) (info : Word) (s : State) : (recordError x info s).inputs = s.inputs := rfl
@[simp] theorem recordError_responses (x : ErrorKind) (info : Word) (s : State) : (recordError x info s).responses = s.responses := rfl

/-! ### `clearAll` -/

@[simp] theorem clearAll_crc (s : State) : (clearAll s).crc = 0 := rfl
@[simp] theorem clearAll_ibuf (s : State) : (clearAll s).ibuf = s.ibuf := rfl
@[simp] theorem clearAll_ilen (s : State) : (clearAll s).ilen = 0 := rfl
@[simp] theorem clearAll_obuf (s : State) : (clearAll s).obuf = s.obuf := rfl
@[simp] theorem clearAll_olen (s : State) : (clearAll s).olen = 0 := rfl
@[simp] theorem clearAll_err (s : State) : (clearAll s).err = 0 := rfl
@[simp] theorem clearAll_ff (s : State) : (clearAll s).ff = false := rfl
@[simp] theorem clearAll_einfo (s : State) : (clearAll s).einfo = 0 := rfl
@[simp] theorem clearAll_acc (s : State) : (clearAll s).acc = s.acc := rfl
@[simp] theorem clearAll_nb (s : State) : (clearAll s).nb = s.nb := rfl
@[simp] theorem clearAll_inputs (s : State) : (clearAll s).inputs = s.inputs := rfl
@[simp] theorem clearAll_responses (s : State) : (clearAll s).responses = s.responses := rfl

/-! ### `hardwareReset` -/

@[simp] theorem hardwareReset_crc (s : State) : (hardwareReset s).crc = 0 := rfl
@[simp] theorem hardwareReset_ibuf (s : State) : (hardwareReset s).ibuf = [] := rfl
@[simp] theorem hardwareReset_ilen (s : State) : (hardwareReset s).ilen = 0 := rfl
@[simp] theorem hardwareReset_obuf (s : State) : (hardwareReset s).obuf = [] := rfl
@[simp] theorem hardwareReset_olen (s : State) : (hardwareReset s).olen = 0 := rfl
@[simp] theorem hardwareReset_err (s : State) : (hardwareReset s).err = 0 := rfl
@[simp] theorem hardwareReset_ff (s : State) : (hardwareReset s).ff = false := rfl
@[simp] theorem hardwareReset_einfo (s : State) : (hardwareReset s).einfo = 0 := rfl
@[simp] theorem hardwareReset_acc (s : State) : (hardwareReset s).acc = 0 := rfl
@[simp] theorem hardwareReset_nb (s : State) : (hardwareReset s).nb = 0 := rfl
@[simp] theorem hardwareReset_inputs (s : State) : (hardwareReset s).inputs = s.inputs := rfl
@[simp] theorem hardwareReset_responses (s : State) : (hardwareReset s).responses = s.responses := rfl

/-! ### `clearError` -/

theorem clearError_of_fatal {s : State} (h : s.ff = true) : clearError s = s := by
  simp [clearError, h]

theorem clearError_of_not_fatal {s : State} (h : s.ff = false) :
    clearError s = { s with err := 0, einfo := 0x0000 } := by
  simp [clearError, h]

@[simp] theorem clearError_crc (s : State) : (clearError s).crc = s.crc := by
  unfold clearError; split <;> rfl

@[simp] theorem clearError_ibuf (s : State) : (clearError s).ibuf = s.ibuf := by
  unfold clearError; split <;> rfl

@[simp] theorem clearError_ilen (s : State) : (clearError s).ilen = s.ilen := by
  unfold clearError; split <;> rfl

@[simp] theorem clearError_obuf (s : State) : (clearError s).obuf = s.obuf := by
  unfold clearError; split <;> rfl

@[simp] theorem clearError_olen (s : State) : (clearError s).olen = s.olen := by
  unfold clearError; split <;> rfl

@[simp] theorem clearError_ff (s : State) : (clearError s).ff = s.ff := by
  unfold clearError; split <;> rfl

@[simp] theorem clearError_acc (s : State) : (clearError s).acc = s.acc := by
  unfold clearError; split <;> rfl

@[simp] theorem clearError_nb (s : State) : (clearError s).nb = s.nb := by
  unfold clearError; split <;> rfl

@[simp] theorem clearError_inputs (s : State) : (clearError s).inputs = s.inputs := by
  unfold clearError; split <;> rfl

@[simp] theorem clearError_responses (s : State) : (clearError s).responses = s.responses := by
  unfold clearError; split <;> rfl

/-! ### `STATUS` reads only `ERR` and `FF` -/

theorem status_congr {s t : State} (he : s.err = t.err) (hf : s.ff = t.ff) :
    status s = status t := by
  simp [status, errorFlag, he, hf]

@[simp] theorem status_respond (v : Word) (s : State) : status (respond v s) = status s := rfl
@[simp] theorem status_setWork (w : Bits) (s : State) : status (setWork w s) = status s := rfl
@[simp] theorem status_setCrc (c : Word) (s : State) : status (setCrc c s) = status s := rfl
@[simp] theorem status_setIlen (n : BitVec 9) (s : State) : status (setIlen n s) = status s := rfl
@[simp] theorem status_setOlen (n : BitVec 9) (s : State) : status (setOlen n s) = status s := rfl
@[simp] theorem status_setMem (sp : Space) (m : Memory) (s : State) :
    status (setMem sp m s) = status s := by
  cases sp <;> rfl
@[simp] theorem status_clearAll (s : State) : status (clearAll s) = 0x0000 := by
  simp [status, errorFlag, clearAll]

/-- In the OK state `STATUS` is zero (R18). -/
theorem status_of_clear {s : State} (he : s.err = 0) (hf : s.ff = false) : status s = 0x0000 := by
  simp [status, errorFlag, he, hf]

/-! ### `memOf` and `lenOf` -/

@[simp] theorem memOf_ibuf (s : State) : memOf .ibuf s = s.ibuf := rfl
@[simp] theorem memOf_obuf (s : State) : memOf .obuf s = s.obuf := rfl
@[simp] theorem lenOf_ibuf (s : State) : lenOf .ibuf s = s.ilen := rfl
@[simp] theorem lenOf_obuf (s : State) : lenOf .obuf s = s.olen := rfl
@[simp] theorem memOf_setMem_same (sp : Space) (m : Memory) (s : State) :
    memOf sp (setMem sp m s) = m := by
  cases sp <;> rfl
@[simp] theorem lenOf_setMem (sp sp' : Space) (m : Memory) (s : State) :
    lenOf sp (setMem sp' m s) = lenOf sp s := by
  cases sp <;> cases sp' <;> rfl
@[simp] theorem memOf_setWork (sp : Space) (w : Bits) (s : State) :
    memOf sp (setWork w s) = memOf sp s := by
  cases sp <;> rfl
@[simp] theorem lenOf_setWork (sp : Space) (w : Bits) (s : State) :
    lenOf sp (setWork w s) = lenOf sp s := by
  cases sp <;> rfl

end Sys2Proof.Machine
end

