-- ==== Sys2Proof/Laws/Memory.lean ====
section
/-! SUPPORT. The laws of a buffer's contents: what a byte reads as after a store, that a store keeps
the canonical form, and that two memories in that form which read alike are equal. -/

namespace Sys2Proof.Machine

@[simp] theorem Memory.byteAt_nil (i : Nat) : Memory.byteAt [] i = none := rfl

theorem Memory.byteAt_cons (j : Nat) (c : Byte) (m : Memory) (i : Nat) :
    Memory.byteAt ((j, c) :: m) i = if i = j then some c else Memory.byteAt m i := rfl

@[simp] theorem Memory.byteAt_store_same (m : Memory) (i : Nat) (b : Byte) :
    (m.store i b).byteAt i = some b := by
  induction m with
  | nil => simp [Memory.store, Memory.byteAt]
  | cons c m ih =>
    obtain ⟨j, c⟩ := c
    simp only [Memory.store]
    split
    · simp [Memory.byteAt]
    · split
      · simp [Memory.byteAt]
      · simp [Memory.byteAt, *]

theorem Memory.byteAt_store_other (m : Memory) {i j : Nat} (b : Byte) (h : j ≠ i) :
    (m.store i b).byteAt j = m.byteAt j := by
  induction m with
  | nil => simp [Memory.store, Memory.byteAt, h]
  | cons c m ih =>
    obtain ⟨k, c⟩ := c
    simp only [Memory.store]
    split
    · simp [Memory.byteAt, h]
    · split
      · next hk => subst hk; simp [Memory.byteAt, h]
      · simp [Memory.byteAt, ih]

/-- What a store can do to a read. -/
theorem Memory.byteAt_store (m : Memory) (i j : Nat) (b : Byte) :
    (m.store i b).byteAt j = if j = i then some b else m.byteAt j := by
  split
  · next h => subst h; simp
  · next h => exact byteAt_store_other m b h

theorem Memory.mem_store {m : Memory} {i : Nat} {b : Byte} {c : Host.Cell}
    (h : c ∈ m.store i b) : c = (i, b) ∨ c ∈ m := by
  induction m with
  | nil => simpa [Memory.store] using h
  | cons d m ih =>
    obtain ⟨j, d⟩ := d
    simp only [Memory.store] at h
    split at h
    · simpa using h
    · split at h
      · rcases List.mem_cons.1 h with h | h
        · exact .inl h
        · exact .inr (List.mem_cons_of_mem _ h)
      · rcases List.mem_cons.1 h with h | h
        · exact .inr (h ▸ List.mem_cons_self)
        · exact (ih h).imp id (List.mem_cons_of_mem _)

theorem Memory.rising_store {m : Memory} (i : Nat) (b : Byte)
    (h : (m.map Prod.fst).Pairwise (· < ·)) :
    ((m.store i b).map Prod.fst).Pairwise (· < ·) := by
  induction m with
  | nil => simp [Memory.store]
  | cons d m ih =>
    obtain ⟨j, d⟩ := d
    simp only [List.map_cons, List.pairwise_cons] at h
    simp only [Memory.store]
    split
    · next hij =>
      simp only [List.map_cons, List.pairwise_cons, List.mem_cons]
      exact ⟨fun k hk => hk.elim (fun e => e ▸ hij) fun hk => hij.trans (h.1 k hk), h⟩
    · split
      · next hij => subst hij; simpa using h
      · next hlt hne =>
        simp only [List.map_cons, List.pairwise_cons]
        refine ⟨fun k hk => ?_, ih h.2⟩
        obtain ⟨c, hc, rfl⟩ := List.mem_map.1 hk
        rcases Memory.mem_store hc with rfl | hc
        · show j < i; omega
        · exact h.1 _ (List.mem_map_of_mem hc)

/-- A store inside the buffer keeps the canonical form. -/
theorem Memory.store_wf {m : Memory} {i : Nat} (b : Byte) (hi : i < Config.bufCap) (h : m.wf) :
    (m.store i b).wf :=
  ⟨rising_store i b h.1, fun _ hc => (mem_store hc).elim (fun e => e ▸ hi) (h.2 _)⟩

theorem Memory.nil_wf : Memory.wf [] := by decide

theorem Memory.byteAt_eq_none_of_lt {m : Memory} {i : Nat} (h : ∀ c ∈ m, i < c.1) :
    m.byteAt i = none := by
  induction m with
  | nil => rfl
  | cons d m ih =>
    obtain ⟨j, d⟩ := d
    have hj : i < j := h (j, d) List.mem_cons_self
    rw [byteAt_cons, if_neg (by omega)]
    exact ih fun c hc => h c (List.mem_cons_of_mem _ hc)

/-- In the canonical form equal contents are equal data. -/
theorem Memory.ext_of_byteAt {m n : Memory} (hm : m.wf) (hn : n.wf)
    (h : ∀ i, m.byteAt i = n.byteAt i) : m = n := by
  replace hm := hm.1
  replace hn := hn.1
  induction m generalizing n with
  | nil =>
    cases n with
    | nil => rfl
    | cons d n => have := h d.1; simp [byteAt] at this
  | cons c m ih =>
    cases n with
    | nil => have := h c.1; simp [byteAt] at this
    | cons d n =>
      obtain ⟨j, c⟩ := c
      obtain ⟨k, d⟩ := d
      simp only [List.map_cons, List.pairwise_cons] at hm hn
      have above {l : Memory} {x : Nat} (hx : ∀ a ∈ l.map Prod.fst, x < a) :
          ∀ e ∈ l, x < e.1 := fun e he => hx _ (List.mem_map_of_mem he)
      have hjk : j = k := by
        rcases Nat.lt_trichotomy j k with hlt | heq | hgt
        · have := h j
          rw [byteAt_cons, if_pos rfl, byteAt_cons, if_neg (by omega),
            byteAt_eq_none_of_lt fun e he => hlt.trans (above hn.1 e he)] at this
          exact absurd this (by simp)
        · exact heq
        · have := h k
          rw [byteAt_cons, if_neg (by omega), byteAt_cons, if_pos rfl,
            byteAt_eq_none_of_lt fun e he => hgt.trans (above hm.1 e he)] at this
          exact absurd this (by simp)
      subst hjk
      have hcd : c = d := by simpa [byteAt] using h j
      subst hcd
      rw [ih (n := n) (fun i => ?_) hm.2 hn.2]
      by_cases hij : i = j
      · subst hij
        rw [byteAt_eq_none_of_lt (above hm.1), byteAt_eq_none_of_lt (above hn.1)]
      · simpa [byteAt, hij] using h i

end Sys2Proof.Machine
end

