-- ==== Sys2Proof/Laws/Ops.lean ====
section
/-! SUPPORT. For each shared operation, once, everything it can do: later proofs cite these lemmas and
do not unfold the operation. -/

namespace Sys2Proof.Machine

/-! ### Buffer accesses -/

theorem memRead_ok_iff {sp : Space} {i : Nat} {s : State} {b : Byte} :
    memRead sp i s = .ok b ↔ i < (lenOf sp s).toNat ∧ (memOf sp s).byteAt i = some b := by
  unfold memRead
  split
  · next h => cases hb : (memOf sp s).byteAt i <;> simp [h]
  · next h => simp [h]

theorem memRead_error {sp : Space} {i : Nat} {s : State} {f : Fault}
    (h : memRead sp i s = .error f) :
    f = .readUndefined sp i ∧ (i < (lenOf sp s).toNat → (memOf sp s).byteAt i = none) := by
  unfold memRead at h
  split at h
  · cases hb : (memOf sp s).byteAt i <;> simp_all
  · simp_all

theorem memWrite_of_lt {sp : Space} {i : Nat} {b : Byte} {s : State} (h : i < 256) :
    memWrite sp i b s = .ok (setMem sp ((memOf sp s).store i b) s) :=
  if_pos h

theorem memWrite_ok_iff {sp : Space} {i : Nat} {b : Byte} {s t : State} :
    memWrite sp i b s = .ok t ↔ i < 256 ∧ t = setMem sp ((memOf sp s).store i b) s := by
  by_cases h : i < 256
  · rw [memWrite_of_lt h]
    simp [h, eq_comm]
  · simp [memWrite, Config.bufCap, h]

@[simp] theorem setMem_setMem (sp : Space) (m n : Memory) (s : State) :
    setMem sp m (setMem sp n s) = setMem sp m s := by
  cases sp <;> rfl

@[simp] theorem setMem_memOf (sp : Space) (s : State) : setMem sp (memOf sp s) s = s := by
  cases sp <;> rfl

/-- The contents after bytes are stored in order from an index. -/
def storeFrom (m : Memory) (i : Nat) : List Byte → Memory
  | [] => m
  | b :: bs => storeFrom (m.store i b) (i + 1) bs

theorem byteAt_storeFrom (m : Memory) (i : Nat) (bs : List Byte) (j : Nat) :
    (storeFrom m i bs).byteAt j =
      if i ≤ j ∧ j < i + bs.length then bs[j - i]? else m.byteAt j := by
  induction bs generalizing m i with
  | nil => simp [storeFrom]
  | cons b bs ih =>
    simp only [storeFrom, ih, Memory.byteAt_store, List.length_cons]
    by_cases hji : j = i
    · subst hji
      rw [if_neg (by omega), if_pos (by omega)]
      simp
    · by_cases hin : i + 1 ≤ j ∧ j < i + 1 + bs.length
      · rw [if_pos hin, if_pos (by omega)]
        have : j - i = (j - (i + 1)) + 1 := by omega
        rw [this, List.getElem?_cons_succ]
      · rw [if_neg hin, if_neg hji, if_neg (by omega)]

theorem storeFrom_wf {m : Memory} {i : Nat} {bs : List Byte} (hm : m.wf)
    (h : i + bs.length ≤ 256) : (storeFrom m i bs).wf := by
  induction bs generalizing m i with
  | nil => exact hm
  | cons b bs ih =>
    simp only [List.length_cons] at h
    exact ih (Memory.store_wf b (show i < 256 by omega) hm) (by omega)

/-- Writing bytes that fit is storing them one after the other. -/
theorem memWriteFrom_of_fits {sp : Space} {i : Nat} {bs : List Byte} {s : State}
    (h : i + bs.length ≤ 256) :
    memWriteFrom sp i bs s = .ok (setMem sp (storeFrom (memOf sp s) i bs) s) := by
  induction bs generalizing i s with
  | nil => simp [memWriteFrom, storeFrom]
  | cons b bs ih =>
    simp only [List.length_cons] at h
    rw [memWriteFrom, memWrite_of_lt (by omega)]
    simp only [storeFrom]
    rw [ih (by omega)]
    simp

theorem memWriteFrom_ok {sp : Space} {i : Nat} {bs : List Byte} {s t : State}
    (hi : i ≤ 256) (h : memWriteFrom sp i bs s = .ok t) :
    i + bs.length ≤ 256 ∧ t = setMem sp (storeFrom (memOf sp s) i bs) s := by
  by_cases hfit : i + bs.length ≤ 256
  · rw [memWriteFrom_of_fits hfit] at h
    exact ⟨hfit, (Except.ok.inj h).symm⟩
  · exfalso
    induction bs generalizing i s with
    | nil => simp at hfit; omega
    | cons b bs ih =>
      simp only [List.length_cons] at hfit
      rw [memWriteFrom] at h
      by_cases hlt : i < 256
      · rw [memWrite_of_lt hlt] at h
        exact ih (by omega) h (by omega)
      · simp [memWrite, Config.bufCap, hlt] at h

/-- Reading a run of bytes succeeds exactly when each byte is below the length and has a value. -/
theorem memReadFrom_ok_iff {sp : Space} {i n : Nat} {s : State} {bs : List Byte} :
    memReadFrom sp i n s = .ok bs ↔
      bs.length = n ∧ (n = 0 ∨ i + n ≤ (lenOf sp s).toNat) ∧
        ∀ j < n, (memOf sp s).byteAt (i + j) = bs[j]? := by
  induction n generalizing i bs with
  | zero =>
    simp only [memReadFrom]
    cases bs <;> simp
  | succ n ih =>
    rw [memReadFrom]
    constructor
    · intro h
      split at h
      · simp at h
      · next b hb =>
        split at h
        · simp at h
        · next bs' hbs =>
          obtain rfl := Except.ok.inj h
          obtain ⟨hlen, hle, hall⟩ := ih.1 hbs
          obtain ⟨hi, hbi⟩ := memRead_ok_iff.1 hb
          refine ⟨by simp [hlen], .inr (by omega), fun j hj => ?_⟩
          cases j with
          | zero => simpa using hbi
          | succ j =>
            have := hall j (by omega)
            rw [List.getElem?_cons_succ, ← this]
            congr 1; omega
    · rintro ⟨hlen, hle, hall⟩
      cases bs with
      | nil => simp at hlen
      | cons b bs =>
        have hle : i + (n + 1) ≤ (lenOf sp s).toNat := by omega
        have hb : memRead sp i s = .ok b :=
          memRead_ok_iff.2 ⟨by omega, by simpa using hall 0 (by omega)⟩
        have hbs : memReadFrom sp (i + 1) n s = .ok bs := by
          refine ih.2 ⟨by simpa using hlen, .inr (by omega), fun j hj => ?_⟩
          have := hall (j + 1) (by omega)
          rw [List.getElem?_cons_succ] at this
          rw [← this]
          congr 1; omega
        simp [hb, hbs]

/-- `IBUF[0..ILEN)` reads as `data` exactly when the buffer holds it. -/
theorem ibufOperand_ok_iff {s : State} {data : List Byte} :
    ibufOperand s = .ok data ↔ s.InputIs data := by
  unfold ibufOperand
  rw [memReadFrom_ok_iff]
  constructor
  · rintro ⟨hlen, -, hall⟩
    exact ⟨hlen.symm, fun i hi => by simpa using hall i (by omega)⟩
  · rintro ⟨hlen, hall⟩
    exact ⟨hlen.symm, .inr (by simp), fun j hj => by simpa using hall j (by omega)⟩

/-- `OBUF[0..OLEN)` reads as `data` exactly when the buffer holds it. -/
theorem obufOperand_ok_iff {s : State} {data : List Byte} :
    obufOperand s = .ok data ↔ s.OutputIs data := by
  unfold obufOperand
  rw [memReadFrom_ok_iff]
  constructor
  · rintro ⟨hlen, -, hall⟩
    exact ⟨hlen.symm, fun i hi => by simpa using hall i (by omega)⟩
  · rintro ⟨hlen, hall⟩
    exact ⟨hlen.symm, .inr (by simp), fun j hj => by simpa using hall j (by omega)⟩

/-- A buffer whose valid bytes all have a value holds some byte sequence. -/
theorem exists_inputIs {s : State} (h : s.BuffersHeld) : ∃ data, s.InputIs data := by
  refine ⟨List.ofFn fun i : Fin s.ilen.toNat => (s.ibuf.byteAt i).get (h.1 i i.2), by simp, ?_⟩
  intro i hi
  rw [List.getElem?_eq_getElem hi]
  simp

/-- A buffer whose valid bytes all have a value holds some byte sequence. -/
theorem exists_outputIs {s : State} (h : s.BuffersHeld) : ∃ data, s.OutputIs data := by
  refine ⟨List.ofFn fun i : Fin s.olen.toNat => (s.obuf.byteAt i).get (h.2 i i.2), by simp, ?_⟩
  intro i hi
  rw [List.getElem?_eq_getElem hi]
  simp

/-! ### Ends of a command -/

@[simp] theorem orFault_ok {α : Type} (a : α) (k : α → Result) : orFault (.ok a) k = k a := rfl

@[simp] theorem orFault_error {α : Type} (f : Fault) (k : α → Result) :
    orFault (.error f) k = .fault f := rfl

theorem orFault_next {α : Type} {r : Except Fault α} {k : α → Result} {t : State}
    (h : orFault r k = .next t) : ∃ a, r = .ok a ∧ k a = .next t := by
  cases r with
  | error f => simp at h
  | ok a => exact ⟨a, rfl, h⟩

theorem complete_eq (s : State) : complete s = .next (respond (status s) s) := rfl

theorem answer_eq (v : Word) (s : State) : answer v s = .next (respond v s) := rfl

theorem raise_eq (x : ErrorKind) (info : Word) (s : State) :
    raise x info s = .next (respond (status (recordError x info s)) (recordError x info s)) := rfl

theorem unlessError_ok {s : State} (h : s.err = 0) (k : State → Result) :
    unlessError s k = k s := if_pos h

theorem unlessError_skip {s : State} (h : s.err ≠ 0) (k : State → Result) :
    unlessError s k = .next (respond (status s) s) := if_neg h

/-- What a command under the error-state test can do. -/
theorem unlessError_next {s t : State} {k : State → Result} (h : unlessError s k = .next t) :
    (s.err = 0 ∧ k s = .next t) ∨ (s.err ≠ 0 ∧ t = respond (status s) s) := by
  by_cases he : s.err = 0
  · exact .inl ⟨he, by rwa [unlessError_ok he] at h⟩
  · rw [unlessError_skip he] at h
    exact .inr ⟨he, by injection h with h; exact h.symm⟩

/-- Delivering bytes that fit: they stand at the start of `OBUF`, `OLEN` is their number, the rest
of the state is as before but for the response. -/
theorem deliver_of_fits {bs : List Byte} {s : State} (h : bs.length ≤ 256) :
    deliver bs s = .next (respond (status s)
      { s with obuf := storeFrom s.obuf 0 bs, olen := lenBits bs }) := by
  unfold deliver
  rw [memWriteFrom_of_fits (by omega)]
  rfl

theorem deliver_next {bs : List Byte} {s t : State} (h : deliver bs s = .next t) :
    bs.length ≤ 256 ∧ t = respond (status s)
      { s with obuf := storeFrom s.obuf 0 bs, olen := lenBits bs } := by
  obtain ⟨u, hu, -⟩ := orFault_next h
  have hfit := (memWriteFrom_ok (by omega) hu).1
  rw [deliver_of_fits (by omega)] at h
  injection h with h
  exact ⟨by omega, h.symm⟩

theorem lenBits_toNat {bs : List Byte} (h : bs.length ≤ 256) : (lenBits bs).toNat = bs.length := by
  simp [lenBits]; omega

theorem nextInput_eq_none {s : State} : nextInput s = none ↔ s.inputs = [] := by
  unfold nextInput; split <;> simp_all

theorem nextInput_of_cons {s : State} {x : HostInput} {rest : List HostInput}
    (h : s.inputs = x :: rest) : nextInput s = some (x, { s with inputs := rest }) := by
  unfold nextInput; simp [h]

theorem step_of_nil {s : State} (h : s.inputs = []) : step s = .next s := by
  unfold step; rw [nextInput_eq_none.2 h]

theorem step_of_cons {s : State} {x : HostInput} {rest : List HostInput}
    (h : s.inputs = x :: rest) : step s = runInput x { s with inputs := rest } := by
  unfold step; rw [nextInput_of_cons h]

end Sys2Proof.Machine
end

