-- ==== Sys2Proof/Laws/Exec.lean ====
section
/-! SUPPORT. For each command, once, every next state its execution can answer: the skip in an error
state, an error it raises, its effect. Invariants and frames are derived from these and do not
unfold a meaning. -/

namespace Sys2Proof.Machine

/-- The skip of R138 as every meaning under the error-state test has it. -/
theorem exec_of_error {i : Instr} {s : State} (hx : Exempt i = false) (h : s.err ≠ 0) :
    exec i s = .next (respond (status s) s) := by
  cases i <;> first | exact if_neg h | (simp [Exempt] at hx)

theorem illegalCommand_of_error {s : State} (h : s.err ≠ 0) :
    illegalCommand s = .next (respond (status s) s) := if_neg h

theorem illegalCommand_of_ok {s : State} (h : s.err = 0) :
    illegalCommand s = .next (respond (status (recordError .eIllCmd 0 s))
      (recordError .eIllCmd 0 s)) := if_pos h

theorem exec_clri_of_ok {s : State} (h : s.err = 0) :
    exec .clri s = .next (respond (status s) (setIlen 0 s)) := if_pos h

theorem exec_crcInit_of_ok {s : State} (h : s.err = 0) :
    exec .crcInit s = .next (respond (status s) (setCrc 0x0000 s)) := if_pos h

theorem exec_crcByte_of_ok {s : State} (imm : Byte) (h : s.err = 0) :
    exec (.crcByte imm) s = .next (respond (status s) (setCrc (crcUpdate s.crc imm) s)) := if_pos h

/-! ### `ST` and `LD` -/

theorem exec_st_of_full {s : State} (imm : Byte) (h : s.err = 0) (hl : s.ilen = 256) :
    exec (.st imm) s = raise .eCap 0 s := by
  simp only [exec, execSt]
  rw [unlessError_ok h, if_pos hl]

theorem exec_st_of_room {s : State} (imm : Byte) (h : s.err = 0) (hl : s.ilen.toNat < 256) :
    exec (.st imm) s = .next (respond (status s)
      { s with ibuf := s.ibuf.store s.ilen.toNat imm, ilen := s.ilen + 1 }) := by
  have hne : s.ilen ≠ 256 := by rintro e; rw [e] at hl; exact absurd hl (by decide)
  simp only [exec, execSt]
  rw [unlessError_ok h, if_neg hne, memWrite_of_lt hl]
  rfl

theorem exec_st_next {imm : Byte} {s t : State} (h : exec (.st imm) s = .next t) :
    (s.err ≠ 0 ∧ t = respond (status s) s) ∨
    (s.err = 0 ∧ s.ilen = 256 ∧
      t = respond (status (recordError .eCap 0 s)) (recordError .eCap 0 s)) ∨
    (s.err = 0 ∧ s.ilen.toNat < 256 ∧ t = respond (status s)
      { s with ibuf := s.ibuf.store s.ilen.toNat imm, ilen := s.ilen + 1 }) := by
  have h' := h
  simp only [exec, execSt] at h'
  rcases unlessError_next h' with ⟨he, hk⟩ | hk
  · by_cases hl : s.ilen = 256
    · rw [exec_st_of_full imm he hl] at h
      exact .inr (.inl ⟨he, hl, (Host.Outcome.next.inj h).symm⟩)
    · rw [if_neg hl] at hk
      obtain ⟨u, hu, -⟩ := orFault_next hk
      have hlt := (memWrite_ok_iff.1 hu).1
      rw [exec_st_of_room imm he hlt] at h
      exact .inr (.inr ⟨he, hlt, (Host.Outcome.next.inj h).symm⟩)
  · exact .inl hk

theorem exec_ld_of_range {s : State} (imm : Byte) (h : s.err = 0)
    (hl : s.olen.toNat ≤ imm.toNat) : exec (.ld imm) s = raise .eRange 0 s := by
  simp only [exec, execLd]
  rw [unlessError_ok h, if_pos (show s.olen.toNat ≤ indexOf imm from hl)]

theorem exec_ld_of_held {s : State} {imm b : Byte} (h : s.err = 0)
    (hl : imm.toNat < s.olen.toNat) (hb : s.obuf.byteAt imm.toNat = some b) :
    exec (.ld imm) s = .next (respond (zextByte b) s) := by
  have hr : memRead .obuf (indexOf imm) s = .ok b := memRead_ok_iff.2 ⟨hl, hb⟩
  simp only [exec, execLd]
  rw [unlessError_ok h, if_neg (show ¬s.olen.toNat ≤ indexOf imm from Nat.not_le.2 hl), hr]
  rfl

theorem exec_ld_next {imm : Byte} {s t : State} (h : exec (.ld imm) s = .next t) :
    (s.err ≠ 0 ∧ t = respond (status s) s) ∨
    (s.err = 0 ∧ s.olen.toNat ≤ imm.toNat ∧
      t = respond (status (recordError .eRange 0 s)) (recordError .eRange 0 s)) ∨
    (s.err = 0 ∧ imm.toNat < s.olen.toNat ∧
      ∃ b, s.obuf.byteAt imm.toNat = some b ∧ t = respond (zextByte b) s) := by
  have h' := h
  simp only [exec, execLd] at h'
  rcases unlessError_next h' with ⟨he, hk⟩ | hk
  · by_cases hl : s.olen.toNat ≤ imm.toNat
    · rw [exec_ld_of_range imm he hl] at h
      exact .inr (.inl ⟨he, hl, (Host.Outcome.next.inj h).symm⟩)
    · rw [if_neg (show ¬s.olen.toNat ≤ indexOf imm from hl)] at hk
      obtain ⟨b, hb, -⟩ := orFault_next hk
      have hb := (memRead_ok_iff.1 hb).2
      rw [exec_ld_of_held he (by omega) hb] at h
      exact .inr (.inr ⟨he, by omega, b, hb, (Host.Outcome.next.inj h).symm⟩)
  · exact .inl hk

/-! ### `MOVO` -/

theorem exec_movo_of_held {s : State} {data : List Byte} (h : s.err = 0) (hd : s.OutputIs data)
    (hl : data.length ≤ 256) : exec .movo s = .next (respond (status s)
      { s with ibuf := storeFrom s.ibuf 0 data, ilen := s.olen }) := by
  simp only [exec, execMovo]
  rw [unlessError_ok h, obufOperand_ok_iff.2 hd, orFault_ok, memWriteFrom_of_fits (by omega)]
  rfl

theorem exec_movo_next {s t : State} (h : exec .movo s = .next t) :
    (s.err ≠ 0 ∧ t = respond (status s) s) ∨
    (s.err = 0 ∧ ∃ data, s.OutputIs data ∧ data.length ≤ 256 ∧ t = respond (status s)
      { s with ibuf := storeFrom s.ibuf 0 data, ilen := s.olen }) := by
  have h' := h
  simp only [exec, execMovo] at h'
  rcases unlessError_next h' with ⟨he, hk⟩ | hk
  · obtain ⟨data, hd, hk⟩ := orFault_next hk
    have hd := obufOperand_ok_iff.1 hd
    obtain ⟨u, hu, -⟩ := orFault_next hk
    have hfit := (memWriteFrom_ok (by omega) hu).1
    rw [exec_movo_of_held he hd (by omega)] at h
    exact .inr ⟨he, data, hd, by omega, (Host.Outcome.next.inj h).symm⟩
  · exact .inl hk

/-! ### `CRC.BUF` and `CRC.SUM` -/

theorem exec_crcBuf_of_held {s : State} {data : List Byte} (h : s.err = 0) (hd : s.InputIs data) :
    exec .crcBuf s = .next (respond (status s) (setCrc (crcFold s.crc data) s)) := by
  simp only [exec, execCrcBuf]
  rw [unlessError_ok h, ibufOperand_ok_iff.2 hd]
  rfl

theorem exec_crcBuf_next {s t : State} (h : exec .crcBuf s = .next t) :
    (s.err ≠ 0 ∧ t = respond (status s) s) ∨
    (s.err = 0 ∧ ∃ data, s.InputIs data ∧
      t = respond (status s) (setCrc (crcFold s.crc data) s)) := by
  have h' := h
  simp only [exec, execCrcBuf] at h'
  rcases unlessError_next h' with ⟨he, hk⟩ | hk
  · obtain ⟨data, hd, -⟩ := orFault_next hk
    have hd := ibufOperand_ok_iff.1 hd
    rw [exec_crcBuf_of_held he hd] at h
    exact .inr ⟨he, data, hd, (Host.Outcome.next.inj h).symm⟩
  · exact .inl hk

theorem exec_crcSum_of_held {s : State} {data : List Byte} (h : s.err = 0) (hd : s.InputIs data) :
    exec .crcSum s = .next (respond (status s) (setCrc (checksum data) s)) := by
  simp only [exec, execCrcSum]
  rw [unlessError_ok h, ibufOperand_ok_iff.2 hd]
  rfl

theorem exec_crcSum_next {s t : State} (h : exec .crcSum s = .next t) :
    (s.err ≠ 0 ∧ t = respond (status s) s) ∨
    (s.err = 0 ∧ ∃ data, s.InputIs data ∧
      t = respond (status s) (setCrc (checksum data) s)) := by
  have h' := h
  simp only [exec, execCrcSum] at h'
  rcases unlessError_next h' with ⟨he, hk⟩ | hk
  · obtain ⟨data, hd, -⟩ := orFault_next hk
    have hd := ibufOperand_ok_iff.1 hd
    rw [exec_crcSum_of_held he hd] at h
    exact .inr ⟨he, data, hd, (Host.Outcome.next.inj h).symm⟩
  · exact .inl hk

/-! ### `B32.ENC` and `B32.DEC` -/

theorem inputIs_setWork {w : Bits} {s : State} {data : List Byte} :
    (setWork w s).InputIs data ↔ s.InputIs data := Iff.rfl

theorem setWork_setWork (v w : Bits) (s : State) : setWork v (setWork w s) = setWork v s := rfl

theorem exec_b32Enc_of_long {s : State} (h : s.err = 0) (hl : 160 < s.ilen.toNat) :
    exec .b32Enc s = raise .eCap 0 (setWork ⟨0, 0⟩ s) := by
  simp only [exec, execB32Enc]
  rw [unlessError_ok h]
  exact if_pos hl

theorem exec_b32Enc_of_held {s : State} {data : List Byte} (h : s.err = 0) (hd : s.InputIs data)
    (hl : s.ilen.toNat ≤ 160) :
    exec .b32Enc s =
      deliver (b32EncodeFrom data ⟨0, 0⟩).1 (setWork (b32EncodeFrom data ⟨0, 0⟩).2 s) := by
  have hn : ¬Config.b32EncMaxIn < (setWork ⟨0, 0⟩ s).ilen.toNat := Nat.not_lt.2 hl
  simp only [exec, execB32Enc]
  rw [unlessError_ok h]
  simp only [if_neg hn]
  rw [ibufOperand_ok_iff.2 (inputIs_setWork.2 hd), orFault_ok, setWork_setWork]

theorem exec_b32Enc_next {s t : State} (h : exec .b32Enc s = .next t) :
    (s.err ≠ 0 ∧ t = respond (status s) s) ∨
    (s.err = 0 ∧ 160 < s.ilen.toNat ∧ raise .eCap 0 (setWork ⟨0, 0⟩ s) = .next t) ∨
    (s.err = 0 ∧ s.ilen.toNat ≤ 160 ∧ ∃ data, s.InputIs data ∧
      deliver (b32EncodeFrom data ⟨0, 0⟩).1 (setWork (b32EncodeFrom data ⟨0, 0⟩).2 s) =
        .next t) := by
  have h' := h
  simp only [exec, execB32Enc] at h'
  rcases unlessError_next h' with ⟨he, hk⟩ | hk
  · by_cases hl : 160 < s.ilen.toNat
    · rw [exec_b32Enc_of_long he hl] at h
      exact .inr (.inl ⟨he, hl, h⟩)
    · have hn : ¬Config.b32EncMaxIn < (setWork ⟨0, 0⟩ s).ilen.toNat := hl
      simp only [if_neg hn] at hk
      obtain ⟨data, hd, -⟩ := orFault_next hk
      have hd := inputIs_setWork.1 (ibufOperand_ok_iff.1 hd)
      rw [exec_b32Enc_of_held he hd (by omega)] at h
      exact .inr (.inr ⟨he, by omega, data, hd, h⟩)
  · exact .inl hk

/-- What `B32.DEC` does with the decoder's result. -/
def b32DecEnd (s : State) : Bits × Except B32Error (List Byte) → Result
  | (w, .error (.invalidCharacter char pos)) =>
    raise .invalidBase32Character (charInfo char pos) (setWork w s)
  | (w, .error .malformedInput) => raise .malformedInput 0 (setWork w s)
  | (w, .ok bytes) => deliver bytes (setWork w s)

theorem b32DecWith_of_long {p : Config.Params} {s : State} (h : s.err = 0)
    (hl : p.b32MaxIn < s.ilen.toNat) :
    b32DecWith p s = raise .inputTooLong 0 (setWork ⟨0, 0⟩ s) := by
  unfold b32DecWith
  rw [unlessError_ok h]
  exact if_pos hl

theorem b32DecWith_of_held {p : Config.Params} {s : State} {text : List Byte} (h : s.err = 0)
    (hd : s.InputIs text) (hl : s.ilen.toNat ≤ p.b32MaxIn) :
    b32DecWith p s = b32DecEnd s (b32DecodeFrom p.accW 0 text ⟨0, 0⟩) := by
  have hn : ¬p.b32MaxIn < (setWork ⟨0, 0⟩ s).ilen.toNat := Nat.not_lt.2 hl
  unfold b32DecWith
  rw [unlessError_ok h]
  simp only [if_neg hn]
  rw [ibufOperand_ok_iff.2 (inputIs_setWork.2 hd), orFault_ok]
  rcases b32DecodeFrom p.accW 0 text ⟨0, 0⟩ with ⟨w, (_ | _) | bytes⟩ <;> rfl

theorem b32DecWith_next {p : Config.Params} {s t : State} (h : b32DecWith p s = .next t) :
    (s.err ≠ 0 ∧ t = respond (status s) s) ∨
    (s.err = 0 ∧ p.b32MaxIn < s.ilen.toNat ∧
      raise .inputTooLong 0 (setWork ⟨0, 0⟩ s) = .next t) ∨
    (s.err = 0 ∧ s.ilen.toNat ≤ p.b32MaxIn ∧ ∃ text, s.InputIs text ∧
      b32DecEnd s (b32DecodeFrom p.accW 0 text ⟨0, 0⟩) = .next t) := by
  have h' := h
  unfold b32DecWith at h'
  rcases unlessError_next h' with ⟨he, hk⟩ | hk
  · by_cases hl : p.b32MaxIn < s.ilen.toNat
    · rw [b32DecWith_of_long he hl] at h
      exact .inr (.inl ⟨he, hl, h⟩)
    · have hn : ¬p.b32MaxIn < (setWork ⟨0, 0⟩ s).ilen.toNat := hl
      simp only [if_neg hn] at hk
      obtain ⟨text, hd, -⟩ := orFault_next hk
      have hd := inputIs_setWork.1 (ibufOperand_ok_iff.1 hd)
      rw [b32DecWith_of_held he hd (by omega)] at h
      exact .inr (.inr ⟨he, by omega, text, hd, h⟩)
  · exact .inl hk

/-! ### `PAY.BUILD` and `PAY.PARSE` -/

theorem exec_payBuild_of_length {s : State} (h : s.err = 0) (hl : s.ilen.toNat ≠ 32) :
    exec .payBuild s = raise .ePrecond 0 s := by
  simp only [exec, execPayBuild]
  rw [unlessError_ok h, if_pos hl]

theorem exec_payBuild_of_held {s : State} {hash : List Byte} (h : s.err = 0) (hd : s.InputIs hash)
    (hl : hash.length = 32) : exec .payBuild s = deliver (payloadBuild hash) s := by
  simp only [exec, execPayBuild]
  rw [unlessError_ok h, if_neg (by have := hd.1; omega), ibufOperand_ok_iff.2 hd, orFault_ok]

theorem exec_payBuild_next {s t : State} (h : exec .payBuild s = .next t) :
    (s.err ≠ 0 ∧ t = respond (status s) s) ∨
    (s.err = 0 ∧ s.ilen.toNat ≠ 32 ∧ raise .ePrecond 0 s = .next t) ∨
    (s.err = 0 ∧ ∃ hash, s.InputIs hash ∧ hash.length = 32 ∧
      deliver (payloadBuild hash) s = .next t) := by
  have h' := h
  simp only [exec, execPayBuild] at h'
  rcases unlessError_next h' with ⟨he, hk⟩ | hk
  · by_cases hl : s.ilen.toNat ≠ 32
    · rw [exec_payBuild_of_length he hl] at h
      exact .inr (.inl ⟨he, hl, h⟩)
    · rw [if_neg hl] at hk
      obtain ⟨hash, hd, hk⟩ := orFault_next hk
      have hd := ibufOperand_ok_iff.1 hd
      exact .inr (.inr ⟨he, hash, hd, by have := hd.1; omega, hk⟩)
  · exact .inl hk

/-- What `PAY.PARSE` does with the validator's result. -/
def payParseEnd (s : State) : Except ErrorKind (List Byte) → Result
  | .error x => raise x 0 s
  | .ok hash => deliver hash s

theorem exec_payParse_of_held {s : State} {p : List Byte} (h : s.err = 0) (hd : s.InputIs p) :
    exec .payParse s = payParseEnd s (payloadParse p) := by
  simp only [exec, execPayParse]
  rw [unlessError_ok h, ibufOperand_ok_iff.2 hd, orFault_ok]
  cases payloadParse p <;> rfl

theorem exec_payParse_next {s t : State} (h : exec .payParse s = .next t) :
    (s.err ≠ 0 ∧ t = respond (status s) s) ∨
    (s.err = 0 ∧ ∃ p, s.InputIs p ∧ payParseEnd s (payloadParse p) = .next t) := by
  have h' := h
  simp only [exec, execPayParse] at h'
  rcases unlessError_next h' with ⟨he, hk⟩ | hk
  · obtain ⟨p, hd, -⟩ := orFault_next hk
    have hd := ibufOperand_ok_iff.1 hd
    rw [exec_payParse_of_held he hd] at h
    exact .inr ⟨he, p, hd, h⟩
  · exact .inl hk

/-- The only errors `payload_parse` returns (R107). -/
theorem payloadParse_error {p : List Byte} {x : ErrorKind} (h : payloadParse p = .error x) :
    x = .invalidPayloadLength ∨ x = .unsupportedVersion ∨ x = .invalidChecksum := by
  unfold payloadParse at h
  split at h
  · exact .inl (Except.error.inj h).symm
  · split at h
    · exact .inr (.inl (Except.error.inj h).symm)
    · split at h
      · exact .inr (.inr (Except.error.inj h).symm)
      · simp at h

theorem payloadParse_ok_length {p hash : List Byte} (h : payloadParse p = .ok hash) :
    p.length = 35 ∧ hash.length = 32 := by
  unfold payloadParse at h
  split at h
  · simp at h
  · next hl =>
    split at h
    · simp at h
    · split at h
      · simp at h
      · obtain rfl := Except.ok.inj h
        simp
        omega

end Sys2Proof.Machine
end

