-- ==== Sys2Proof/Laws/Functions.lean ====
section
/-! SUPPORT. The small lemmas of the units' functions: the CRC as a fold, the mask of the base-32
loops, and what one turn of each loop does. -/

namespace Sys2Proof.Machine

/-! ### The CRC -/

theorem crcFold_eq_foldl (c : Word) (bs : List Byte) : crcFold c bs = bs.foldl crcUpdate c := by
  induction bs generalizing c with
  | nil => rfl
  | cons b bs ih => exact ih _

theorem crcFold_append (c : Word) (as bs : List Byte) :
    crcFold c (as ++ bs) = crcFold (crcFold c as) bs := by
  simp only [crcFold_eq_foldl, List.foldl_append]

@[simp] theorem checksum_nil : checksum [] = 0x0000 := rfl

@[simp] theorem payloadBuild_length (hash : List Byte) :
    (payloadBuild hash).length = hash.length + 3 := by
  simp [payloadBuild, checksumBytes]

/-! ### The base-32 loops -/

theorem keepBits_eq_mod (acc nb : Nat) : keepBits acc nb = acc % 2 ^ nb := by
  rw [keepBits, Nat.one_shiftLeft, Nat.and_two_pow_sub_one_eq_mod]

theorem keepBits_lt (acc nb : Nat) : keepBits acc nb < 2 ^ nb := by
  rw [keepBits_eq_mod]; exact Nat.mod_lt _ (Nat.two_pow_pos nb)

theorem emitGroups_of_few (turns : Nat) {w : Bits} (h : w.nb < 5) : emitGroups turns w = ([], w) := by
  cases turns with
  | zero => rfl
  | succ n => rw [emitGroups, if_neg (by omega)]

theorem emitGroups_of_many (turns : Nat) {w : Bits} (h : 5 ≤ w.nb) :
    emitGroups (turns + 1) w =
      (b32Alpha ((w.acc >>> (w.nb - 5)) &&& 0x1F) ::
        (emitGroups turns { acc := keepBits w.acc (w.nb - 5), nb := w.nb - 5 }).1,
       (emitGroups turns { acc := keepBits w.acc (w.nb - 5), nb := w.nb - 5 }).2) := by
  rw [emitGroups, if_pos h]

/-- One character outside the alphabet ends the decoder. -/
theorem b32DecodeFrom_of_bad {accW pos : Nat} {ch : Byte} {rest : List Byte} {w : Bits}
    (h : b32Inv (upcase ch) = none) :
    b32DecodeFrom accW pos (ch :: rest) w = (w, .error (.invalidCharacter ch pos)) := by
  rw [b32DecodeFrom, h]

/-- One character that leaves fewer than eight bits gives no byte. -/
theorem b32DecodeFrom_of_few {accW pos v : Nat} {ch : Byte} {rest : List Byte} {w : Bits}
    (h : b32Inv (upcase ch) = some v) (hw : w.nb + 5 ≤ accW) (hn : w.nb + 5 < 8) :
    b32DecodeFrom accW pos (ch :: rest) w =
      b32DecodeFrom accW (pos + 1) rest { acc := (w.acc <<< 5) ||| v, nb := w.nb + 5 } := by
  rw [b32DecodeFrom, h]
  simp only [if_neg (Nat.not_lt.2 hw), if_neg (Nat.not_le.2 hn)]

/-- One character that completes eight bits gives their byte. -/
theorem b32DecodeFrom_of_many {accW pos v : Nat} {ch : Byte} {rest : List Byte} {w : Bits}
    (h : b32Inv (upcase ch) = some v) (hw : w.nb + 5 ≤ accW) (hn : 8 ≤ w.nb + 5) :
    b32DecodeFrom accW pos (ch :: rest) w =
      let acc := (w.acc <<< 5) ||| v
      let r := b32DecodeFrom accW (pos + 1) rest
        { acc := keepBits acc (w.nb + 5 - 8), nb := w.nb + 5 - 8 }
      (r.1, r.2.map (BitVec.ofNat 8 ((acc >>> (w.nb + 5 - 8)) &&& 0xFF) :: ·)) := by
  rw [b32DecodeFrom, h]
  simp only [if_neg (Nat.not_lt.2 hw), if_pos hn]

end Sys2Proof.Machine
end

