-- ==== Sys2Proof/Machine/HostPrograms.lean ====
section
/-! DEFINITION. The host's programs of 44_host_layer.md R121 run on the block, one transaction after
the other, with what the host does on the responses: the reads it issues only on success (R121), the
error kind it returns (R123), and the source's functions in their block form (R120, R122, R124). The
block itself has none of this (R115). -/

namespace Sys2Proof.Machine

/-! ### Transactions -/

/-- One transaction of R59: the host presents the command's word, the block takes one step, the host
gets the response. `none` where the step is no next state, which R59 excludes. -/
def transact (i : Instr) (s : State) : Option (Word × State) :=
  match step (presentFirst (encode i) s) with
  | .next t => t.responses.getLast?.map fun r => (r, t)
  | .fault _ => none
  | .refused _ => none

/-- Transactions in order, with their responses in order (20_memory.md R40). -/
def transactAll : List Instr → State → Option (List Word × State)
  | [], s => some ([], s)
  | i :: is, s =>
    match transact i s with
    | none => none
    | some (r, t) => (transactAll is t).map fun x => (r :: x.1, x.2)

/-- How a host's procedure ends. -/
inductive HostEnd (α : Type) where
  /-- With its value. -/
  | value (a : α)
  /-- With an error kind of the source returned to the caller (R123). -/
  | error (e : CodecError)
  /-- With a code that R123 maps to no kind: a bug in the host's program (log 18). -/
  | hostBug (code : BitVec 4)
  deriving DecidableEq, Repr

/-- The value of an end changed, an error or a bug kept. -/
def HostEnd.map {α β : Type} (f : α → β) : HostEnd α → HostEnd β
  | .value a => .value (f a)
  | .error e => .error e
  | .hostBug c => .hostBug c

/-- The error code a response carries: `STATUS[3:0]` (10_state.md R18). -/
def responseCode (r : Word) : BitVec 4 := r.extractLsb' 0 4

/-- The byte a successful `LD` answers (30_encoding.md R46 case 3). -/
def responseByte (r : Word) : Byte := r.extractLsb' 0 8

/-- What the host returns for an error response: the kind of R123 for its code, with the data it reads
from `EINFO` (log 18). -/
def reportError {α : Type} (r : Word) (s : State) : Option (HostEnd α × State) :=
  (transact .rdrEinfo s).map fun x =>
    (match codecErrorOf (responseCode r) x.1 with
      | some e => .error e
      | none => .hostBug (responseCode r), x.2)

/-! ### The two programs of R121 -/

/-- The largest text the host loads: a longer one it refuses itself (R121). -/
def hostTextMax : Nat := 256

/-- R121, encoding a hash: the characters are the responses of the 56 `LD`. A set bit 15 in the last
one tells the host that the program failed (R46, log 18), which no 32-byte hash makes it do.
-/
def runEncode (h : List Byte) (s : State) : Option (HostEnd (List Byte) × State) :=
  match transactAll (encodeSequence h) s with
  | none => none
  | some (rs, t) =>
    match rs.getLast? with
    | none => none
    | some r =>
      if r.msb then reportError r t
      else some (.value ((rs.drop (rs.length - 56)).map responseByte), t)

/-- R121, decoding a text: the response of `PAY.PARSE`, the last command, and the state after it. -/
def runParse (t : List Byte) (s : State) : Option (Word × State) :=
  match transactAll (decodeSequence t) s with
  | none => none
  | some (rs, u) => rs.getLast?.map fun r => (r, u)

/-- R121, decoding a text: `InputTooLong` from the host itself above 256 bytes, else the program, the
32 reads only if `PAY.PARSE` answered 0x0000, and otherwise the kind of R123. -/
def runDecode (t : List Byte) (s : State) : Option (HostEnd (List Byte) × State) :=
  if hostTextMax < t.length then some (.error .inputTooLong, s)
  else
    match runParse t s with
    | none => none
    | some (r, u) =>
      if r = 0x0000 then
        (transactAll readHashSequence u).map fun x => (.value (x.1.map responseByte), x.2)
      else reportError r u

/-! ### The source's functions on the block -/

/-- `decode(strKey)` on the block (R122). -/
def decodeOnBlock (strKey : List Byte) (s : State) : Option (HostEnd (List Byte) × State) :=
  (runDecode strKey s).map fun x => (x.1.map toHex, x.2)

/-- `isValidContractAddress(value)` on the block: whether the response of `PAY.PARSE` is 0x0000
(R124); a text the host refuses itself is not valid (log 18). -/
def isValidOnBlock (value : List Byte) (s : State) : Option (Bool × State) :=
  if hostTextMax < value.length then some (false, s)
  else (runParse value s).map fun x => (decide (x.1 = 0x0000), x.2)

/-- `encode(hex)` on the block (R120): the `AlreadyStrKey` test first, on the text as given, then the
host's hex text and length tests, then the program. -/
def encodeOnBlock (p : Config.Params) (hex : List Byte) (s : State) :
    Option (HostEnd (List Byte) × State) :=
  match isValidOnBlock hex s with
  | none => none
  | some (true, t) => some (.error .alreadyStrKey, t)
  | some (false, t) =>
    match toBytes p hex with
    | .error e => some (.error e, t)
    | .ok b => if b.length ≠ 32 then some (.error .invalidHexLength, t) else runEncode b t

end Sys2Proof.Machine
end

