-- ==== Sys2Proof/Laws/HostPrograms.lean ====
section
/-! SUPPORT. What a transaction of the host is on the block, and how runs of transactions compose. -/

namespace Sys2Proof.Machine

/-- A transaction is one run of its command word: what is pending behind it is not looked at. -/
theorem step_presentFirst (w : Word) (s : State) : step (presentFirst w s) = runWord w s := by
  rw [step_of_cons (s := presentFirst w s) (x := .command w) (rest := s.inputs) rfl]
  rfl

/-- Everything a transaction can do: its word ran to a next state, and the response is the last one
given there. -/
theorem transact_eq_some {i : Instr} {s t : State} {r : Word} :
    transact i s = some (r, t) ↔
      runWord (encode i) s = .next t ∧ t.responses.getLast? = some r := by
  unfold transact
  rw [step_presentFirst]
  cases runWord (encode i) s with
  | next u =>
    simp only [Option.map_eq_some_iff, Prod.mk.injEq, Host.Outcome.next.injEq]
    constructor
    · rintro ⟨_, h, rfl, rfl⟩; exact ⟨rfl, h⟩
    · rintro ⟨rfl, h⟩; exact ⟨r, h, rfl, rfl⟩
  | fault f => simp
  | refused f => simp

@[simp] theorem transactAll_nil (s : State) : transactAll [] s = some ([], s) := rfl

theorem transactAll_cons (i : Instr) (is : List Instr) (s : State) :
    transactAll (i :: is) s =
      (transact i s).bind fun x => (transactAll is x.2).map fun y => (x.1 :: y.1, y.2) := by
  rw [transactAll]
  cases transact i s <;> rfl

/-- Transactions in two parts: the second part starts where the first ended. -/
theorem transactAll_append (is js : List Instr) (s : State) :
    transactAll (is ++ js) s =
      (transactAll is s).bind fun x => (transactAll js x.2).map fun y => (x.1 ++ y.1, y.2) := by
  induction is generalizing s with
  | nil => simp
  | cons i is ih =>
    simp only [List.cons_append, transactAll_cons, ih]
    cases transact i s with
    | none => rfl
    | some x =>
      simp only [Option.bind_some]
      cases transactAll is x.2 with
      | none => rfl
      | some y =>
        simp only [Option.bind_some, Option.map_some]
        cases transactAll js y.2 <;> rfl

/-- A run gives one response for each command. -/
theorem transactAll_length {is : List Instr} {s t : State} {rs : List Word}
    (h : transactAll is s = some (rs, t)) : rs.length = is.length := by
  induction is generalizing s rs with
  | nil =>
    obtain ⟨rfl, -⟩ := Prod.mk.inj (Option.some.inj h)
    rfl
  | cons i is ih =>
    rw [transactAll_cons] at h
    obtain ⟨x, -, h⟩ := Option.bind_eq_some_iff.1 h
    obtain ⟨y, hy, h⟩ := Option.map_eq_some_iff.1 h
    obtain ⟨rfl, rfl⟩ := Prod.mk.inj h
    simp [ih hy]

/-- A text the host can not load is refused by the host, and the block is not touched. -/
theorem runDecode_of_long {t : List Byte} (h : 256 < t.length) (s : State) :
    runDecode t s = some (.error .inputTooLong, s) := if_pos h

theorem isValidOnBlock_of_long {t : List Byte} (h : 256 < t.length) (s : State) :
    isValidOnBlock t s = some (false, s) := if_pos h

end Sys2Proof.Machine
end

