-- ==== Sys2Proof/Laws/Words.lean ====
section
/-! SUPPORT. A command word as its opcode byte above its low byte: what the decoder sees of it, when
two such words are equal, and its masked bits. -/

namespace Sys2Proof

theorem append_toNat (a b : Byte) : (a ++ b : Word).toNat = a.toNat * 256 + b.toNat := by
  have h : (a ++ b : BitVec (8 + 8)).toNat = a.toNat <<< 8 ||| b.toNat := BitVec.toNat_append a b
  have hb := b.isLt
  rw [← Nat.shiftLeft_add_eq_or_of_lt hb, Nat.shiftLeft_eq] at h
  exact h

@[simp] theorem fieldsOf_append (a b : Byte) : fieldsOf (a ++ b) = ⟨a, b⟩ := by
  have hb := b.isLt
  have ha := a.isLt
  unfold fieldsOf
  congr 1 <;> apply BitVec.eq_of_toNat_eq <;>
    simp only [BitVec.extractLsb'_toNat, append_toNat, Nat.shiftRight_eq_div_pow] <;> omega

@[simp] theorem lowByte_append (a b : Byte) : (a ++ b : Word).extractLsb' 0 8 = b :=
  congrArg Fields.lo (fieldsOf_append a b)

@[simp] theorem opcode_append (a b : Byte) : (a ++ b : Word).extractLsb' 8 8 = a :=
  congrArg Fields.opcode (fieldsOf_append a b)

@[simp] theorem decode_append (a b : Byte) : decode (a ++ b) = decodeFields ⟨a, b⟩ := by
  unfold decode; rw [fieldsOf_append]

/-- Every word is its opcode byte above its low byte. -/
theorem exists_append (w : Word) : ∃ a b : Byte, w = a ++ b := by
  refine ⟨w.extractLsb' 8 8, w.extractLsb' 0 8, BitVec.eq_of_toNat_eq ?_⟩
  have hw := w.isLt
  simp only [append_toNat, BitVec.extractLsb'_toNat, Nat.shiftRight_eq_div_pow]
  omega

theorem append_inj {a b c d : Byte} : (a ++ b : Word) = (c ++ d : Word) ↔ a = c ∧ b = d := by
  constructor
  · intro h
    have h := congrArg fieldsOf h
    simpa using h
  · rintro ⟨rfl, rfl⟩; rfl

/-- A word equals a numeral when its two bytes do. -/
theorem append_eq_ofNat {a b : Byte} {n : Nat} :
    (a ++ b : Word) = BitVec.ofNat 16 n ↔ a = BitVec.ofNat 8 (n / 256) ∧ b = BitVec.ofNat 8 n := by
  rw [← append_inj]
  have : BitVec.ofNat 16 n = (BitVec.ofNat 8 (n / 256) ++ BitVec.ofNat 8 n : Word) := by
    apply BitVec.eq_of_toNat_eq
    rw [append_toNat]
    simp only [BitVec.toNat_ofNat]
    omega
  rw [this]

theorem word_and_ffff (w : Word) : w &&& 0xFFFF#16 = w := by
  rw [show (0xFFFF#16) = BitVec.allOnes 16 from rfl, BitVec.and_allOnes]

theorem append_and_ff00 (a b : Byte) : (a ++ b : Word) &&& 0xFF00#16 = a ++ 0#8 := by
  have h : (a ++ b : BitVec (8 + 8)) &&& (BitVec.allOnes 8 ++ 0#8 : BitVec (8 + 8)) =
      (a &&& BitVec.allOnes 8) ++ (b &&& 0#8) := BitVec.and_append
  rw [BitVec.and_allOnes, BitVec.and_zero] at h
  exact h

/-- A byte is below a bound or differs from every numeral below it. -/
theorem byte_cases (a : Byte) (n : Nat) :
    (∃ k < n, a = BitVec.ofNat 8 k) ∨ n ≤ a.toNat := by
  by_cases h : a.toNat < n
  · exact .inl ⟨a.toNat, h, by simp⟩
  · exact .inr (by omega)

end Sys2Proof
end

