-- ==== Sys2Proof/Laws/PerInstr.lean ====
section
/-! SUPPORT. What holds of every instruction as syntax, one lemma per constructor: its word, written
by the encoder, matches its own row of the opcode map (30_encoding.md R49) and it is well formed
(R45). -/

open Sys2Proof

/-- The word of the instruction matches its row of R49, and its format admits its low byte. -/
def Sys2Proof.Laws.WordMatchesRow.Statement (i : Instr) : Prop :=
  encode i &&& i.row.mask = i.row.word ∧ i.WellFormed = true

theorem Sys2Proof.Laws.WordMatchesRow.nop :
    Sys2Proof.Laws.WordMatchesRow.Statement .nop := by
  unfold Sys2Proof.Laws.WordMatchesRow.Statement
  decide

theorem Sys2Proof.Laws.WordMatchesRow.clr :
    Sys2Proof.Laws.WordMatchesRow.Statement .clr := by
  unfold Sys2Proof.Laws.WordMatchesRow.Statement
  decide

theorem Sys2Proof.Laws.WordMatchesRow.clre :
    Sys2Proof.Laws.WordMatchesRow.Statement .clre := by
  unfold Sys2Proof.Laws.WordMatchesRow.Statement
  decide

theorem Sys2Proof.Laws.WordMatchesRow.clri :
    Sys2Proof.Laws.WordMatchesRow.Statement .clri := by
  unfold Sys2Proof.Laws.WordMatchesRow.Statement
  decide

theorem Sys2Proof.Laws.WordMatchesRow.st (imm : Byte) :
    Sys2Proof.Laws.WordMatchesRow.Statement (.st imm) :=
  ⟨append_and_ff00 _ imm, rfl⟩

theorem Sys2Proof.Laws.WordMatchesRow.ld (imm : Byte) :
    Sys2Proof.Laws.WordMatchesRow.Statement (.ld imm) :=
  ⟨append_and_ff00 _ imm, rfl⟩

theorem Sys2Proof.Laws.WordMatchesRow.movo :
    Sys2Proof.Laws.WordMatchesRow.Statement .movo := by
  unfold Sys2Proof.Laws.WordMatchesRow.Statement
  decide

theorem Sys2Proof.Laws.WordMatchesRow.rdrStatus :
    Sys2Proof.Laws.WordMatchesRow.Statement .rdrStatus := by
  unfold Sys2Proof.Laws.WordMatchesRow.Statement
  decide

theorem Sys2Proof.Laws.WordMatchesRow.rdrEinfo :
    Sys2Proof.Laws.WordMatchesRow.Statement .rdrEinfo := by
  unfold Sys2Proof.Laws.WordMatchesRow.Statement
  decide

theorem Sys2Proof.Laws.WordMatchesRow.rdrCrc :
    Sys2Proof.Laws.WordMatchesRow.Statement .rdrCrc := by
  unfold Sys2Proof.Laws.WordMatchesRow.Statement
  decide

theorem Sys2Proof.Laws.WordMatchesRow.rdrIlen :
    Sys2Proof.Laws.WordMatchesRow.Statement .rdrIlen := by
  unfold Sys2Proof.Laws.WordMatchesRow.Statement
  decide

theorem Sys2Proof.Laws.WordMatchesRow.rdrOlen :
    Sys2Proof.Laws.WordMatchesRow.Statement .rdrOlen := by
  unfold Sys2Proof.Laws.WordMatchesRow.Statement
  decide

theorem Sys2Proof.Laws.WordMatchesRow.crcInit :
    Sys2Proof.Laws.WordMatchesRow.Statement .crcInit := by
  unfold Sys2Proof.Laws.WordMatchesRow.Statement
  decide

theorem Sys2Proof.Laws.WordMatchesRow.crcByte (imm : Byte) :
    Sys2Proof.Laws.WordMatchesRow.Statement (.crcByte imm) :=
  ⟨append_and_ff00 _ imm, rfl⟩

theorem Sys2Proof.Laws.WordMatchesRow.crcBuf :
    Sys2Proof.Laws.WordMatchesRow.Statement .crcBuf := by
  unfold Sys2Proof.Laws.WordMatchesRow.Statement
  decide

theorem Sys2Proof.Laws.WordMatchesRow.crcSum :
    Sys2Proof.Laws.WordMatchesRow.Statement .crcSum := by
  unfold Sys2Proof.Laws.WordMatchesRow.Statement
  decide

theorem Sys2Proof.Laws.WordMatchesRow.b32Enc :
    Sys2Proof.Laws.WordMatchesRow.Statement .b32Enc := by
  unfold Sys2Proof.Laws.WordMatchesRow.Statement
  decide

theorem Sys2Proof.Laws.WordMatchesRow.b32Dec :
    Sys2Proof.Laws.WordMatchesRow.Statement .b32Dec := by
  unfold Sys2Proof.Laws.WordMatchesRow.Statement
  decide

theorem Sys2Proof.Laws.WordMatchesRow.payBuild :
    Sys2Proof.Laws.WordMatchesRow.Statement .payBuild := by
  unfold Sys2Proof.Laws.WordMatchesRow.Statement
  decide

theorem Sys2Proof.Laws.WordMatchesRow.payParse :
    Sys2Proof.Laws.WordMatchesRow.Statement .payParse := by
  unfold Sys2Proof.Laws.WordMatchesRow.Statement
  decide
end

