-- ==== Sys2Proof/Machine/Assembler.lean ====
section
/-! DEFINITION. The assembler notation of 30_encoding.md R58: one command per line, `;` comments,
numbers, quoted characters, register names, and the four pseudo-commands, each standing for a fixed
sequence of commands. It is notation for the host's listings and no part of the block (log 16). -/

namespace Sys2Proof.Machine

/-- A piece of a line. -/
inductive Token where
  /-- A mnemonic, a number or a register name. -/
  | name (cs : List Char)
  /-- A character in single quotes. -/
  | char (c : Char)
  /-- A text in double quotes. -/
  | text (cs : List Char)
  deriving DecidableEq, Repr

/-- Where the scan of a line stands. -/
inductive Scan where
  /-- Between tokens. -/
  | between
  /-- Inside a name, its characters so far in reverse. -/
  | inName (rev : List Char)
  /-- After an opening single quote. -/
  | openQuote
  /-- After the character of a single-quoted character. -/
  | closeQuote (c : Char)
  /-- Inside a double-quoted text, its characters so far in reverse. -/
  | inText (rev : List Char)
  deriving DecidableEq, Repr

/-- A blank between tokens: space or tab. -/
def isBlank (c : Char) : Bool := c.toNat == 0x20 || c.toNat == 0x09

/-- The `;` that starts a comment. -/
def isComment (c : Char) : Bool := c.toNat == 0x3B

/-- The single quote around a character. -/
def isSingleQuote (c : Char) : Bool := c.toNat == 0x27

/-- The double quote around a text. -/
def isDoubleQuote (c : Char) : Bool := c.toNat == 0x22

/-- The tokens of a line, `none` for an unclosed quote. -/
def scanLine : Scan → List Char → Option (List Token)
  | .between, [] => some []
  | .between, c :: cs =>
    if isBlank c then scanLine .between cs
    else if isComment c then some []
    else if isSingleQuote c then scanLine .openQuote cs
    else if isDoubleQuote c then scanLine (.inText []) cs
    else scanLine (.inName [c]) cs
  | .inName rev, [] => some [.name rev.reverse]
  | .inName rev, c :: cs =>
    if isBlank c then (scanLine .between cs).map (.name rev.reverse :: ·)
    else if isComment c then some [.name rev.reverse]
    else scanLine (.inName (c :: rev)) cs
  | .openQuote, [] => none
  | .openQuote, c :: cs => scanLine (.closeQuote c) cs
  | .closeQuote _, [] => none
  | .closeQuote c, d :: cs =>
    if isSingleQuote d then (scanLine .between cs).map (.char c :: ·) else none
  | .inText _, [] => none
  | .inText rev, c :: cs =>
    if isDoubleQuote c then (scanLine .between cs).map (.text rev.reverse :: ·)
    else scanLine (.inText (c :: rev)) cs

/-- The value of a digit in base 10 or 16. -/
def digitValue (base : Nat) (c : Char) : Option Nat :=
  let n := c.toNat
  let v :=
    if 0x30 ≤ n ∧ n ≤ 0x39 then some (n - 0x30)
    else if 0x41 ≤ n ∧ n ≤ 0x46 then some (n - 0x41 + 10)
    else if 0x61 ≤ n ∧ n ≤ 0x66 then some (n - 0x61 + 10)
    else none
  v.filter (· < base)

/-- The value of a run of digits after the value read so far. -/
def digitsValue (base : Nat) : Nat → List Char → Option Nat
  | v, [] => some v
  | v, c :: cs =>
    match digitValue base c with
    | none => none
    | some d => digitsValue base (base * v + d) cs

/-- A number as R58 writes it: hexadecimal after `0x`, else decimal. -/
def numberValue : List Char → Option Nat
  | [] => none
  | [c] => digitsValue 10 0 [c]
  | c :: d :: cs =>
    if c.toNat = 0x30 ∧ d.toNat = 0x78 then
      if cs.isEmpty then none else digitsValue 16 0 cs
    else digitsValue 10 0 (c :: d :: cs)

/-- A value from 0 to 255 as a byte. -/
def byteValue (v : Nat) : Option Byte := if v < 256 then some (BitVec.ofNat 8 v) else none

/-- The ASCII code of a character. -/
def asciiByte (c : Char) : Option Byte := if c.toNat < 0x80 then byteValue c.toNat else none

/-- An `imm8` operand (R58). -/
def immValue : Token → Option Byte
  | .name cs => (numberValue cs).bind byteValue
  | .char c => asciiByte c
  | .text _ => none

/-- The operand of `RDR`: a register name or a number 0 to 4 (R58, R19). -/
def registerInstr : Token → Option Instr
  | .name cs =>
    if cs = "STATUS".toList then some .rdrStatus
    else if cs = "EINFO".toList then some .rdrEinfo
    else if cs = "CRC".toList then some .rdrCrc
    else if cs = "ILEN".toList then some .rdrIlen
    else if cs = "OLEN".toList then some .rdrOlen
    else
      match numberValue cs with
      | some 0 => some .rdrStatus
      | some 1 => some .rdrEinfo
      | some 2 => some .rdrCrc
      | some 3 => some .rdrIlen
      | some 4 => some .rdrOlen
      | _ => none
  | _ => none

/-- The format-Z command of a mnemonic (R49). -/
def plainInstr (cs : List Char) : Option Instr :=
  ([.nop, .clr, .clre, .clri, .movo, .crcInit, .crcBuf, .crcSum, .b32Enc, .b32Dec, .payBuild,
    .payParse] : List Instr).find? fun i => i.row.mnemonic.toList = cs

/-- The format-I command of a mnemonic (R49). -/
def immInstr (cs : List Char) (imm : Byte) : Option Instr :=
  ([.st imm, .ld imm, .crcByte imm] : List Instr).find? fun i => i.row.mnemonic.toList = cs

/-- A two-digit hex byte of `ST.H`. -/
def hexByte : Token → Option Byte
  | .name [a, b] => (digitsValue 16 0 [a, b]).bind byteValue
  | _ => none

/-- A list of options all of which hold a value. -/
def allSome {α : Type} : List (Option α) → Option (List α)
  | [] => some []
  | none :: _ => none
  | some a :: xs => (allSome xs).map (a :: ·)

/-- `ST.H b0 b1 ... bn` (R58). -/
def storeBytes (bs : List Byte) : List Instr := bs.map .st

/-- `ST.Z n`: `ST 0x00` repeated `n` times (R58). -/
def storeZeros (n : Nat) : List Instr := List.replicate n (.st 0)

/-- `LD.N n`: `LD 0`, `LD 1`, ..., `LD n-1` (R58). -/
def loadFirst (n : Nat) : List Instr := (List.range n).map fun i => .ld (BitVec.ofNat 8 i)

/-- The bytes of an `ST.H` line: one pair or more, as the form in R58 begins with `b0`; a line without
a pair is refused (DESIGN CHOICE, log 16). -/
def hexBytes (ts : List Token) : Option (List Byte) :=
  if ts.isEmpty then none else allSome (ts.map hexByte)

/-- The commands a tokenised line stands for (R58); an empty line stands for none. A command takes at
most one operand, so the range `CRC.BYTE '1' .. '9'` of 95_test_vectors.md P1b, a form R58 does not
define, is refused (DESIGN CHOICE, log 16). -/
def lineInstrs : List Token → Option (List Instr)
  | [] => some []
  | .name cs :: rest =>
    if cs = "ST.H".toList then (hexBytes rest).map storeBytes
    else
      match rest with
      | [] => (plainInstr cs).map ([·])
      | [t] =>
        if cs = "RDR".toList then (registerInstr t).map ([·])
        else
          match t with
          | .text xs =>
            if cs = "ST.S".toList then (allSome (xs.map asciiByte)).map storeBytes else none
          | .name ds =>
            if cs = "ST.Z".toList then (numberValue ds).map storeZeros
            else if cs = "LD.N".toList then
              (numberValue ds).bind fun n => if n ≤ 256 then some (loadFirst n) else none
            else ((immValue t).bind (immInstr cs)).map ([·])
          | .char _ => ((immValue t).bind (immInstr cs)).map ([·])
      | _ => none
  | _ => none

/-- The commands one line of a listing stands for; `none` where R58 gives it no meaning. -/
def assembleLine (cs : List Char) : Option (List Instr) :=
  (scanLine .between cs).bind lineInstrs

end Sys2Proof.Machine
end

