-- ==== Sys2Proof/Tests/Slice0.lean ====
section
/-! SUPPORT. Tests. First the checks of well-formedness refusing ill-formed terms, then words
written out bit by bit from 30_encoding.md R49 decoding, then single steps whose expected results
stand in the spec's rules (their examples) or in 95_test_vectors.md, then for every obligation with
hypotheses a concrete case that meets them, clause by clause, at the boundary of each range. -/

open Sys2Proof Sys2Proof.Machine

namespace Sys2Proof.Tests

/- The theorems are checked one after the other: in parallel, many short kernel evaluations wait in
threads of their own and can exhaust the memory a checking run may use. -/
set_option Elab.async false

/-! ### Helpers -/

/-- The bytes as the contents of a buffer, the first at index `i`. -/
def cellsFrom (i : Nat) : List Byte → Memory
  | [] => []
  | b :: bs => (i, b) :: cellsFrom (i + 1) bs

/-- The bytes as the contents of a buffer, the first at index 0. -/
def cellsOf (bs : List Byte) : Memory := cellsFrom 0 bs

/-- The reset state with these bytes valid in `IBUF` and in `OBUF`. -/
def holding (input output : List Byte) : State :=
  { State.reset with
    ibuf := cellsOf input, ilen := lenBits input, obuf := cellsOf output, olen := lenBits output }

theorem byteAt_cellsFrom (i k : Nat) (bs : List Byte) :
    (cellsFrom i bs).byteAt (i + k) = bs[k]? := by
  induction bs generalizing i k with
  | nil => rfl
  | cons b bs ih =>
    cases k with
    | zero => simp [cellsFrom, Memory.byteAt]
    | succ k =>
      have hne : i + (k + 1) ≠ i := by omega
      rw [cellsFrom, Memory.byteAt, if_neg hne, show i + (k + 1) = i + 1 + k by omega, ih]
      simp

theorem holding_inputIs {input : List Byte} (output : List Byte) (h : input.length ≤ 256) :
    (holding input output).InputIs input :=
  ⟨lenBits_toNat h, fun k _ => by
    have := byteAt_cellsFrom 0 k input
    rwa [Nat.zero_add] at this⟩

theorem holding_outputIs (input : List Byte) {output : List Byte} (h : output.length ≤ 256) :
    (holding input output).OutputIs output :=
  ⟨lenBits_toNat h, fun k _ => by
    have := byteAt_cellsFrom 0 k output
    rwa [Nat.zero_add] at this⟩

/-- The same, with an error recorded. -/
def failed (x : ErrorKind) (input output : List Byte) : State :=
  recordError x 0x0A31 (holding input output)

/-- `n` equal bytes. -/
def fill (n : Nat) (b : Byte) : List Byte := List.replicate n b

theorem length_fill (n : Nat) (b : Byte) : (fill n b).length = n := List.length_replicate

/-- The next state of an outcome. -/
def nextOf : Result → Option State
  | .next t => some t
  | _ => none

/-- The last response given. -/
def lastResponse (r : Result) : Option Word := (nextOf r).bind fun t => t.responses.getLast?

/-- The bytes of an ASCII text. -/
def ascii (s : String) : List Byte := textBytes s.toList

/-- A payload of 32 zero bytes with the checksum 0x5CC8 of 43_payload.md R108's example. -/
def zeroPayload : List Byte := 0x10 :: fill 32 0 ++ [0xC8, 0x5C]

/-- The address of 32 zero bytes (95_test_vectors.md V40). -/
def zeroAddress : List Byte := ascii "CAAAAAAAAAAAAAAAAAAAAAAAAAAAAAAAAAAAAAAAAAAAAAAAAAAABSC4"

/-! ### Well-formedness refuses ill-formed words (R45, R55) -/

theorem test_wellformed_refuses_reserved_opcode : (⟨0x08, 0x00⟩ : Fields).WellFormed = false := by
  decide +kernel
theorem test_wellformed_refuses_nonzero_low_byte : (⟨0x13, 0x01⟩ : Fields).WellFormed = false := by
  decide +kernel
theorem test_wellformed_refuses_reserved_register : (⟨0x07, 0x05⟩ : Fields).WellFormed = false := by
  decide +kernel
theorem test_wellformed_admits_boundary : (⟨0x07, 0x04⟩ : Fields).WellFormed = true ∧
    (⟨0x31, 0x00⟩ : Fields).WellFormed = true ∧ (⟨0x11, 0xFF⟩ : Fields).WellFormed = true := by
  decide +kernel

/-! ### Words written out from R49 -/

theorem test_decode_system :
    decode 0b0000000000000000#16 = .ok .nop ∧ decode 0b0000000100000000#16 = .ok .clr ∧
    decode 0b0000001000000000#16 = .ok .clre ∧ decode 0b0000001100000000#16 = .ok .clri := by
  decide +kernel
theorem test_decode_read_register :
    decode 0b0000011100000000#16 = .ok .rdrStatus ∧ decode 0b0000011100000001#16 = .ok .rdrEinfo ∧
    decode 0b0000011100000010#16 = .ok .rdrCrc ∧ decode 0b0000011100000011#16 = .ok .rdrIlen ∧
    decode 0b0000011100000100#16 = .ok .rdrOlen := by decide +kernel
theorem test_decode_buffer :
    decode 0b0000010001000011#16 = .ok (.st 0x43) ∧ decode 0b0000010111111110#16 = .ok (.ld 0xFE) ∧
    decode 0b0000011000000000#16 = .ok .movo := by decide +kernel
theorem test_decode_crc :
    decode 0b0001000000000000#16 = .ok .crcInit ∧
    decode 0b0001000110100101#16 = .ok (.crcByte 0xA5) ∧
    decode 0b0001001000000000#16 = .ok .crcBuf ∧ decode 0b0001001100000000#16 = .ok .crcSum := by
  decide +kernel
theorem test_decode_b32 :
    decode 0b0010000000000000#16 = .ok .b32Enc ∧ decode 0b0010000100000000#16 = .ok .b32Dec := by
  decide +kernel
theorem test_decode_pay :
    decode 0b0011000000000000#16 = .ok .payBuild ∧ decode 0b0011000100000000#16 = .ok .payParse :=
  by decide +kernel
/-- The illegal words of 95_test_vectors.md V61. -/
theorem test_decode_rejects :
    decode 0x0001#16 = .error .nonzeroLowByte ∧ decode 0x06FF#16 = .error .nonzeroLowByte ∧
    decode 0x0705#16 = .error .reservedRegister ∧ decode 0x07FF#16 = .error .reservedRegister ∧
    decode 0x0800#16 = .error .reservedOpcode ∧ decode 0x1400#16 = .error .reservedOpcode ∧
    decode 0x2200#16 = .error .reservedOpcode ∧ decode 0xFFFF#16 = .error .reservedOpcode := by
  decide +kernel
theorem test_decode_table_word :
    decodeTableWord 16 0x0537 = some (.ld 55) ∧ decodeTableWord 16 0x1301 = none := by
  decide +kernel

/-! ### Reset and step -/

theorem test_reset_memories_canonical : State.reset.ibuf.wf ∧ State.reset.obuf.wf := by
  decide +kernel
/-- R66: straight after reset every `LD` raises `E_RANGE`. -/
theorem test_step_runs_placed_word :
    lastResponse (step (State.reset.withFetchWord 16 0x0500)) = some 0x800B := by decide +kernel
theorem test_step_without_input : nextOf (step (holding [1] [2])) = some (holding [1] [2]) := by
  decide +kernel

/-! ### One command each, from the examples of its rule -/

theorem test_nop_in_error_state :
    lastResponse (exec .nop (failed .invalidChecksum [] [])) = some 0x8008 := by decide +kernel
theorem test_clr_leaves_fatal_state :
    (nextOf (exec .clr (failed .ePrecond [1] [2]))).map (fun t => (t.err, t.ff, t.ilen, t.olen)) =
      some (0, false, 0, 0) := by decide +kernel
theorem test_clre_clears_recoverable :
    (nextOf (exec .clre (failed .invalidPayloadLength [1] [2]))).map
      (fun t => (t.err, t.ilen, t.responses)) = some (0, 1, [0]) := by decide +kernel
theorem test_clre_keeps_fatal :
    lastResponse (exec .clre (failed .ePrecond [] [])) = some 0xC00D := by decide +kernel
theorem test_clri_keeps_output :
    (nextOf (exec .clri (holding (fill 35 0) [7]))).map (fun t => (t.ilen, t.olen)) = some (0, 1) :=
  by decide +kernel
theorem test_st_appends :
    (nextOf (exec (.st 0x10) (holding [] []))).map (fun t => (t.ibuf, t.ilen, t.responses)) =
      some ([(0, 0x10)], 1, [0]) := by decide +kernel
theorem test_st_when_full :
    (nextOf (exec (.st 0xAA) (holding (fill 256 0) []))).map (fun t => (t.ilen, t.responses)) =
      some (256, [0x800A]) := by decide +kernel
theorem test_ld_zero_extends :
    lastResponse (exec (.ld 33) (holding [] zeroPayload)) = some 0x00C8 := by decide +kernel
theorem test_ld_beyond_length :
    lastResponse (exec (.ld 35) (holding [] zeroPayload)) = some 0x800B := by decide +kernel
theorem test_movo_replaces_input :
    (nextOf (exec .movo (holding [1, 2, 3] [9, 8]))).map (fun t => (t.ibuf, t.ilen, t.olen)) =
      some ([(0, 9), (1, 8), (2, 3)], 2, 2) := by decide +kernel
theorem test_rdr_status :
    lastResponse (exec .rdrStatus (failed .invalidBase32Character [] [])) = some 0x8003 := by
  decide +kernel
theorem test_rdr_einfo :
    lastResponse (exec .rdrEinfo (failed .invalidBase32Character [] [])) = some 0x0A31 := by
  decide +kernel
theorem test_rdr_crc :
    lastResponse (exec .rdrCrc { State.reset with crc := 0x31C3 }) = some 0x31C3 := by
  decide +kernel
theorem test_rdr_ilen :
    lastResponse (exec .rdrIlen (holding (fill 256 1) [])) = some 0x0100 := by decide +kernel
theorem test_rdr_olen : lastResponse (exec .rdrOlen (holding [1] zeroPayload)) = some 0x0023 := by
  decide +kernel
theorem test_crc_init :
    (nextOf (exec .crcInit { State.reset with crc := 0x31C3 })).map State.crc = some 0 := by
  decide +kernel
theorem test_crc_byte : (nextOf (exec (.crcByte 0x01) State.reset)).map State.crc = some 0x1021 :=
  by decide +kernel
/-- 95_test_vectors.md V13. -/
theorem test_crc_byte_from_ones :
    (nextOf (exec (.crcByte 0) { State.reset with crc := 0xFFFF })).map State.crc = some 0xE1F0 :=
  by decide +kernel
theorem test_crc_buf_continues :
    (nextOf (exec .crcBuf { holding (ascii "56789") [] with crc := 0xD789 })).map State.crc =
      some 0x31C3 := by decide +kernel
theorem test_crc_sum_ignores_register :
    (nextOf (exec .crcSum { holding (ascii "123456789") [] with crc := 0xBEEF })).map State.crc =
      some 0x31C3 := by decide +kernel
theorem test_b32_enc :
    (nextOf (exec .b32Enc (holding [0x66] []))).map (fun t => (t.obuf, t.olen)) =
      some ([(0, 0x4D), (1, 0x59)], 2) := by decide +kernel
theorem test_b32_enc_too_long :
    (nextOf (exec .b32Enc (holding (fill 161 0) [5]))).map (fun t => (t.olen, t.responses)) =
      some (1, [0x800A]) := by decide +kernel
theorem test_b32_dec_folds_case :
    (nextOf (exec .b32Dec (holding (ascii "mY") []))).map (fun t => (t.obuf, t.olen)) =
      some ([(0, 0x66)], 1) := by decide +kernel
theorem test_b32_dec_bad_character :
    (nextOf (exec .b32Dec (holding (ascii "M1") [5]))).map
      (fun t => (t.einfo, t.olen, t.responses)) = some (0x0131, 1, [0x8003]) := by decide +kernel
theorem test_pay_build :
    (nextOf (exec .payBuild (holding (fill 32 0xFF) []))).map
      (fun t => (t.obuf.drop 33, t.olen, t.crc)) = some ([(33, 0x7C), (34, 0xD8)], 35, 0) := by
  decide +kernel
theorem test_pay_build_wrong_length : lastResponse (exec .payBuild State.reset) = some 0xC00D := by
  decide +kernel
theorem test_pay_parse :
    (nextOf (exec .payParse (holding zeroPayload []))).map (fun t => (t.olen, t.obuf)) =
      some (32, cellsOf (fill 32 0)) := by decide +kernel
/-- R109: the version is tested before the checksum, and the checksum is stored low byte first. -/
theorem test_pay_parse_order :
    lastResponse (exec .payParse (holding (0x11 :: fill 32 0 ++ [0x14, 0xD1]) [])) = some 0x8007 ∧
    lastResponse (exec .payParse (holding (0x10 :: fill 32 0 ++ [0x5C, 0xC8]) [])) = some 0x8008 :=
  by decide +kernel
theorem test_illegal_word : lastResponse (runWord 0x1301 State.reset) = some 0x800C := by
  decide +kernel

/-! ### The functions -/

/-- 95_test_vectors.md V23 and V27. -/
theorem test_base32_functions :
    b32Encode (ascii "foobar") = ascii "MZXW6YTBOI" ∧
    b32Decode 12 (ascii "MZXW6YTBOI") = .ok (ascii "foobar") := by decide +kernel
/-- 95_test_vectors.md V40 and V41. -/
theorem test_address_functions :
    addressEncode (fill 32 0) = zeroAddress ∧
    addressDecode Config.params zeroAddress = .ok (fill 32 0) := by decide +kernel
/-- 95_test_vectors.md V70. -/
theorem test_hex_text :
    toBytes Config.params (ascii " AbCd ") = .ok [0xAB, 0xCD] ∧
    toBytes Config.params (ascii "0g") = .error (.invalidHexCharacter 1) := by decide +kernel
/-- R121 and R124: the host refuses a text the block can not hold. -/
theorem test_host_refuses_long_text :
    (runDecode (fill 257 0x41) State.reset).map Prod.fst = some (.error .inputTooLong) := by
  decide +kernel
/-- R123: the kind and its data, read with one transaction, for the error of 95_test_vectors.md P5. -/
theorem test_host_reports_the_kind :
    (reportError (α := Unit) 0x8003 (failed .invalidBase32Character [] [])).map Prod.fst =
      some (.error (.invalidBase32Character 0x31 10)) := by decide +kernel
/-- The assembler notation of R58. -/
theorem test_assembler :
    assembleLine "RDR CRC ; the sum".toList = some [.rdrCrc] ∧
    assembleLine "ST.S \"AB\"".toList = some [.st 0x41, .st 0x42] ∧
    assembleLine "LD 55".toList = some [.ld 55] ∧ assembleLine "ST.H".toList = none := by decide +kernel

/-! ### Every obligation's hypotheses are met

One theorem per obligation, its name the obligation's, one conjunct per clause with hypotheses. -/

theorem witness_DecodeAndEncodeAreInverse :
    (Instr.st 0xFF).WellFormed = true ∧ decode 0x3100#16 = .ok .payParse := by decide +kernel

theorem witness_IllegalWordsRaiseOrAreSkipped :
    (decode 0x0FFF#16 = .error .reservedOpcode ∧ (holding [1] [2]).Ok) ∧
    (decode 0x0705#16 = .error .reservedRegister ∧ (failed .eCap [1] [2]).err ≠ 0) := by
  decide +kernel

theorem witness_StepRunsTheDecodedCommand :
    ({ State.reset with inputs := [.command 0x0410, .reset] } : State).inputs =
        .command 0x0410 :: [.reset] ∧
    decode 0x0410#16 = .ok (.st 0x10) ∧ State.reset.Ok ∧ Exempt (.st 0x10) = false ∧
    decode 0x0800#16 = .error .reservedOpcode ∧
    ({ failed .eRange [] [] with inputs := [.command 0x0410] } : State).err ≠ 0 := by decide +kernel

theorem witness_ResponseWordOfEveryCommand :
    (∃ t, exec (.st 1) (failed .eCap [] []) = .next t ∧ (failed .eCap [] []).err ≠ 0 ∧
      Exempt (.st 1) = false) ∧
    (∃ t, exec (.ld 2) (holding [] [5, 6]) = .next t ∧ (holding [] [5, 6]).err = 0 ∧ t.err ≠ 0) ∧
    (∃ t, exec (.ld 1) (holding [] [5, 6]) = .next t ∧ (holding [] [5, 6]).err = 0 ∧ t.err = 0) ∧
    (∃ t, exec .rdrStatus (holding [] []) = .next t) ∧
    (∃ t, exec .rdrEinfo (holding [] []) = .next t) ∧
    (∃ t, exec .rdrCrc (holding [] []) = .next t) ∧ (∃ t, exec .rdrIlen (holding [] []) = .next t) ∧
    (∃ t, exec .rdrOlen (holding [] []) = .next t) ∧
    (∃ t, exec .movo (holding [] [5]) = .next t ∧ t.Ok) ∧
    ∃ t, decode 0x1301#16 = .error .nonzeroLowByte ∧ runWord 0x1301 (holding [] []) = .next t :=
  ⟨⟨_, rfl, by decide, rfl⟩, ⟨_, rfl, by decide, by decide⟩, ⟨_, rfl, by decide, by decide⟩,
    ⟨_, rfl⟩, ⟨_, rfl⟩, ⟨_, rfl⟩, ⟨_, rfl⟩, ⟨_, rfl⟩, ⟨_, rfl, by decide⟩, ⟨_, rfl, rfl⟩⟩

theorem witness_StatusIsTheViewOfErrAndFf :
    State.reset.Ok ∧
    ((failed .eIllCmd [] []).err ≠ 0 ∧ (failed .eIllCmd [] []).ff = false) ∧
    (failed .ePrecond [] []).err = 13 ∧ (failed .ePrecond [] []).ff = true := by decide +kernel

theorem witness_HardwareResetStepFromAnyState :
    ({ failed .ePrecond [1] [2] with inputs := [.reset, .command 0] } : State).inputs =
      .reset :: [.command 0] := by decide +kernel

theorem witness_ClreClearsARecoverableError :
    (failed .eRange [1] [2]).ff = false ∧ (failed .ePrecond [1] [2]).ff = true ∧
    (failed .ePrecond [1] [2]).err = 13 := by decide +kernel

theorem witness_ClriEmptiesTheInputBuffer :
    (holding [1] [2]).Ok ∧ (failed .eRange [1] [2]).err ≠ 0 := by decide +kernel

theorem witness_RdrReadsTheFiveRegisters : 5 ≤ (5 : Byte).toNat ∧ 5 ≤ (255 : Byte).toNat := by
  decide +kernel

theorem witness_StAppendsOneByte :
    ((holding (fill 255 1) []).Ok ∧ (holding (fill 255 1) []).ilen.toNat < 256) ∧
    ((holding (fill 256 1) []).Ok ∧ (holding (fill 256 1) []).ilen.toNat = 256) ∧
    (failed .eRange [1] []).err ≠ 0 := by decide +kernel

theorem witness_LdReadsOneOutputByte :
    ((holding [] [8, 9]).Ok ∧ (1 : Byte).toNat < (holding [] [8, 9]).olen.toNat ∧
      (holding [] [8, 9]).obuf.byteAt (1 : Byte).toNat = some 9) ∧
    ((holding [] [8, 9]).Ok ∧ (holding [] [8, 9]).olen.toNat ≤ (2 : Byte).toNat) ∧
    (failed .eRange [] [8, 9]).err ≠ 0 := by decide +kernel

theorem witness_MovoCopiesTheOutputToTheInput :
    ((holding [1] []).Ok ∧ (holding [1] []).OutputIs []) ∧
    ((holding [1] (fill 256 3)).Ok ∧ (holding [1] (fill 256 3)).OutputIs (fill 256 3) ∧
      (fill 256 (3 : Byte)).length ≤ 256) ∧
    (failed .eRange [1] [2]).err ≠ 0 :=
  ⟨by decide, ⟨by decide, holding_outputIs _ (by rw [length_fill]), by rw [length_fill]⟩, by decide⟩

theorem witness_CrcInitZeroesTheRegister :
    ({ holding [1] [2] with crc := 0x31C3 } : State).Ok ∧ (failed .eRange [1] [2]).err ≠ 0 := by
  decide +kernel

theorem witness_CrcByteFeedsOneByte :
    ({ holding [1] [2] with crc := 0x31C3 } : State).Ok ∧ (failed .eRange [1] [2]).err ≠ 0 := by
  decide +kernel

theorem witness_CrcBufFeedsTheInputBuffer :
    ((holding [] [2]).Ok ∧ (holding [] [2]).InputIs []) ∧
    ((holding (fill 256 1) [2]).Ok ∧ (holding (fill 256 1) [2]).InputIs (fill 256 1)) ∧
    (failed .eRange [1] [2]).err ≠ 0 :=
  ⟨by decide, ⟨by decide, holding_inputIs _ (by rw [length_fill])⟩, by decide⟩

theorem witness_CrcSumIsTheChecksumOfTheInput :
    ((holding [] [2]).Ok ∧ (holding [] [2]).InputIs []) ∧
    ((holding (fill 256 1) [2]).Ok ∧ (holding (fill 256 1) [2]).InputIs (fill 256 1)) ∧
    (failed .eRange [1] [2]).err ≠ 0 :=
  ⟨by decide, ⟨by decide, holding_inputIs _ (by rw [length_fill])⟩, by decide⟩

theorem witness_B32EncEncodesTheInput :
    ((holding (fill 160 1) [2]).Ok ∧ (holding (fill 160 1) [2]).InputIs (fill 160 1) ∧
      (fill 160 (1 : Byte)).length ≤ 160) ∧
    ((holding (fill 161 1) [2]).Ok ∧ 160 < (holding (fill 161 1) [2]).ilen.toNat) ∧
    (failed .eRange [1] [2]).err ≠ 0 :=
  ⟨⟨by decide, holding_inputIs _ (by rw [length_fill]; decide), by rw [length_fill]⟩,
    ⟨by decide, by rw [(holding_inputIs _ (by rw [length_fill]; decide)).1, length_fill]; decide⟩,
    by decide⟩

theorem witness_B32DecDecodesTheInput :
    ((holding (fill 129 0x41) []).Ok ∧ 128 < (holding (fill 129 0x41) []).ilen.toNat) ∧
    ((holding (fill 128 0x41) []).Ok ∧ (holding (fill 128 0x41) []).InputIs (fill 128 0x41) ∧
      (fill 128 (0x41 : Byte)).length ≤ 128 ∧
      b32Decode 12 (fill 128 0x41) = .ok (fill 80 0)) ∧
    ((holding (ascii "M1") []).Ok ∧ (holding (ascii "M1") []).InputIs (ascii "M1") ∧
      (ascii "M1").length ≤ 128 ∧
      b32Decode 12 (ascii "M1") = .error (.invalidCharacter 0x31 1)) ∧
    (failed .eRange [1] [2]).err ≠ 0 :=
  ⟨⟨by decide, by rw [(holding_inputIs _ (by rw [length_fill]; decide)).1, length_fill]; decide⟩,
    ⟨by decide, holding_inputIs _ (by rw [length_fill]; decide), by rw [length_fill],
      by decide +kernel⟩,
    by decide +kernel, by decide⟩

theorem witness_B32DecOnEveryConformingBlock :
    ({ b32MaxIn := 58, accW := 13 } : Config.Params).Conforming ∧
    ({ b32MaxIn := 256 } : Config.Params).Conforming ∧
    (holding (fill 58 0x41) []).ilen.toNat ≤ 58 ∧
    ((holding (fill 59 0x41) []).Ok ∧ 58 < (holding (fill 59 0x41) []).ilen.toNat) ∧
    ((holding (fill 58 0x41) []).Ok ∧ (holding (fill 58 0x41) []).InputIs (fill 58 0x41) ∧
      (fill 58 (0x41 : Byte)).length ≤ 58 ∧ b32Decode 13 (fill 58 0x41) = .ok (fill 36 0)) ∧
    ((holding (ascii "M1") []).Ok ∧ (holding (ascii "M1") []).InputIs (ascii "M1") ∧
      (ascii "M1").length ≤ 58 ∧
      b32Decode 13 (ascii "M1") = .error (.invalidCharacter 0x31 1)) ∧
    (failed .eRange [1] [2]).err ≠ 0 := by decide +kernel

theorem witness_PayBuildMarshalsThePayload :
    ((holding (fill 32 7) [2]).Ok ∧ (holding (fill 32 7) [2]).InputIs (fill 32 7) ∧
      (fill 32 (7 : Byte)).length = 32) ∧
    ((holding (fill 33 7) [2]).Ok ∧ (holding (fill 33 7) [2]).ilen.toNat ≠ 32) ∧
    (failed .eRange [1] [2]).err ≠ 0 := by decide +kernel

theorem witness_PayParseValidatesThePayload :
    ((holding (fill 34 0x11) []).Ok ∧ (holding (fill 34 0x11) []).InputIs (fill 34 0x11) ∧
      (fill 34 (0x11 : Byte)).length ≠ 35) ∧
    ((holding (fill 35 0x11) []).Ok ∧ (holding (fill 35 0x11) []).InputIs (fill 35 0x11) ∧
      (fill 35 (0x11 : Byte)).length = 35 ∧ (fill 35 (0x11 : Byte))[0]? ≠ some 0x10) ∧
    ((holding (fill 35 0x10) []).Ok ∧ (holding (fill 35 0x10) []).InputIs (fill 35 0x10) ∧
      (fill 35 (0x10 : Byte)).length = 35 ∧ (fill 35 (0x10 : Byte))[0]? = some 0x10 ∧
      (fill 35 (0x10 : Byte))[33]? = some 0x10 ∧ (fill 35 (0x10 : Byte))[34]? = some 0x10 ∧
      ((fill 35 (0x10 : Byte)).take 33).foldl crcUpdate 0x0000#16 ≠ 0x10#8 ++ 0x10#8) ∧
    ((holding zeroPayload []).Ok ∧ (holding zeroPayload []).InputIs zeroPayload ∧
      zeroPayload.length = 35 ∧ zeroPayload[0]? = some 0x10 ∧ zeroPayload[33]? = some 0xC8 ∧
      zeroPayload[34]? = some 0x5C ∧
      (zeroPayload.take 33).foldl crcUpdate 0x0000#16 = 0x5C#8 ++ 0xC8#8) ∧
    (failed .eRange [1] [2]).err ≠ 0 := by decide +kernel

theorem witness_RaiseWritesTheErrorRegisters : (holding [1] [2]).Ok := by decide +kernel

theorem witness_ErrorsArePrecise :
    ∃ t, (holding [1] [2]).Ok ∧ exec (.ld 1) (holding [1] [2]) = .next t ∧ t.err ≠ 0 ∧
      t.ff = false ∧ (holding [1] [2]).einfo = 0 :=
  ⟨_, by decide, rfl, by decide, rfl, rfl⟩

theorem witness_ErrorStateSkipsEveryOtherCommand :
    (failed .eRange [1] [2]).err ≠ 0 ∧ 0x0705#16 ∉ [0x0000#16, 0x0100#16, 0x0200#16, 0x0700#16,
      0x0701#16, 0x0702#16, 0x0703#16, 0x0704#16] := by decide +kernel

theorem witness_CommandsRaiseOnlyTheirCodes :
    (∃ t, (holding [] []).err = 0 ∧ exec .payParse (holding [] []) = .next t) ∧
    ∃ t, (holding [] []).err = 0 ∧ decode 0x0001#16 = .error .nonzeroLowByte ∧
      runWord 0x0001 (holding [] []) = .next t :=
  ⟨⟨_, rfl, rfl⟩, ⟨_, rfl, rfl, rfl⟩⟩

theorem witness_FirstErrorStaysUntilCleared :
    (∃ t, (failed .eRange [1] [2]).err ≠ 0 ∧ runWord 0x0200 (failed .eRange [1] [2]) = .next t) ∧
    ∃ t, runInput .reset (failed .ePrecond [1] [2]) = .next t :=
  ⟨⟨_, by decide, rfl⟩, ⟨_, rfl⟩⟩

theorem witness_FatalStateOnlyByBuildAndLeftOnlyByClear :
    (∃ t, (holding [1] []).ff = false ∧ runWord 0x3000 (holding [1] []) = .next t ∧ t.ff = true) ∧
    (∃ t, (failed .ePrecond [1] []).ff = true ∧ (failed .ePrecond [1] []).err = 13 ∧
      runWord 0x0200 (failed .ePrecond [1] []) = .next t ∧ (0x0200#16 : Word) ≠ 0x0100#16) ∧
    (∃ t, runWord 0x0100 (failed .ePrecond [1] []) = .next t) ∧
    ∃ t, runInput .reset (failed .ePrecond [1] []) = .next t :=
  ⟨⟨_, rfl, rfl, by decide⟩, ⟨_, by decide, by decide, rfl, by decide⟩, ⟨_, rfl⟩, ⟨_, rfl⟩⟩

theorem witness_EveryReachableStateIsLegal :
    ∃ t, step { State.reset with inputs := [.command 0x3000] } = .next t ∧ Reachable t :=
  ⟨_, rfl, [.command 0x3000], .tail (.refl _) rfl⟩

theorem witness_EveryStepKeepsTheInvariant :
    ∃ t, ({ holding [1, 2] [3] with inputs := [.command 0x2000] } : State).Inv ∧
      step { holding [1, 2] [3] with inputs := [.command 0x2000] } = .next t :=
  ⟨_, by decide, rfl⟩

theorem witness_EveryWordAnswersUnderTheInvariant : (holding [1, 2, 3] [4, 5]).Inv := by
  decide +kernel

/-- Two states that differ in a byte beyond the lengths and in `ACC` and `NB`. -/
theorem witness_HiddenBytesAndRegistersAreUnobservable :
    ∃ t, (holding [1] [2]).Inv ∧
      ({ holding [1] [2] with ibuf := [(0, 1), (9, 5)], acc := 1, nb := 3 } : State).Inv ∧
      (holding [1] [2]).view =
        ({ holding [1] [2] with ibuf := [(0, 1), (9, 5)], acc := 1, nb := 3 } : State).view ∧
      runInput (.command 0x2000) (holding [1] [2]) = .next t :=
  ⟨_, by decide, by decide, by decide, rfl⟩

/-- `B32.DEC` of one text in two states that differ elsewhere. -/
theorem witness_UnitResultsDependOnTheInputAlone :
    ∃ t t', (holding (ascii "MY") []).Ok ∧ ({ holding (ascii "MY") [7] with crc := 5 } : State).Ok ∧
      (holding (ascii "MY") []).InputIs (ascii "MY") ∧
      ({ holding (ascii "MY") [7] with crc := 5 } : State).InputIs (ascii "MY") ∧
      exec .b32Dec (holding (ascii "MY") []) = .next t ∧
      exec .b32Dec { holding (ascii "MY") [7] with crc := 5 } = .next t' ∧ t.err = 0 :=
  ⟨_, _, by decide, by decide, by decide, by decide, rfl, rfl, by decide⟩

theorem witness_BufferAccessesReadWhatWasWritten :
    255 < 256 ∧ 256 ≤ 256 ∧ (holding [1, 2] []).ilen.toNat ≤ 2 ∧ (Space.obuf, 255) ≠ (.ibuf, 255) ∧
    (holding [1, 2] []).ibuf.wf ∧ 1 < (lenOf .ibuf (holding [1, 2] [])).toNat := by decide +kernel

theorem witness_CrcRoundIsTheShiftRegister : 15 < 16 ∧ 0 < 16 := by decide +kernel

theorem witness_ChecksumLaws : (ascii "1234").length = (ascii "5678").length := by decide +kernel

theorem witness_ChecksumDetectsEverySingleBitError : 0 < 8 ∧ 7 < 8 := by decide +kernel

theorem witness_AlphabetAndInverse :
    31 < 32 ∧ b32Inv 0x37 = some 31 ∧ b32Inv (upcase 0x3D) = none := by decide +kernel

theorem witness_DecoderCutsTheBitString :
    12 ≤ 12 ∧ (ascii "m7").map (fun ch => b32Inv (upcase ch)) = [12, 31].map some := by
  decide +kernel

theorem witness_DecoderReportsTheFirstBadCharacter :
    12 ≤ 12 ∧ (∀ c ∈ ascii "m", (b32Inv (upcase c)).isSome) ∧ b32Inv (upcase 0x3D) = none := by
  decide +kernel

theorem witness_EncodedLengthLaw : zeroPayload.length = 35 := by decide +kernel

theorem witness_DecodedLengthLaw : b32Decode 12 (ascii "MZXW6") = .ok (ascii "foo") := by
  decide +kernel

theorem witness_DecodingInvertsEncoding :
    0x3D#8 ∈ ascii "MY=" ∧ 0x33#8 ∈ [0x59#8, 0x5A, 0x32, 0x33] ∧
    (b32Decode 12 (ascii "MY") = .ok [0x66] ∧ b32Encode [0x66] = ascii "MY") ∧
    b32Decode 12 (ascii "MZ") = .ok [0x66] ∧ (ascii "MZ").map upcase = ascii "MZ" ∧
      (ascii "MZ").length = (1 * 8 + 4) / 5 ∧
      (b32DecodeFrom 12 0 (ascii "MZ") ⟨0, 0⟩).1.acc ≠ 0 := by
  decide +kernel

theorem witness_AccumulatorNeverOverflows : 12 ≤ 12 := by decide +kernel

theorem witness_PayloadLayout : (fill 32 (9 : Byte)).length = 32 ∧ 31 < 32 := by decide +kernel

theorem witness_ParseAcceptsExactlyTheBuiltPayloads :
    (fill 32 (0 : Byte)).length = 32 ∧ payloadParse zeroPayload = .ok (fill 32 0) := by
  decide +kernel

theorem witness_SingleBitFlipIsRefused :
    payloadParse zeroPayload = .ok (fill 32 0) ∧ (0 < 35 ∧ 0 < 8 ∧ zeroPayload[0]? = some 0x10) ∧
    34 < 35 ∧ 7 < 8 ∧ zeroPayload[34]? = some 0x5C := by decide +kernel

theorem witness_AddressRoundTrip :
    ({ b32MaxIn := 58 } : Config.Params).Conforming ∧ (fill 32 (0xFF : Byte)).length = 32 := by
  decide +kernel

theorem witness_HexTextRoundTrip : toBytes Config.params (ascii " 00fF") = .ok [0x00, 0xFF] := by
  decide +kernel

theorem witness_CodecRoundTrip : (fill 32 (0xA5 : Byte)).length = 32 := by decide +kernel

theorem witness_AddressDecodeRejectsInOrder :
    128 < (fill 129 (0x41 : Byte)).length ∧
    ((fill 128 (0x31 : Byte)).length ≤ 128 ∧
      ∃ c ∈ fill 128 (0x31 : Byte), b32Inv (upcase c) = none) ∧
    ((fill 58 (0x41 : Byte)).length ≤ 128 ∧
      (∀ c ∈ fill 58 (0x41 : Byte), (b32Inv (upcase c)).isSome) ∧
      (fill 58 (0x41 : Byte)).length ≠ 56 ∧ (fill 58 (0x41 : Byte)).length ≠ 57) ∧
    (fill 32 (0 : Byte)).length = 32 ∧ (0x11 : Byte) ≠ 0x10 := by
  simp only [length_fill]
  exact ⟨by decide, ⟨by decide, 0x31, List.mem_replicate.2 ⟨by decide, rfl⟩, by decide⟩,
    ⟨by decide, fun c hc => by rw [List.eq_of_mem_replicate hc]; decide, by decide, by decide⟩,
    trivial, by decide⟩

end Sys2Proof.Tests
end

section
/-! PROOFS. What each shared operation does to the invariant, and that both base-32 loops leave the
working registers within it. -/

namespace Sys2Proof.Machine

/-! ### The base-32 loops keep R99's bound on the working registers -/

/-- At most `k` bits are not yet emitted, and the accumulator holds no others (R99). -/
def Bits.Within (k : Nat) (w : Bits) : Prop := w.nb ≤ k ∧ w.acc < 2 ^ w.nb

theorem Bits.within_zero (k : Nat) : (⟨0, 0⟩ : Bits).Within k := ⟨Nat.zero_le k, Nat.one_pos⟩

theorem Bits.Within.mono {j k : Nat} {w : Bits} (hw : w.Within j) (hjk : j ≤ k) : w.Within k :=
  ⟨hw.1.trans hjk, hw.2⟩

theorem keepBits_within {nb k : Nat} (acc : Nat) (h : nb ≤ k) :
    (⟨keepBits acc nb, nb⟩ : Bits).Within k :=
  ⟨h, keepBits_lt acc nb⟩

/-- Bits pushed in below the unemitted ones leave the accumulator within the longer count. -/
theorem shiftIn_lt {acc nb v k : Nat} (hacc : acc < 2 ^ nb) (hv : v < 2 ^ k) :
    (acc <<< k) ||| v < 2 ^ (nb + k) :=
  Nat.or_lt_two_pow (Nat.shiftLeft_lt hacc)
    (hv.trans_le (Nat.pow_le_pow_right (by decide) (Nat.le_add_left k nb)))

theorem pushByte_lt {w : Bits} (h : w.acc < 2 ^ w.nb) (b : Byte) :
    (pushByte w b).acc < 2 ^ (pushByte w b).nb :=
  shiftIn_lt h b.isLt

/-- With turns enough, the inner loop of R93 ends with fewer than five bits. -/
theorem emitGroups_within {turns : Nat} {w : Bits} (hturns : w.nb < 5 * (turns + 1))
    (hacc : w.acc < 2 ^ w.nb) : (emitGroups turns w).2.Within 4 := by
  induction turns generalizing w with
  | zero => exact ⟨by simp only [emitGroups]; omega, hacc⟩
  | succ turns ih =>
    by_cases hnb : 5 ≤ w.nb
    · rw [emitGroups_of_many turns hnb]
      exact ih (show w.nb - 5 < 5 * (turns + 1) by omega) (keepBits_lt w.acc (w.nb - 5))
    · rw [emitGroups_of_few _ (by omega)]
      exact ⟨by simp only; omega, hacc⟩

theorem b32EncodeFrom_within {data : List Byte} {w : Bits} (hw : w.Within 4) :
    (b32EncodeFrom data w).2.Within 4 := by
  induction data generalizing w with
  | nil => exact hw
  | cons b bs ih => exact ih (emitGroups_within (by omega) (pushByte_lt hw.2 b))

theorem b32Inv_lt {u : Byte} {v : Nat} (h : b32Inv u = some v) : v < 32 := by
  unfold b32Inv at h
  split at h
  · obtain rfl := Option.some.inj h
    omega
  · split at h
    · obtain rfl := Option.some.inj h
      omega
    · simp at h

/-- The decoder's variables stay bounded wherever it stops, whatever the width of its guard. -/
theorem b32DecodeFrom_within {accW pos : Nat} {text : List Byte} {w : Bits} (hw : w.Within 7) :
    (b32DecodeFrom accW pos text w).1.Within 7 := by
  induction text generalizing pos w with
  | nil => exact hw
  | cons ch rest ih =>
    cases hv : b32Inv (upcase ch) with
    | none => rwa [b32DecodeFrom_of_bad hv]
    | some v =>
      have hacc : (w.acc <<< 5) ||| v < 2 ^ (w.nb + 5) := shiftIn_lt hw.2 (b32Inv_lt hv)
      by_cases hguard : w.nb + 5 ≤ accW
      · by_cases hbyte : 8 ≤ w.nb + 5
        · rw [b32DecodeFrom_of_many hv hguard hbyte]
          exact ih (keepBits_within _ (by have := hw.1; omega))
        · rw [b32DecodeFrom_of_few hv hguard (by omega)]
          exact ih ⟨by simp only; omega, hacc⟩
      · rw [b32DecodeFrom, hv]
        simp only [if_pos (Nat.lt_of_not_le hguard)]
        exact hw

/-! ### Bytes stored from index 0 -/

/-- The bytes delivered are the valid bytes, whatever the buffer held (R14). -/
theorem byteAt_storeFrom_zero {bs : List Byte} {i : Nat} (m : Memory) (h : i < bs.length) :
    (storeFrom m 0 bs).byteAt i = bs[i]? := by
  rw [byteAt_storeFrom, if_pos (by omega), Nat.sub_zero]

/-! ### What each operation does to the invariant -/

theorem buffersHeld_of_inv {s : State} (hs : s.Inv) : s.BuffersHeld := by
  obtain ⟨-, hheld, -⟩ := hs
  exact hheld

/-- Outside an error state the fatal flag is clear (R22). -/
theorem ff_of_inv {s : State} (hs : s.Inv) (he : s.err = 0) : s.ff = false := by
  obtain ⟨⟨-, -, -, hff, -⟩, -⟩ := hs
  rw [he] at hff
  simpa using hff

theorem legalCode_zero : LegalCode 0 := by decide

theorem inv_respond {s : State} (hs : s.Inv) (v : Word) : (respond v s).Inv := hs

/-- A command that only responds from a state of the invariant. -/
theorem inv_next_respond {v : Word} {s t : State} (hs : s.Inv)
    (h : .next (respond v s) = (.next t : Result)) : t.Inv :=
  Host.Outcome.next.inj h ▸ inv_respond hs v

theorem inv_setCrc {s : State} (hs : s.Inv) (c : Word) : (setCrc c s).Inv := hs

theorem inv_setWork {s : State} {w : Bits} (hs : s.Inv) (hw : w.Within 7) : (setWork w s).Inv := by
  obtain ⟨hregs, hheld, -, hmem⟩ := hs
  obtain ⟨hnb, hacc⟩ := hw
  have hsmall : w.acc < 2 ^ 7 := hacc.trans_le (Nat.pow_le_pow_right (by decide) hnb)
  refine ⟨hregs, hheld, ?_, hmem⟩
  have hnb' : (BitVec.ofNat 4 w.nb).toNat = w.nb := by rw [BitVec.toNat_ofNat]; omega
  have hacc' : (BitVec.ofNat 12 w.acc).toNat = w.acc := by rw [BitVec.toNat_ofNat]; omega
  simpa only [State.WorkBounded, setWork_nb, setWork_acc, hnb', hacc'] using And.intro hnb hacc

theorem code_eq_thirteen_iff {x : ErrorKind} : x.code = 13#4 ↔ x = .ePrecond := by
  cases x <;> simp [ErrorKind.code]

theorem code_eq_three_iff {x : ErrorKind} : x.code = 3#4 ↔ x = .invalidBase32Character := by
  cases x <;> simp [ErrorKind.code]

/-- Error entry from the OK state sets `FF` with code 13 alone and keeps `EINFO` with code 3 alone. -/
theorem inv_recordError {s : State} {x : ErrorKind} (hs : s.Inv) (he : s.err = 0)
    (hx : LegalCode x.code) (info : Word) : (recordError x info s).Inv := by
  have hff := ff_of_inv hs he
  obtain ⟨⟨hilen, holen, -⟩, hrest⟩ := hs
  refine ⟨⟨hilen, holen, hx, ?_, ?_⟩, hrest⟩
  · simp [hff, code_eq_thirteen_iff]
  · simp +contextual [code_eq_three_iff]

theorem inv_raise {s t : State} {x : ErrorKind} {info : Word} (hs : s.Inv) (he : s.err = 0)
    (hx : LegalCode x.code) (h : raise x info s = .next t) : t.Inv := by
  exact inv_next_respond (inv_recordError hs he hx info) h

theorem inv_clearError {s : State} (hs : s.Inv) : (clearError s).Inv := by
  cases hff : s.ff with
  | true => rwa [clearError_of_fatal hff]
  | false =>
    rw [clearError_of_not_fatal hff]
    obtain ⟨⟨hilen, holen, -⟩, hrest⟩ := hs
    exact ⟨⟨hilen, holen, legalCode_zero, by simp [hff], by simp⟩, hrest⟩

theorem inv_clearAll {s : State} (hs : s.Inv) : (clearAll s).Inv := by
  obtain ⟨-, -, hwork, hmem⟩ := hs
  exact ⟨⟨by simp, by simp, legalCode_zero, by simp, by simp⟩, ⟨by simp, by simp⟩, hwork, hmem⟩

/-- The registers of R24 with nothing listed in either buffer meet every clause. -/
theorem inv_reset (inputs : List HostInput) : ({ State.reset with inputs := inputs } : State).Inv :=
  ⟨(by decide : State.reset.RegistersLegal), ⟨nofun, nofun⟩,
    (by decide : State.reset.WorkBounded), Memory.nil_wf, Memory.nil_wf⟩

theorem inv_hardwareReset (s : State) : (hardwareReset s).Inv := inv_reset s.inputs

theorem inv_setIlen_zero {s : State} (hs : s.Inv) : (setIlen 0 s).Inv := by
  obtain ⟨⟨-, hregs⟩, ⟨-, hheld⟩, hrest⟩ := hs
  exact ⟨⟨by simp, hregs⟩, ⟨by simp, hheld⟩, hrest⟩

/-- Bytes stored at the start of `IBUF`, their number in `ILEN` (R67). -/
theorem inv_storeInput {s : State} {bs : List Byte} {n : BitVec 9} (hs : s.Inv)
    (hn : n.toNat = bs.length) (hfit : bs.length ≤ 256) :
    ({ s with ibuf := storeFrom s.ibuf 0 bs, ilen := n } : State).Inv := by
  obtain ⟨⟨-, hregs⟩, ⟨-, hout⟩, hwork, hin, ho⟩ := hs
  refine ⟨⟨by simp only; omega, hregs⟩, ⟨fun i hi => ?_, hout⟩, hwork,
    storeFrom_wf hin (by omega), ho⟩
  have hi : i < bs.length := hn ▸ hi
  simp [byteAt_storeFrom_zero _ hi, hi]

/-- Bytes stored at the start of `OBUF`, their number in `OLEN` (R14). -/
theorem inv_storeOutput {s : State} {bs : List Byte} {n : BitVec 9} (hs : s.Inv)
    (hn : n.toNat = bs.length) (hfit : bs.length ≤ 256) :
    ({ s with obuf := storeFrom s.obuf 0 bs, olen := n } : State).Inv := by
  obtain ⟨⟨hilen, -, hregs⟩, ⟨hinput, -⟩, hwork, hi, ho⟩ := hs
  refine ⟨⟨hilen, by simp only; omega, hregs⟩, ⟨hinput, fun i hi => ?_⟩, hwork, hi,
    storeFrom_wf ho (by omega)⟩
  have hi : i < bs.length := hn ▸ hi
  simp [byteAt_storeFrom_zero _ hi, hi]

theorem inv_deliver {s t : State} {bs : List Byte} (hs : s.Inv) (h : deliver bs s = .next t) :
    t.Inv := by
  obtain ⟨hfit, rfl⟩ := deliver_next h
  exact inv_respond (inv_storeOutput hs (lenBits_toNat hfit) hfit) _

theorem toNat_add_one_of_lt {n : BitVec 9} (h : n.toNat < 256) : (n + 1).toNat = n.toNat + 1 := by
  bv_omega

/-- One byte stored at index `ILEN`, which then counts it (R65). -/
theorem inv_appendInput {s : State} (hs : s.Inv) (b : Byte) (hl : s.ilen.toNat < 256) :
    ({ s with ibuf := s.ibuf.store s.ilen.toNat b, ilen := s.ilen + 1 } : State).Inv := by
  obtain ⟨⟨-, hregs⟩, ⟨hinput, hout⟩, hwork, hin, ho⟩ := hs
  have hlen := toNat_add_one_of_lt hl
  refine ⟨⟨by simp only [hlen]; omega, hregs⟩, ⟨fun i hi => ?_, hout⟩, hwork,
    Memory.store_wf b hl hin, ho⟩
  simp only [hlen] at hi
  simp only [Memory.byteAt_store]
  split
  · rfl
  · exact hinput i (by omega)

end Sys2Proof.Machine
end

section
/-! PROOFS. The invariant of R22 and R99: it holds after reset, every command and the hardware reset
keep it, so it holds of every reachable state. -/

namespace Sys2Proof.Machine

/-! ### Every command keeps the invariant -/

theorem inv_illegalCommand {s t : State} (hs : s.Inv) (h : illegalCommand s = .next t) : t.Inv := by
  rcases unlessError_next h with ⟨he, hraise⟩ | ⟨-, rfl⟩
  · exact inv_raise hs he (by decide) hraise
  · exact inv_respond hs _

theorem inv_exec_st {imm : Byte} {s t : State} (hs : s.Inv) (h : exec (.st imm) s = .next t) :
    t.Inv := by
  rcases exec_st_next h with ⟨-, rfl⟩ | ⟨he, -, rfl⟩ | ⟨-, hl, rfl⟩
  · exact inv_respond hs _
  · exact inv_respond (inv_recordError hs he (by decide) 0) _
  · exact inv_respond (inv_appendInput hs imm hl) _

theorem inv_exec_ld {imm : Byte} {s t : State} (hs : s.Inv) (h : exec (.ld imm) s = .next t) :
    t.Inv := by
  rcases exec_ld_next h with ⟨-, rfl⟩ | ⟨he, -, rfl⟩ | ⟨-, -, b, -, rfl⟩
  · exact inv_respond hs _
  · exact inv_respond (inv_recordError hs he (by decide) 0) _
  · exact inv_respond hs _

theorem inv_exec_movo {s t : State} (hs : s.Inv) (h : exec .movo s = .next t) : t.Inv := by
  rcases exec_movo_next h with ⟨-, rfl⟩ | ⟨-, data, ⟨hlen, -⟩, hfit, rfl⟩
  · exact inv_respond hs _
  · exact inv_respond (inv_storeInput hs hlen hfit) _

theorem inv_exec_b32Enc {s t : State} (hs : s.Inv) (h : exec .b32Enc s = .next t) : t.Inv := by
  rcases exec_b32Enc_next h with ⟨-, rfl⟩ | ⟨he, -, hraise⟩ | ⟨-, -, data, -, hdeliver⟩
  · exact inv_respond hs _
  · exact inv_raise (inv_setWork hs (Bits.within_zero 7)) he (by decide) hraise
  · have hwork := b32EncodeFrom_within (data := data) (Bits.within_zero 4)
    exact inv_deliver (inv_setWork hs (hwork.mono (by decide))) hdeliver

theorem inv_b32DecEnd {s t : State} {r : Bits × Except B32Error (List Byte)} (hs : s.Inv)
    (he : s.err = 0) (hr : r.1.Within 7) (h : b32DecEnd s r = .next t) : t.Inv := by
  have hw := inv_setWork hs hr
  match r with
  | (_, .error (.invalidCharacter _ _)) => exact inv_raise hw he (by decide) h
  | (_, .error .malformedInput) => exact inv_raise hw he (by decide) h
  | (_, .ok _) => exact inv_deliver hw h

theorem inv_b32DecWith {p : Config.Params} {s t : State} (hs : s.Inv)
    (h : b32DecWith p s = .next t) : t.Inv := by
  rcases b32DecWith_next h with ⟨-, rfl⟩ | ⟨he, -, hraise⟩ | ⟨he, -, text, -, hend⟩
  · exact inv_respond hs _
  · exact inv_raise (inv_setWork hs (Bits.within_zero 7)) he (by decide) hraise
  · exact inv_b32DecEnd hs he (b32DecodeFrom_within (Bits.within_zero 7)) hend

theorem inv_exec_payBuild {s t : State} (hs : s.Inv) (h : exec .payBuild s = .next t) : t.Inv := by
  rcases exec_payBuild_next h with ⟨-, rfl⟩ | ⟨he, -, hraise⟩ | ⟨-, hash, -, -, hdeliver⟩
  · exact inv_respond hs _
  · exact inv_raise hs he (by decide) hraise
  · exact inv_deliver hs hdeliver

/-- Every error of `payload_parse` is a code the block writes (R22). -/
theorem legalCode_of_payloadParse {p : List Byte} {x : ErrorKind}
    (h : payloadParse p = .error x) : LegalCode x.code := by
  rcases payloadParse_error h with rfl | rfl | rfl <;> decide

theorem inv_exec_payParse {s t : State} (hs : s.Inv) (h : exec .payParse s = .next t) : t.Inv := by
  rcases exec_payParse_next h with ⟨-, rfl⟩ | ⟨he, p, -, hend⟩
  · exact inv_respond hs _
  · cases hp : payloadParse p with
    | error x =>
      rw [hp] at hend
      exact inv_raise hs he (legalCode_of_payloadParse hp) hend
    | ok hash =>
      rw [hp] at hend
      exact inv_deliver hs hend

/-- A command that ends by completing from a state of the invariant, if the error-state test lets it
run. -/
theorem inv_unlessError_complete {s t : State} {f : State → State} (hs : s.Inv) (hf : (f s).Inv)
    (h : unlessError s (fun s => complete (f s)) = .next t) : t.Inv := by
  rcases unlessError_next h with ⟨-, hcomplete⟩ | ⟨-, rfl⟩
  · exact inv_next_respond hf hcomplete
  · exact inv_respond hs _

theorem inv_exec {i : Instr} {s t : State} (hs : s.Inv) (h : exec i s = .next t) : t.Inv := by
  cases i with
  | nop => exact inv_next_respond hs h
  | clr => exact inv_next_respond (inv_clearAll hs) h
  | clre => exact inv_next_respond (inv_clearError hs) h
  | clri => exact inv_unlessError_complete hs (inv_setIlen_zero hs) h
  | st imm => exact inv_exec_st hs h
  | ld imm => exact inv_exec_ld hs h
  | movo => exact inv_exec_movo hs h
  | rdrStatus => exact inv_next_respond hs h
  | rdrEinfo => exact inv_next_respond hs h
  | rdrCrc => exact inv_next_respond hs h
  | rdrIlen => exact inv_next_respond hs h
  | rdrOlen => exact inv_next_respond hs h
  | crcInit => exact inv_unlessError_complete hs (inv_setCrc hs _) h
  | crcByte imm => exact inv_unlessError_complete hs (inv_setCrc hs _) h
  | crcBuf =>
    rcases exec_crcBuf_next h with ⟨-, rfl⟩ | ⟨-, data, -, rfl⟩
    · exact inv_respond hs _
    · exact inv_respond (inv_setCrc hs _) _
  | crcSum =>
    rcases exec_crcSum_next h with ⟨-, rfl⟩ | ⟨-, data, -, rfl⟩
    · exact inv_respond hs _
    · exact inv_respond (inv_setCrc hs _) _
  | b32Enc => exact inv_exec_b32Enc hs h
  | b32Dec => exact inv_b32DecWith hs h
  | payBuild => exact inv_exec_payBuild hs h
  | payParse => exact inv_exec_payParse hs h

theorem runWord_of_ok {w : Word} {i : Instr} (h : decode w = .ok i) (s : State) :
    runWord w s = exec i s := by
  rw [runWord, h]

theorem runWord_of_error {w : Word} {k : Illegal} (h : decode w = .error k) (s : State) :
    runWord w s = illegalCommand s := by
  rw [runWord, h]

theorem inv_runWord {w : Word} {s t : State} (hs : s.Inv) (h : runWord w s = .next t) : t.Inv := by
  cases hw : decode w with
  | ok i => exact inv_exec hs (runWord_of_ok hw s ▸ h)
  | error k => exact inv_illegalCommand hs (runWord_of_error hw s ▸ h)

theorem inv_runInput {x : HostInput} {s t : State} (hs : s.Inv) (h : runInput x s = .next t) :
    t.Inv := by
  cases x with
  | command w => exact inv_runWord hs h
  | reset => exact Host.Outcome.next.inj h ▸ inv_hardwareReset s

theorem inv_step {s t : State} (hs : s.Inv) (h : step s = .next t) : t.Inv := by
  cases hin : s.inputs with
  | nil =>
    rw [step_of_nil hin] at h
    exact Host.Outcome.next.inj h ▸ hs
  | cons x rest =>
    rw [step_of_cons hin] at h
    exact inv_runInput (s := { s with inputs := rest }) hs h

theorem inv_of_follows {s t : State} (hs : s.Inv) (h : Follows s t) : t.Inv := by
  induction h with
  | refl => exact hs
  | tail _ hstep ih => exact inv_step ih hstep

theorem inv_of_reachable {s : State} (h : Reachable s) : s.Inv := by
  obtain ⟨inputs, hfollows⟩ := h
  exact inv_of_follows (inv_reset inputs) hfollows

/-! ### The obligations on the invariant -/

/-- Settles O35: the registers of R24 meet R22, and no byte is listed. -/
theorem resetMeetsTheInvariant : Obligations.ResetMeetsTheInvariant := inv_reset

/-- Settles O34: by the command the step runs, each of its next states made of operations that keep
the invariant. -/
theorem everyStepKeepsTheInvariant : Obligations.EveryStepKeepsTheInvariant :=
  fun _ _ => inv_step

/-- Settles O33: the invariant holds after reset and every step keeps it, so it holds along every
run; R22 is its clause on the registers. -/
theorem everyReachableStateIsLegal : Obligations.EveryReachableStateIsLegal := by
  intro s hs
  obtain ⟨hregs, -⟩ := inv_of_reachable hs
  exact hregs

end Sys2Proof.Machine
end

section
/-! PROOFS. What a program can observe of a state is all that a command works on: two states that
observe alike answer every input alike. -/

namespace Sys2Proof.Machine

/-- Two states that observe alike (R21): the registers agree, and so do the bytes below the
lengths. -/
structure Alike (s s' : State) : Prop where
  crc : s.crc = s'.crc
  ilen : s.ilen = s'.ilen
  olen : s.olen = s'.olen
  err : s.err = s'.err
  ff : s.ff = s'.ff
  einfo : s.einfo = s'.einfo
  input : ∀ i < s.ilen.toNat, s.ibuf.byteAt i = s'.ibuf.byteAt i
  output : ∀ i < s.olen.toNat, s.obuf.byteAt i = s'.obuf.byteAt i

theorem alike_iff {s s' : State} : Alike s s' ↔ s.view = s'.view := by
  constructor
  · intro h
    have hinput : (List.range s.ilen.toNat).map s.ibuf.byteAt =
        (List.range s'.ilen.toNat).map s'.ibuf.byteAt := by
      rw [← h.ilen]
      exact List.map_congr_left fun i hi => h.input i (List.mem_range.1 hi)
    have houtput : (List.range s.olen.toNat).map s.obuf.byteAt =
        (List.range s'.olen.toNat).map s'.obuf.byteAt := by
      rw [← h.olen]
      exact List.map_congr_left fun i hi => h.output i (List.mem_range.1 hi)
    simp only [State.view, View.mk.injEq]
    exact ⟨h.crc, h.ilen, h.olen, h.err, h.ff, h.einfo, hinput, houtput⟩
  · intro h
    simp only [State.view, View.mk.injEq] at h
    obtain ⟨hcrc, hilen, holen, herr, hff, heinfo, hinput, houtput⟩ := h
    rw [← hilen] at hinput
    rw [← holen] at houtput
    exact ⟨hcrc, hilen, holen, herr, hff, heinfo,
      fun i hi => List.map_inj_left.1 hinput i (List.mem_range.2 hi),
      fun i hi => List.map_inj_left.1 houtput i (List.mem_range.2 hi)⟩

namespace Alike

variable {s s' : State}

theorem status_eq (h : Alike s s') : status s = status s' := status_congr h.err h.ff

theorem inputIs (h : Alike s s') {data : List Byte} (hd : s.InputIs data) : s'.InputIs data := by
  obtain ⟨hlen, hbytes⟩ := hd
  exact ⟨h.ilen ▸ hlen, fun i hi => h.input i (by omega) ▸ hbytes i hi⟩

theorem outputIs (h : Alike s s') {data : List Byte} (hd : s.OutputIs data) :
    s'.OutputIs data := by
  obtain ⟨hlen, hbytes⟩ := hd
  exact ⟨h.olen ▸ hlen, fun i hi => h.output i (by omega) ▸ hbytes i hi⟩

/-! ### What each operation does to two states that observe alike -/

/-- `ACC` and `NB` are no part of the view, so the two sides may write them differently. -/
theorem setWork (h : Alike s s') (w w' : Bits) :
    Alike (Machine.setWork w s) (Machine.setWork w' s') :=
  { h with }

theorem respond (h : Alike s s') (v v' : Word) :
    Alike (Machine.respond v s) (Machine.respond v' s') :=
  { h with }

theorem setCrc (h : Alike s s') (c : Word) :
    Alike (Machine.setCrc c s) (Machine.setCrc c s') :=
  { h with crc := rfl }

theorem setIlen_zero (h : Alike s s') : Alike (setIlen 0 s) (setIlen 0 s') :=
  { h with ilen := rfl, input := by simp }

/-- `CLR` leaves nothing of what could be observed (R61, R24). -/
theorem clearAll (s s' : State) : Alike (Machine.clearAll s) (Machine.clearAll s') where
  crc := rfl
  ilen := rfl
  olen := rfl
  err := rfl
  ff := rfl
  einfo := rfl
  input := by simp
  output := by simp

theorem clearError (h : Alike s s') : Alike (Machine.clearError s) (Machine.clearError s') := by
  cases hff : s.ff with
  | true => rwa [clearError_of_fatal hff, clearError_of_fatal (h.ff ▸ hff)]
  | false =>
    rw [clearError_of_not_fatal hff, clearError_of_not_fatal (h.ff ▸ hff)]
    exact { h with err := rfl, einfo := rfl }

theorem recordError (h : Alike s s') (x : ErrorKind) (info : Word) :
    Alike (Machine.recordError x info s) (Machine.recordError x info s') :=
  { h with err := rfl, ff := by simp [h.ff], einfo := rfl }

/-- The reset state is one and the same for the program (R155). -/
theorem hardwareReset (s s' : State) : Alike (hardwareReset s) (hardwareReset s') where
  crc := rfl
  ilen := rfl
  olen := rfl
  err := rfl
  ff := rfl
  einfo := rfl
  input := by simp
  output := by simp

theorem storeInput (h : Alike s s') {bs : List Byte} {n n' : BitVec 9} (hn : n.toNat = bs.length)
    (hnn : n = n') :
    Alike { s with ibuf := storeFrom s.ibuf 0 bs, ilen := n }
      { s' with ibuf := storeFrom s'.ibuf 0 bs, ilen := n' } :=
  { h with
    ilen := hnn
    input := fun i hi => by
      have hi : i < bs.length := hn ▸ hi
      simp only [byteAt_storeFrom_zero _ hi] }

theorem storeOutput (h : Alike s s') {bs : List Byte} {n : BitVec 9} (hn : n.toNat = bs.length) :
    Alike { s with obuf := storeFrom s.obuf 0 bs, olen := n }
      { s' with obuf := storeFrom s'.obuf 0 bs, olen := n } :=
  { h with
    olen := rfl
    output := fun i hi => by
      have hi : i < bs.length := hn ▸ hi
      simp only [byteAt_storeFrom_zero _ hi] }

theorem appendInput (h : Alike s s') (b : Byte) (hl : s.ilen.toNat < 256) :
    Alike { s with ibuf := s.ibuf.store s.ilen.toNat b, ilen := s.ilen + 1 }
      { s' with ibuf := s'.ibuf.store s'.ilen.toNat b, ilen := s'.ilen + 1 } :=
  { h with
    ilen := by simp only [h.ilen]
    input := fun i hi => by
      simp only [toNat_add_one_of_lt hl] at hi
      simp only [Memory.byteAt_store, ← h.ilen]
      split
      · rfl
      · exact h.input i (by omega) }

end Alike

/-! ### Answers that observe alike -/

/-- If `r` is a next state, so is `r'`: the two observe alike, and each gives one response more than
`s` and `s'` had, the same on both sides. -/
def Mirrors (s s' : State) (r r' : Result) : Prop :=
  ∀ t, r = .next t → ∃ t' v, r' = .next t' ∧ Alike t t' ∧
    t.responses = s.responses ++ [v] ∧ t'.responses = s'.responses ++ [v]

section
variable {s s' u u' : State}

theorem mirrors_respond {v v' : Word} (h : Alike u u') (hv : v = v')
    (hu : u.responses = s.responses) (hu' : u'.responses = s'.responses) :
    Mirrors s s' (.next (respond v u)) (.next (respond v' u')) := by
  rintro t ht
  obtain rfl := Host.Outcome.next.inj ht
  subst hv
  exact ⟨_, v, rfl, h.respond v v, by simp [hu], by simp [hu']⟩

theorem mirrors_complete (h : Alike u u') (hu : u.responses = s.responses)
    (hu' : u'.responses = s'.responses) : Mirrors s s' (complete u) (complete u') :=
  mirrors_respond h h.status_eq hu hu'

theorem mirrors_raise (h : Alike u u') (x : ErrorKind) (info : Word)
    (hu : u.responses = s.responses) (hu' : u'.responses = s'.responses) :
    Mirrors s s' (raise x info u) (raise x info u') :=
  mirrors_complete (h.recordError x info) hu hu'

theorem mirrors_deliver (h : Alike u u') (bs : List Byte) (hu : u.responses = s.responses)
    (hu' : u'.responses = s'.responses) : Mirrors s s' (deliver bs u) (deliver bs u') := by
  intro t ht
  have hfit := (deliver_next ht).1
  rw [deliver_of_fits hfit] at ht
  rw [deliver_of_fits hfit]
  exact mirrors_respond (h.storeOutput (lenBits_toNat hfit)) h.status_eq hu hu' t ht

/-- The error-state test made once for the commands it applies to (R138). -/
theorem mirrors_exec_of_ok {i : Instr} (hi : Exempt i = false) (h : Alike s s')
    (hok : s.err = 0 → s'.err = 0 → Mirrors s s' (exec i s) (exec i s')) :
    Mirrors s s' (exec i s) (exec i s') := by
  by_cases he : s.err = 0
  · exact hok he (h.err ▸ he)
  · rw [exec_of_error hi he, exec_of_error hi (h.err ▸ he)]
    exact mirrors_respond h h.status_eq rfl rfl

theorem mirrors_illegalCommand (h : Alike s s') :
    Mirrors s s' (illegalCommand s) (illegalCommand s') := by
  by_cases he : s.err = 0
  · rw [illegalCommand_of_ok he, illegalCommand_of_ok (h.err ▸ he)]
    exact mirrors_raise h .eIllCmd 0 rfl rfl
  · rw [illegalCommand_of_error he, illegalCommand_of_error (h.err ▸ he)]
    exact mirrors_respond h h.status_eq rfl rfl

/-! ### Every command answers alike -/

theorem mirrors_exec_clri (h : Alike s s') (he : s.err = 0) (he' : s'.err = 0) :
    Mirrors s s' (exec .clri s) (exec .clri s') := by
  rw [exec_clri_of_ok he, exec_clri_of_ok he']
  exact mirrors_respond h.setIlen_zero h.status_eq rfl rfl

theorem mirrors_exec_crcInit (h : Alike s s') (he : s.err = 0) (he' : s'.err = 0) :
    Mirrors s s' (exec .crcInit s) (exec .crcInit s') := by
  rw [exec_crcInit_of_ok he, exec_crcInit_of_ok he']
  exact mirrors_respond (h.setCrc _) h.status_eq rfl rfl

theorem mirrors_exec_crcByte (h : Alike s s') (imm : Byte) (he : s.err = 0) (he' : s'.err = 0) :
    Mirrors s s' (exec (.crcByte imm) s) (exec (.crcByte imm) s') := by
  rw [exec_crcByte_of_ok imm he, exec_crcByte_of_ok imm he', ← h.crc]
  exact mirrors_respond (h.setCrc _) h.status_eq rfl rfl

theorem mirrors_exec_st (h : Alike s s') (hs : s.Inv) (imm : Byte) (he : s.err = 0)
    (he' : s'.err = 0) : Mirrors s s' (exec (.st imm) s) (exec (.st imm) s') := by
  by_cases hfull : s.ilen = 256
  · rw [exec_st_of_full imm he hfull, exec_st_of_full imm he' (h.ilen ▸ hfull)]
    exact mirrors_raise h .eCap 0 rfl rfl
  · have hroom : s.ilen.toNat < 256 := by
      obtain ⟨⟨hilen, -⟩, -⟩ := hs
      have : s.ilen.toNat ≠ 256 := fun e => hfull (BitVec.eq_of_toNat_eq e)
      omega
    rw [exec_st_of_room imm he hroom, exec_st_of_room imm he' (h.ilen ▸ hroom)]
    exact mirrors_respond (h.appendInput imm hroom) h.status_eq rfl rfl

theorem mirrors_exec_ld (h : Alike s s') (hs : s.Inv) (imm : Byte) (he : s.err = 0)
    (he' : s'.err = 0) : Mirrors s s' (exec (.ld imm) s) (exec (.ld imm) s') := by
  by_cases hrange : s.olen.toNat ≤ imm.toNat
  · rw [exec_ld_of_range imm he hrange, exec_ld_of_range imm he' (h.olen ▸ hrange)]
    exact mirrors_raise h .eRange 0 rfl rfl
  · have hlt : imm.toNat < s.olen.toNat := Nat.lt_of_not_le hrange
    obtain ⟨-, houtput⟩ := buffersHeld_of_inv hs
    obtain ⟨b, hb⟩ := Option.isSome_iff_exists.1 (houtput imm.toNat hlt)
    rw [exec_ld_of_held he hlt hb,
      exec_ld_of_held he' (h.olen ▸ hlt) (h.output imm.toNat hlt ▸ hb)]
    exact mirrors_respond h rfl rfl rfl

theorem mirrors_exec_movo (h : Alike s s') (hs : s.Inv) (he : s.err = 0) (he' : s'.err = 0) :
    Mirrors s s' (exec .movo s) (exec .movo s') := by
  obtain ⟨data, hd⟩ := exists_outputIs (buffersHeld_of_inv hs)
  have hlen : s.olen.toNat = data.length := hd.1
  have hfit : data.length ≤ 256 := by
    obtain ⟨⟨-, holen, -⟩, -⟩ := hs
    omega
  rw [exec_movo_of_held he hd hfit, exec_movo_of_held he' (h.outputIs hd) hfit]
  exact mirrors_respond (h.storeInput hlen h.olen) h.status_eq rfl rfl

theorem mirrors_exec_crcBuf (h : Alike s s') (hs : s.Inv) (he : s.err = 0) (he' : s'.err = 0) :
    Mirrors s s' (exec .crcBuf s) (exec .crcBuf s') := by
  obtain ⟨data, hd⟩ := exists_inputIs (buffersHeld_of_inv hs)
  rw [exec_crcBuf_of_held he hd, exec_crcBuf_of_held he' (h.inputIs hd), ← h.crc]
  exact mirrors_respond (h.setCrc _) h.status_eq rfl rfl

theorem mirrors_exec_crcSum (h : Alike s s') (hs : s.Inv) (he : s.err = 0) (he' : s'.err = 0) :
    Mirrors s s' (exec .crcSum s) (exec .crcSum s') := by
  obtain ⟨data, hd⟩ := exists_inputIs (buffersHeld_of_inv hs)
  rw [exec_crcSum_of_held he hd, exec_crcSum_of_held he' (h.inputIs hd)]
  exact mirrors_respond (h.setCrc _) h.status_eq rfl rfl

theorem mirrors_exec_b32Enc (h : Alike s s') (hs : s.Inv) (he : s.err = 0) (he' : s'.err = 0) :
    Mirrors s s' (exec .b32Enc s) (exec .b32Enc s') := by
  by_cases hlong : 160 < s.ilen.toNat
  · rw [exec_b32Enc_of_long he hlong, exec_b32Enc_of_long he' (h.ilen ▸ hlong)]
    exact mirrors_raise (h.setWork _ _) .eCap 0 rfl rfl
  · have hfit : s.ilen.toNat ≤ 160 := Nat.le_of_not_lt hlong
    obtain ⟨data, hd⟩ := exists_inputIs (buffersHeld_of_inv hs)
    rw [exec_b32Enc_of_held he hd hfit, exec_b32Enc_of_held he' (h.inputIs hd) (h.ilen ▸ hfit)]
    exact mirrors_deliver (h.setWork _ _) _ rfl rfl

theorem mirrors_b32DecEnd (h : Alike s s') (r : Bits × Except B32Error (List Byte)) :
    Mirrors s s' (b32DecEnd s r) (b32DecEnd s' r) := by
  have hw := h.setWork r.1 r.1
  match r with
  | (_, .error (.invalidCharacter _ _)) => exact mirrors_raise hw _ _ rfl rfl
  | (_, .error .malformedInput) => exact mirrors_raise hw _ _ rfl rfl
  | (_, .ok bytes) => exact mirrors_deliver hw bytes rfl rfl

theorem mirrors_b32DecWith (p : Config.Params) (h : Alike s s') (hs : s.Inv) (he : s.err = 0)
    (he' : s'.err = 0) : Mirrors s s' (b32DecWith p s) (b32DecWith p s') := by
  by_cases hlong : p.b32MaxIn < s.ilen.toNat
  · rw [b32DecWith_of_long he hlong, b32DecWith_of_long he' (h.ilen ▸ hlong)]
    exact mirrors_raise (h.setWork _ _) .inputTooLong 0 rfl rfl
  · have hfit : s.ilen.toNat ≤ p.b32MaxIn := Nat.le_of_not_lt hlong
    obtain ⟨text, hd⟩ := exists_inputIs (buffersHeld_of_inv hs)
    rw [b32DecWith_of_held he hd hfit, b32DecWith_of_held he' (h.inputIs hd) (h.ilen ▸ hfit)]
    exact mirrors_b32DecEnd h _

theorem mirrors_exec_payBuild (h : Alike s s') (hs : s.Inv) (he : s.err = 0) (he' : s'.err = 0) :
    Mirrors s s' (exec .payBuild s) (exec .payBuild s') := by
  by_cases hlen : s.ilen.toNat = 32
  · obtain ⟨hash, hd⟩ := exists_inputIs (buffersHeld_of_inv hs)
    have hhash : hash.length = 32 := hd.1 ▸ hlen
    rw [exec_payBuild_of_held he hd hhash, exec_payBuild_of_held he' (h.inputIs hd) hhash]
    exact mirrors_deliver h _ rfl rfl
  · rw [exec_payBuild_of_length he hlen, exec_payBuild_of_length he' (h.ilen ▸ hlen)]
    exact mirrors_raise h .ePrecond 0 rfl rfl

theorem mirrors_exec_payParse (h : Alike s s') (hs : s.Inv) (he : s.err = 0) (he' : s'.err = 0) :
    Mirrors s s' (exec .payParse s) (exec .payParse s') := by
  obtain ⟨p, hd⟩ := exists_inputIs (buffersHeld_of_inv hs)
  rw [exec_payParse_of_held he hd, exec_payParse_of_held he' (h.inputIs hd)]
  cases payloadParse p with
  | error x => exact mirrors_raise h x 0 rfl rfl
  | ok hash => exact mirrors_deliver h hash rfl rfl

theorem mirrors_exec (h : Alike s s') (hs : s.Inv) (i : Instr) :
    Mirrors s s' (exec i s) (exec i s') := by
  cases i with
  | nop => exact mirrors_complete h rfl rfl
  | clr => exact mirrors_complete (.clearAll s s') rfl rfl
  | clre =>
    exact mirrors_complete h.clearError (clearError_responses s) (clearError_responses s')
  | clri => exact mirrors_exec_of_ok rfl h (mirrors_exec_clri h)
  | st imm => exact mirrors_exec_of_ok rfl h (mirrors_exec_st h hs imm)
  | ld imm => exact mirrors_exec_of_ok rfl h (mirrors_exec_ld h hs imm)
  | movo => exact mirrors_exec_of_ok rfl h (mirrors_exec_movo h hs)
  | rdrStatus => exact mirrors_respond h h.status_eq rfl rfl
  | rdrEinfo => exact mirrors_respond h h.einfo rfl rfl
  | rdrCrc => exact mirrors_respond h h.crc rfl rfl
  | rdrIlen => exact mirrors_respond h (congrArg zextLen h.ilen) rfl rfl
  | rdrOlen => exact mirrors_respond h (congrArg zextLen h.olen) rfl rfl
  | crcInit => exact mirrors_exec_of_ok rfl h (mirrors_exec_crcInit h)
  | crcByte imm => exact mirrors_exec_of_ok rfl h (mirrors_exec_crcByte h imm)
  | crcBuf => exact mirrors_exec_of_ok rfl h (mirrors_exec_crcBuf h hs)
  | crcSum => exact mirrors_exec_of_ok rfl h (mirrors_exec_crcSum h hs)
  | b32Enc => exact mirrors_exec_of_ok rfl h (mirrors_exec_b32Enc h hs)
  | b32Dec => exact mirrors_exec_of_ok rfl h (mirrors_b32DecWith Config.params h hs)
  | payBuild => exact mirrors_exec_of_ok rfl h (mirrors_exec_payBuild h hs)
  | payParse => exact mirrors_exec_of_ok rfl h (mirrors_exec_payParse h hs)

theorem mirrors_runWord (h : Alike s s') (hs : s.Inv) (w : Word) :
    Mirrors s s' (runWord w s) (runWord w s') := by
  cases hw : decode w with
  | ok i =>
    rw [runWord_of_ok hw, runWord_of_ok hw]
    exact mirrors_exec h hs i
  | error k =>
    rw [runWord_of_error hw, runWord_of_error hw]
    exact mirrors_illegalCommand h

end

/-- Settles O37: a command word is answered alike, with one and the same response; the hardware
reset leaves the reset state on both sides and gives none. -/
theorem hiddenBytesAndRegistersAreUnobservable :
    Obligations.HiddenBytesAndRegistersAreUnobservable := by
  intro x s s' t hs _ hview ht
  cases x with
  | command w =>
    obtain ⟨t', v, ht', halike, hresp, hresp'⟩ := mirrors_runWord (alike_iff.2 hview) hs w t ht
    exact ⟨t', [v], ht', alike_iff.1 halike, hresp, hresp'⟩
  | reset =>
    obtain rfl := Host.Outcome.next.inj ht
    exact ⟨hardwareReset s', [], rfl, alike_iff.1 (.hardwareReset s s'),
      (List.append_nil _).symm, (List.append_nil _).symm⟩

end Sys2Proof.Machine
end

section
/-! PROOFS. What the five unit commands write is decided by the input bytes (R26), the `STATUS` view
(R18), and the state that `CLR` and the hardware reset leave (R24). -/

namespace Sys2Proof.Machine

/-! ### The results of the unit commands -/

/-- What R26 compares of two results: the error registers, `EINFO` where an error wrote it, the valid
output where the command succeeded. -/
structure SameResult (t t' : State) : Prop where
  err : t.err = t'.err
  ff : t.ff = t'.ff
  einfo : t.err ≠ 0 → t.einfo = t'.einfo
  output : t.err = 0 → ∃ out, t.OutputIs out ∧ t'.OutputIs out

theorem code_ne_zero (x : ErrorKind) : x.code ≠ 0 := by
  cases x <;> decide

section
variable {s s' t t' : State}

/-- An error writes its own code and data, whatever was in `OBUF` (R136). -/
theorem sameResult_raise {x : ErrorKind} {info : Word} (h : raise x info s = .next t)
    (h' : raise x info s' = .next t') (hff : s.ff = s'.ff) : SameResult t t' := by
  obtain rfl := Host.Outcome.next.inj h
  obtain rfl := Host.Outcome.next.inj h'
  exact ⟨rfl, by simp [hff], fun _ => rfl, fun he => absurd he (code_ne_zero x)⟩

theorem outputIs_of_deliver {bs : List Byte} (h : deliver bs s = .next t) : t.OutputIs bs := by
  obtain ⟨hfit, rfl⟩ := deliver_next h
  exact ⟨lenBits_toNat hfit, fun i hi => byteAt_storeFrom_zero s.obuf hi⟩

theorem ok_of_deliver {bs : List Byte} (hs : s.Ok) (h : deliver bs s = .next t) : t.Ok := by
  obtain ⟨-, rfl⟩ := deliver_next h
  exact hs

/-- A success leaves the OK state and the bytes it was given, whatever was in `OBUF` (R14). -/
theorem sameResult_deliver {bs : List Byte} (h : deliver bs s = .next t)
    (h' : deliver bs s' = .next t') (hs : s.Ok) (hs' : s'.Ok) : SameResult t t' := by
  obtain ⟨he, hf⟩ := ok_of_deliver hs h
  obtain ⟨he', hf'⟩ := ok_of_deliver hs' h'
  exact ⟨he.trans he'.symm, hf.trans hf'.symm, fun hne => absurd he hne,
    fun _ => ⟨bs, outputIs_of_deliver h, outputIs_of_deliver h'⟩⟩

theorem sameResult_b32Enc {data : List Byte} (hs : s.Ok) (hs' : s'.Ok) (hd : s.InputIs data)
    (hd' : s'.InputIs data) (h : exec .b32Enc s = .next t) (h' : exec .b32Enc s' = .next t') :
    SameResult t t' := by
  obtain ⟨he, hf⟩ := hs
  obtain ⟨he', hf'⟩ := hs'
  have hlen : s'.ilen.toNat = s.ilen.toNat := hd'.1.trans hd.1.symm
  by_cases hlong : 160 < s.ilen.toNat
  · rw [exec_b32Enc_of_long he hlong] at h
    rw [exec_b32Enc_of_long he' (by omega)] at h'
    exact sameResult_raise h h' (hf.trans hf'.symm)
  · rw [exec_b32Enc_of_held he hd (by omega)] at h
    rw [exec_b32Enc_of_held he' hd' (by omega)] at h'
    exact sameResult_deliver h h' ⟨he, hf⟩ ⟨he', hf'⟩

theorem sameResult_b32DecEnd {r : Bits × Except B32Error (List Byte)} (hs : s.Ok) (hs' : s'.Ok)
    (h : b32DecEnd s r = .next t) (h' : b32DecEnd s' r = .next t') : SameResult t t' := by
  have hff : s.ff = s'.ff := hs.2.trans hs'.2.symm
  match r with
  | (_, .error (.invalidCharacter _ _)) => exact sameResult_raise h h' hff
  | (_, .error .malformedInput) => exact sameResult_raise h h' hff
  | (_, .ok _) => exact sameResult_deliver h h' hs hs'

theorem sameResult_b32DecWith {p : Config.Params} {text : List Byte} (hs : s.Ok) (hs' : s'.Ok)
    (hd : s.InputIs text) (hd' : s'.InputIs text) (h : b32DecWith p s = .next t)
    (h' : b32DecWith p s' = .next t') : SameResult t t' := by
  obtain ⟨he, hf⟩ := hs
  obtain ⟨he', hf'⟩ := hs'
  have hlen : s'.ilen.toNat = s.ilen.toNat := hd'.1.trans hd.1.symm
  by_cases hlong : p.b32MaxIn < s.ilen.toNat
  · rw [b32DecWith_of_long he hlong] at h
    rw [b32DecWith_of_long he' (by omega)] at h'
    exact sameResult_raise h h' (hf.trans hf'.symm)
  · rw [b32DecWith_of_held he hd (by omega)] at h
    rw [b32DecWith_of_held he' hd' (by omega)] at h'
    exact sameResult_b32DecEnd ⟨he, hf⟩ ⟨he', hf'⟩ h h'

theorem sameResult_payBuild {hash : List Byte} (hs : s.Ok) (hs' : s'.Ok) (hd : s.InputIs hash)
    (hd' : s'.InputIs hash) (h : exec .payBuild s = .next t) (h' : exec .payBuild s' = .next t') :
    SameResult t t' := by
  obtain ⟨he, hf⟩ := hs
  obtain ⟨he', hf'⟩ := hs'
  have hlen : s.ilen.toNat = hash.length := hd.1
  have hlen' : s'.ilen.toNat = hash.length := hd'.1
  by_cases hhash : hash.length = 32
  · rw [exec_payBuild_of_held he hd hhash] at h
    rw [exec_payBuild_of_held he' hd' hhash] at h'
    exact sameResult_deliver h h' ⟨he, hf⟩ ⟨he', hf'⟩
  · rw [exec_payBuild_of_length he (by omega)] at h
    rw [exec_payBuild_of_length he' (by omega)] at h'
    exact sameResult_raise h h' (hf.trans hf'.symm)

theorem sameResult_payParse {p : List Byte} (hs : s.Ok) (hs' : s'.Ok) (hd : s.InputIs p)
    (hd' : s'.InputIs p) (h : exec .payParse s = .next t) (h' : exec .payParse s' = .next t') :
    SameResult t t' := by
  rw [exec_payParse_of_held hs.1 hd] at h
  rw [exec_payParse_of_held hs'.1 hd'] at h'
  cases hp : payloadParse p with
  | error x =>
    rw [hp] at h h'
    exact sameResult_raise h h' (hs.2.trans hs'.2.symm)
  | ok hash =>
    rw [hp] at h h'
    exact sameResult_deliver h h' hs hs'

/-- `CRC.SUM` writes `CRC` alone, with the checksum of the input (R85). -/
theorem crcSum_agrees {data : List Byte} (hs : s.Ok) (hs' : s'.Ok) (hd : s.InputIs data)
    (hd' : s'.InputIs data) (h : exec .crcSum s = .next t) (h' : exec .crcSum s' = .next t') :
    t.err = t'.err ∧ t.ff = t'.ff ∧ (t.err ≠ 0 → t.einfo = t'.einfo) ∧ t.crc = t'.crc := by
  obtain ⟨he, hf⟩ := hs
  obtain ⟨he', hf'⟩ := hs'
  rw [exec_crcSum_of_held he hd] at h
  rw [exec_crcSum_of_held he' hd'] at h'
  obtain rfl := Host.Outcome.next.inj h
  obtain rfl := Host.Outcome.next.inj h'
  exact ⟨he.trans he'.symm, hf.trans hf'.symm, fun hne => absurd he hne, rfl⟩

end

/-- Settles O38: each command raises or delivers by its input bytes alone, and what it then writes
does not depend on the rest of the state. -/
theorem unitResultsDependOnTheInputAlone : Obligations.UnitResultsDependOnTheInputAlone := by
  intro i hi s s' t t' data hs hs' hd hd' h h'
  simp only [List.mem_cons, List.not_mem_nil, or_false] at hi
  rcases hi with rfl | rfl | rfl | rfl | rfl
  · obtain ⟨herr, hff, heinfo, hcrc⟩ := crcSum_agrees hs hs' hd hd' h h'
    exact ⟨herr, hff, heinfo, fun _ => hcrc, fun hne => absurd rfl hne⟩
  · have hr := sameResult_b32Enc hs hs' hd hd' h h'
    exact ⟨hr.err, hr.ff, hr.einfo, nofun, fun _ => hr.output⟩
  · have hr := sameResult_b32DecWith hs hs' hd hd' h h'
    exact ⟨hr.err, hr.ff, hr.einfo, nofun, fun _ => hr.output⟩
  · have hr := sameResult_payBuild hs hs' hd hd' h h'
    exact ⟨hr.err, hr.ff, hr.einfo, nofun, fun _ => hr.output⟩
  · have hr := sameResult_payParse hs hs' hd hd' h h'
    exact ⟨hr.err, hr.ff, hr.einfo, nofun, fun _ => hr.output⟩

/-! ### The `STATUS` view -/

/-- `STATUS` bit by bit, field by field from the low end (R18). -/
theorem status_getLsbD (s : State) (k : Nat) :
    (status s).getLsbD k =
      if k < 4 then s.err.getLsbD k
      else if k - 4 < 10 then (0#10).getLsbD (k - 4)
      else if k - 4 - 10 < 1 then (BitVec.ofBool s.ff).getLsbD (k - 4 - 10)
      else (errorFlag s).getLsbD (k - 4 - 10 - 1) := by
  change (errorFlag s ++ BitVec.ofBool s.ff ++ 0#10 ++ s.err :
    BitVec (1 + 1 + 10 + 4)).getLsbD k = _
  simp only [BitVec.getLsbD_append]

theorem status_bit15 (s : State) : (status s).getLsbD 15 = true ↔ s.err ≠ 0 := by
  rw [status_getLsbD]
  by_cases he : s.err = 0#4 <;> simp [errorFlag, he]

theorem status_bit14 (s : State) : (status s).getLsbD 14 = s.ff := by
  rw [status_getLsbD]
  cases s.ff <;> rfl

theorem status_middle_bits (s : State) {k : Nat} (h4 : 4 ≤ k) (h13 : k ≤ 13) :
    (status s).getLsbD k = false := by
  rw [status_getLsbD, if_neg (by omega), if_pos (by omega)]
  exact BitVec.getLsbD_zero

theorem status_low_bits (s : State) : (status s).extractLsb' 0 4 = s.err :=
  BitVec.extractLsb'_append_eq_right

/-- In a recoverable error state `STATUS` is bit 15 and the code (R18). -/
theorem status_of_recoverable {s : State} (he : s.err ≠ 0) (hf : s.ff = false) :
    status s = 0x8000#16 + s.err.zeroExtend 16 := by
  have hbits : ∀ e : BitVec 4,
      1#1 ++ BitVec.ofBool false ++ 0#10 ++ e = 0x8000#16 + e.zeroExtend 16 := by
    decide
  rw [status, errorFlag, if_neg he, hf]
  exact hbits s.err

/-- Settles O7: the four fields one by one, then the value in each kind of state. -/
theorem statusIsTheViewOfErrAndFf : Obligations.StatusIsTheViewOfErrAndFf := by
  intro s
  refine ⟨status_bit15 s, status_bit14 s, fun _ => status_middle_bits s, status_low_bits s,
    fun ⟨he, hf⟩ => status_of_clear he hf, status_of_recoverable, fun he hf => ?_⟩
  simp [status, errorFlag, he, hf]

/-! ### The state that `CLR` and the hardware reset leave -/

/-- Settles O8: `CLR` is one `clearAll`, and nothing is left to observe after either. -/
theorem resetAndClrLeaveTheResetState : Obligations.ResetAndClrLeaveTheResetState := by
  refine ⟨⟨rfl, rfl, rfl, rfl, rfl, rfl, status_of_clear rfl rfl⟩, fun s =>
    ⟨⟨rfl, rfl, rfl, rfl, rfl, rfl, status_of_clear rfl rfl⟩, ?_⟩⟩
  exact ⟨respond (status (clearAll s)) (clearAll s), rfl,
    ⟨rfl, rfl, rfl, rfl, rfl, rfl, status_clearAll s⟩, rfl, rfl, rfl, rfl⟩

end Sys2Proof.Machine
end

section
/-! The buffer accesses as a pair (20_memory.md R31): what a read after a write gives, at the index
written and at every other index of either buffer, and where each access is undefined. -/

namespace Sys2Proof.Machine

/-! ### Where the accesses are undefined -/

theorem memWrite_of_ge {sp : Space} {i : Nat} (b : Byte) (s : State) (h : 256 ≤ i) :
    memWrite sp i b s = .error (.writeUndefined sp i) :=
  if_neg (Nat.not_lt.2 h)

theorem memRead_of_ge {sp : Space} {i : Nat} {s : State} (h : (lenOf sp s).toNat ≤ i) :
    memRead sp i s = .error (.readUndefined sp i) :=
  if_neg (Nat.not_lt.2 h)

/-! ### A read after a write -/

/-- The two buffers are separate spaces (R30). -/
theorem memOf_setMem_other {sp sp' : Space} (m : Memory) (s : State) (h : sp' ≠ sp) :
    memOf sp' (setMem sp m s) = memOf sp' s := by
  cases sp <;> cases sp'
  case ibuf.ibuf | obuf.obuf => exact absurd rfl h
  case ibuf.obuf | obuf.ibuf => rfl

/-- A read depends on the length of its space and on the one byte it reads. -/
theorem memRead_congr {sp : Space} {i : Nat} {s t : State} (hlen : lenOf sp t = lenOf sp s)
    (hbyte : (memOf sp t).byteAt i = (memOf sp s).byteAt i) : memRead sp i t = memRead sp i s := by
  rw [memRead, memRead, hlen, hbyte]

theorem memRead_setMem_store_same {sp : Space} {i : Nat} (b : Byte) {s : State}
    (h : i < (lenOf sp s).toNat) :
    memRead sp i (setMem sp ((memOf sp s).store i b) s) = .ok b :=
  memRead_ok_iff.2 ⟨by rwa [lenOf_setMem], by rw [memOf_setMem_same, Memory.byteAt_store_same]⟩

/-- Another byte is one of the other buffer, or one at another index of the same buffer. -/
theorem memRead_setMem_store_other {sp sp' : Space} {i j : Nat} (b : Byte) (s : State)
    (h : (sp', j) ≠ (sp, i)) :
    memRead sp' j (setMem sp ((memOf sp s).store i b) s) = memRead sp' j s := by
  refine memRead_congr (lenOf_setMem ..) ?_
  by_cases hsp : sp' = sp
  · subst hsp
    have hj : j ≠ i := fun hj => h (by rw [hj])
    rw [memOf_setMem_same, Memory.byteAt_store_other _ b hj]
  · rw [memOf_setMem_other _ s hsp]

/-- Settles O39: a write inside the buffer is one store, which changes the byte at its own index and
no other; the faults are the two primitives outside their ranges. -/
theorem bufferAccessesReadWhatWasWritten : Obligations.BufferAccessesReadWhatWasWritten := by
  intro sp i b s
  refine ⟨fun hi => ⟨_, memWrite_of_lt hi, fun hlen => ?_, fun sp' j hne => ?_, fun hwf => ?_⟩,
    memWrite_of_ge b s, memRead_of_ge⟩
  · rw [lenOf_setMem] at hlen
    exact memRead_setMem_store_same b hlen
  · exact memRead_setMem_store_other b s hne
  · rw [memOf_setMem_same]
    exact Memory.store_wf b hi hwf

end Sys2Proof.Machine
end

section
/-! PROOFS. The decoder read by the format of the opcode (30_encoding.md R45, R50): what a word of
each format decodes to. From that: decoding and encoding are inverse to each other, which words are
legal, and how each illegal word is rejected. -/

namespace Sys2Proof

/-! ### The decoder by format -/

theorem zForm_eq_ok {lo : Byte} {i j : Instr} : zForm lo i = .ok j ↔ lo = 0#8 ∧ j = i := by
  unfold zForm
  split <;> simp [*, eq_comm]

theorem zForm_eq_error {lo : Byte} {i : Instr} {k : Illegal} :
    zForm lo i = .error k ↔ lo ≠ 0#8 ∧ k = .nonzeroLowByte := by
  unfold zForm
  split <;> simp [*, eq_comm]

/-- The register number of an `RDR` is the low byte of its word (R19, R48). -/
theorem encode_of_rForm {lo : Byte} {i : Instr} (h : rForm lo = .ok i) :
    encode i = 0x07#8 ++ lo := by
  unfold rForm at h
  split_ifs at h
  all_goals
    cases h
    subst lo
    rfl

theorem rForm_eq_error {lo : Byte} {k : Illegal} :
    rForm lo = .error k ↔ 5 ≤ lo.toNat ∧ k = .reservedRegister := by
  rcases byte_cases lo 5 with ⟨n, hn, rfl⟩ | hlo
  · interval_cases n <;> simp [rForm]
  · have hne : ∀ n < 5, lo ≠ BitVec.ofNat 8 n := by
      rintro n hn rfl
      rw [BitVec.toNat_ofNat] at hlo
      omega
    simp [rForm, hne, hlo, eq_comm]

/-- The register numbers are 0 to 4 (R19). -/
theorem exists_rForm_ok {lo : Byte} : (∃ i, rForm lo = .ok i) ↔ lo.toNat ≤ 4 := by
  constructor
  · rintro ⟨i, hi⟩
    by_contra hlo
    rw [rForm_eq_error.2 ⟨Nat.lt_of_not_le hlo, rfl⟩] at hi
    cases hi
  · intro hlo
    cases h : rForm lo with
    | ok i => exact ⟨i, rfl⟩
    | error k =>
      obtain ⟨hge, -⟩ := rForm_eq_error.1 h
      omega

/-- What the decoder makes of two fields, by the format of the opcode: the row's instruction for
formats Z and I, the register's for format R, a rejection for an opcode not in the map. -/
theorem decodeFields_cases (f : Fields) :
    (f.format? = some .z ∧ ∃ i, decodeFields f = zForm f.lo i ∧ encode i = f.opcode ++ 0#8) ∨
    (f.format? = some .i ∧ ∃ i, decodeFields f = .ok i ∧ encode i = f.opcode ++ f.lo) ∨
    (f.format? = some .r ∧ f.opcode = 0x07#8 ∧ decodeFields f = rForm f.lo) ∨
    (f.format? = none ∧ decodeFields f = .error .reservedOpcode) := by
  obtain ⟨a, lo⟩ := f
  unfold Fields.format?
  split_ifs with hi hr hz
  · simp only [List.mem_cons, List.not_mem_nil, or_false] at hi
    refine .inr (.inl ⟨rfl, ?_⟩)
    rcases hi with rfl | rfl | rfl <;> exact ⟨_, rfl, rfl⟩
  · obtain rfl : a = 0x07#8 := hr
    exact .inr (.inr (.inl ⟨rfl, rfl, rfl⟩))
  · simp only [List.mem_cons, List.not_mem_nil, or_false] at hz
    refine .inl ⟨rfl, ?_⟩
    rcases hz with rfl | rfl | rfl | rfl | rfl | rfl | rfl | rfl | rfl | rfl | rfl | rfl <;>
      exact ⟨_, rfl, (append_eq_ofNat.2 ⟨rfl, rfl⟩).symm⟩
  · simp only [List.mem_cons, List.not_mem_nil, or_false, not_or] at hi hr hz
    exact .inr (.inr (.inr ⟨rfl, by simp [decodeFields, hi, hr, hz]⟩))

/-! ### Decoding and encoding -/

theorem encode_of_decodeFields {f : Fields} {i : Instr} (h : decodeFields f = .ok i) :
    encode i = f.opcode ++ f.lo := by
  rcases decodeFields_cases f with
    ⟨-, j, hz, hj⟩ | ⟨-, j, hi, hj⟩ | ⟨-, hop, hr⟩ | ⟨-, hnone⟩
  · obtain ⟨hlo, rfl⟩ := zForm_eq_ok.1 (hz ▸ h)
    rw [hj, hlo]
  · obtain rfl : j = i := Except.ok.inj (hi ▸ h)
    exact hj
  · rw [hop]
    exact encode_of_rForm (hr ▸ h)
  · rw [hnone] at h
    cases h

/-- `encode(decode(w)) == w` (R50). -/
theorem encode_of_decode {w : Word} {i : Instr} (h : decode w = .ok i) : encode i = w := by
  obtain ⟨a, b, rfl⟩ := exists_append w
  rw [decode_append] at h
  exact encode_of_decodeFields (f := ⟨a, b⟩) h

/-- `decode(encode(c)) == c` (R50). -/
@[simp] theorem decode_encode (i : Instr) : decode (encode i) = .ok i := by
  cases i
  case st imm => exact decode_append 0x04#8 imm
  case ld imm => exact decode_append 0x05#8 imm
  case crcByte imm => exact decode_append 0x11#8 imm
  all_goals rfl

theorem decode_eq_ok {w : Word} {i : Instr} : decode w = .ok i ↔ w = encode i :=
  ⟨fun h => (encode_of_decode h).symm, fun h => h ▸ decode_encode i⟩

theorem encode_injective : Function.Injective encode := fun i j h => by
  have hdecode := decode_encode i
  rw [h, decode_encode] at hdecode
  exact (Except.ok.inj hdecode).symm

/-- A constructor carries only operands its format admits (R45). -/
theorem instr_wellFormed (i : Instr) : i.WellFormed = true := by
  cases i <;> rfl

/-! ### Legal words and the three kinds of illegal word, by format -/

section
variable {f : Fields}

theorem exists_decodeFields_ok : (∃ i, decodeFields f = .ok i) ↔ f.WellFormed = true := by
  rw [Fields.WellFormed]
  rcases decodeFields_cases f with
    ⟨hf, j, hz, -⟩ | ⟨hf, j, hi, -⟩ | ⟨hf, -, hr⟩ | ⟨hf, hnone⟩
  · simp [hf, hz, zForm_eq_ok, Format.admits]
  · simp [hf, hi, Format.admits]
  · simp [hf, hr, exists_rForm_ok, Format.admits]
  · simp [hf, hnone]

/-- The three kinds of R55, each by the format of the opcode. -/
theorem decodeFields_eq_error {k : Illegal} : decodeFields f = .error k ↔
    (k = .reservedOpcode ∧ f.format? = none) ∨
    (k = .nonzeroLowByte ∧ f.format? = some .z ∧ f.lo ≠ 0#8) ∨
    (k = .reservedRegister ∧ f.format? = some .r ∧ 5 ≤ f.lo.toNat) := by
  rcases decodeFields_cases f with
    ⟨hf, j, hz, -⟩ | ⟨hf, j, hi, -⟩ | ⟨hf, -, hr⟩ | ⟨hf, hnone⟩
  · simp [hf, hz, zForm_eq_error, and_comm]
  · simp [hf, hi]
  · simp [hf, hr, rForm_eq_error, and_comm]
  · simp [hf, hnone, eq_comm (b := k)]

/-! ### The format of an opcode by its number -/

/-- R49's opcodes and R55 (a)'s reserved ones, as numbers. -/
theorem format?_by_number :
    (f.format? = none ↔
      (0x08 ≤ f.opcode.toNat ∧ f.opcode.toNat ≤ 0x0F) ∨
      (0x14 ≤ f.opcode.toNat ∧ f.opcode.toNat ≤ 0x1F) ∨
      (0x22 ≤ f.opcode.toNat ∧ f.opcode.toNat ≤ 0x2F) ∨ 0x32 ≤ f.opcode.toNat) ∧
    (f.format? = some .z ↔ f.opcode.toNat ∈
      [0x00, 0x01, 0x02, 0x03, 0x06, 0x10, 0x12, 0x13, 0x20, 0x21, 0x30, 0x31]) ∧
    (f.format? = some .r ↔ f.opcode.toNat = 0x07) := by
  simp only [Fields.format?, List.mem_cons, List.not_mem_nil, or_false, ← BitVec.toNat_inj,
    BitVec.toNat_ofNat]
  split_ifs
  all_goals
    simp
    omega

end

/-- Settles O3: what a word of each format decodes to has that word as its code, and each
constructor's word decodes to it. -/
theorem decodeAndEncodeAreInverse : Obligations.DecodeAndEncodeAreInverse :=
  ⟨fun i _ => decode_encode i, fun _ i h => ⟨instr_wellFormed i, encode_of_decode h⟩,
    fun _ => exists_decodeFields_ok⟩

/-! ### The rows of the opcode map -/

/-- A row with all mask bits set decides one word (R49). -/
theorem decode_fixed_row (w : Word) (i : Instr) :
    decode w = .ok i ↔ w &&& 0xFFFF#16 = encode i := by
  rw [word_and_ffff, decode_eq_ok]

/-- A row whose mask leaves the low byte out decides its opcode, and the low byte is the operand. -/
theorem eq_append_iff_masked {w : Word} {a b : Byte} :
    w = a ++ b ↔ w &&& 0xFF00#16 = a ++ 0#8 ∧ b = w.extractLsb' 0 8 := by
  obtain ⟨c, d, rfl⟩ := exists_append w
  rw [append_inj, append_and_ff00, append_inj, lowByte_append]
  simp [eq_comm (a := d)]

theorem decode_operand_row {w : Word} {a b : Byte} {i : Instr} (hi : encode i = a ++ b) :
    decode w = .ok i ↔ w &&& 0xFF00#16 = a ++ 0#8 ∧ b = w.extractLsb' 0 8 := by
  rw [decode_eq_ok, hi, eq_append_iff_masked]

/-! ### How many words are legal -/

/-- The instructions without an operand in bits 7:0. -/
def fixedInstrs : List Instr :=
  [.nop, .clr, .clre, .clri, .movo, .rdrStatus, .rdrEinfo, .rdrCrc, .rdrIlen, .rdrOlen, .crcInit,
    .crcBuf, .crcSum, .b32Enc, .b32Dec, .payBuild, .payParse]

/-- The 256 operands. -/
def everyByte : List Byte := (List.finRange (2 ^ 8)).map BitVec.ofFin

/-- The instructions without an operand and the three with one. -/
def everyInstr : List Instr :=
  fixedInstrs ++ (everyByte.map .st ++ (everyByte.map .ld ++ everyByte.map .crcByte))

theorem mem_everyByte (b : Byte) : b ∈ everyByte :=
  List.mem_map.2 ⟨b.toFin, List.mem_finRange _, rfl⟩

theorem everyByte_nodup : everyByte.Nodup :=
  (List.nodup_finRange _).map fun _ _ h => congrArg BitVec.toFin h

theorem everyByte_length : everyByte.length = 256 := by
  simp [everyByte]

theorem mem_everyInstr (i : Instr) : i ∈ everyInstr := by
  cases i <;> simp [everyInstr, fixedInstrs, mem_everyByte]

theorem everyInstr_nodup : everyInstr.Nodup := by
  have hst : (everyByte.map Instr.st).Nodup := everyByte_nodup.map fun _ _ => Instr.st.inj
  have hld : (everyByte.map Instr.ld).Nodup := everyByte_nodup.map fun _ _ => Instr.ld.inj
  have hcrc : (everyByte.map Instr.crcByte).Nodup :=
    everyByte_nodup.map fun _ _ => Instr.crcByte.inj
  refine (by decide : fixedInstrs.Nodup).append (hst.append (hld.append hcrc ?_) ?_) ?_
  all_goals simp [List.Disjoint, fixedInstrs]

/-- The words of R49's map. -/
def legalWords : List Word := everyInstr.map encode

theorem legalWords_length : legalWords.length = 785 := by
  simp [legalWords, everyInstr, fixedInstrs, everyByte_length]

theorem legalWords_nodup : legalWords.Nodup := everyInstr_nodup.map encode_injective

theorem mem_legalWords {w : Word} : w ∈ legalWords ↔ ∃ i, decode w = .ok i := by
  simp [legalWords, mem_everyInstr, decode_eq_ok, eq_comm (a := w)]

/-- Settles O2: each row is the code of its instruction, masked; the legal words are the codes of
the 17 instructions without an operand and of the three with one of 256. -/
theorem opcodeMapDecidesEveryWord : Obligations.OpcodeMapDecidesEveryWord := by
  refine ⟨fun w => ?_, legalWords, legalWords_length, legalWords_nodup, fun _ => mem_legalWords⟩
  exact ⟨decode_fixed_row w .nop, decode_fixed_row w .clr, decode_fixed_row w .clre,
    decode_fixed_row w .clri, fun _ => decode_operand_row (a := 0x04#8) rfl,
    fun _ => decode_operand_row (a := 0x05#8) rfl,
    decode_fixed_row w .movo, decode_fixed_row w .rdrStatus, decode_fixed_row w .rdrEinfo,
    decode_fixed_row w .rdrCrc, decode_fixed_row w .rdrIlen, decode_fixed_row w .rdrOlen,
    decode_fixed_row w .crcInit, fun _ => decode_operand_row (a := 0x11#8) rfl,
    decode_fixed_row w .crcBuf,
    decode_fixed_row w .crcSum, decode_fixed_row w .b32Enc, decode_fixed_row w .b32Dec,
    decode_fixed_row w .payBuild, decode_fixed_row w .payParse⟩

/-- Settles O1: nine words are codes of instructions, three are of the three kinds of illegal
word. -/
theorem wordsWrittenFromTheMapDecode : Obligations.WordsWrittenFromTheMapDecode :=
  ⟨decode_encode .nop, decode_encode (.st 0x43#8), decode_encode (.ld 55#8), decode_encode .movo,
    decode_encode .rdrIlen, decode_encode (.crcByte 0xA5#8), decode_encode .crcSum,
    decode_encode .b32Dec, decode_encode .payBuild, rfl, rfl, rfl⟩

/-! ### The kind of an illegal word by its two bytes -/

/-- The two bytes of a word's number. -/
theorem append_div_mod (a b : Byte) :
    (a ++ b : Word).toNat / 256 = a.toNat ∧ (a ++ b : Word).toNat % 256 = b.toNat := by
  have hb := b.isLt
  rw [append_toNat]
  omega

/-- The ranges of R55. -/
theorem decode_eq_error_by_number (w : Word) :
    (decode w = .error .reservedOpcode ↔
      (0x08 ≤ w.toNat / 256 ∧ w.toNat / 256 ≤ 0x0F) ∨
      (0x14 ≤ w.toNat / 256 ∧ w.toNat / 256 ≤ 0x1F) ∨
      (0x22 ≤ w.toNat / 256 ∧ w.toNat / 256 ≤ 0x2F) ∨ 0x32 ≤ w.toNat / 256) ∧
    (decode w = .error .nonzeroLowByte ↔
      w.toNat % 256 ≠ 0 ∧
        w.toNat / 256 ∈ [0x00, 0x01, 0x02, 0x03, 0x06, 0x10, 0x12, 0x13, 0x20, 0x21, 0x30, 0x31]) ∧
    (decode w = .error .reservedRegister ↔ w.toNat / 256 = 0x07 ∧ 5 ≤ w.toNat % 256) := by
  obtain ⟨a, b, rfl⟩ := exists_append w
  obtain ⟨hdiv, hmod⟩ := append_div_mod a b
  obtain ⟨hnone, hz, hr⟩ := format?_by_number (f := ⟨a, b⟩)
  rw [hdiv, hmod, ← hnone, ← hz, ← hr]
  simp [decodeFields_eq_error, and_comm, ← BitVec.toNat_inj]

end Sys2Proof
end

section
/-! PROOFS. The response of every command (30_encoding.md R46), case by case, and what an illegal
word does (R55, 60_exceptions.md R135). -/

namespace Sys2Proof.Machine

/-! ### One response word -/

/-- `t` comes of `s` by a command whose response is `r`: one word is appended to the responses, and
what the host has still to present is not touched (R46, R23). -/
def Answers (s t : State) (r : Word) : Prop :=
  t.responses = s.responses ++ [r] ∧ t.inputs = s.inputs

section
variable {s t u : State}

theorem Answers.unique {r r' : Word} (h : Answers s t r) (h' : Answers s t r') : r = r' := by
  simpa [h.1] using h'.1

theorem answers_respond (v : Word) (s : State) : Answers s (respond v s) v := ⟨rfl, rfl⟩

theorem answers_status_respond (hr : u.responses = s.responses) (hi : u.inputs = s.inputs) :
    Answers s (respond (status u) u) (status (respond (status u) u)) :=
  ⟨by rw [respond_responses, hr, status_respond], hi⟩

theorem answers_complete (h : complete u = .next t) (hr : u.responses = s.responses)
    (hi : u.inputs = s.inputs) : Answers s t (status t) :=
  Host.Outcome.next.inj h ▸ answers_status_respond hr hi

theorem answers_raise {x : ErrorKind} {info : Word} (h : raise x info u = .next t)
    (hr : u.responses = s.responses) (hi : u.inputs = s.inputs) : Answers s t (status t) :=
  answers_complete (u := recordError x info u) h hr hi

theorem answers_deliver {bs : List Byte} (h : deliver bs u = .next t)
    (hr : u.responses = s.responses) (hi : u.inputs = s.inputs) : Answers s t (status t) := by
  obtain ⟨-, rfl⟩ := deliver_next h
  exact answers_status_respond hr hi

/-- The skip of R138 answers `STATUS`, which it does not change. -/
theorem answers_skip : Answers s (respond (status s) s) (status (respond (status s) s)) :=
  answers_status_respond rfl rfl

/-- A command that only completes, if the error-state test lets it run. -/
theorem answers_unlessError_complete {f : State → State}
    (h : unlessError s (fun s => complete (f s)) = .next t) (hr : (f s).responses = s.responses)
    (hi : (f s).inputs = s.inputs) : Answers s t (status t) := by
  rcases unlessError_next h with ⟨-, hcomplete⟩ | ⟨-, rfl⟩
  · exact answers_complete hcomplete hr hi
  · exact answers_skip

/-! ### The commands that answer `STATUS` (R46 cases 1, 2 and 5) -/

theorem answers_illegalCommand (h : illegalCommand s = .next t) : Answers s t (status t) :=
  answers_unlessError_complete (f := recordError .eIllCmd 0) h rfl rfl

theorem answers_exec_st {imm : Byte} (h : exec (.st imm) s = .next t) : Answers s t (status t) := by
  rcases exec_st_next h with ⟨-, rfl⟩ | ⟨-, -, rfl⟩ | ⟨-, -, rfl⟩
  · exact answers_skip
  · exact answers_status_respond rfl rfl
  · exact answers_status_respond rfl rfl

theorem answers_exec_movo (h : exec .movo s = .next t) : Answers s t (status t) := by
  rcases exec_movo_next h with ⟨-, rfl⟩ | ⟨-, data, -, -, rfl⟩
  · exact answers_skip
  · exact answers_status_respond rfl rfl

theorem answers_exec_crcBuf (h : exec .crcBuf s = .next t) : Answers s t (status t) := by
  rcases exec_crcBuf_next h with ⟨-, rfl⟩ | ⟨-, data, -, rfl⟩
  · exact answers_skip
  · exact answers_status_respond rfl rfl

theorem answers_exec_crcSum (h : exec .crcSum s = .next t) : Answers s t (status t) := by
  rcases exec_crcSum_next h with ⟨-, rfl⟩ | ⟨-, data, -, rfl⟩
  · exact answers_skip
  · exact answers_status_respond rfl rfl

theorem answers_exec_b32Enc (h : exec .b32Enc s = .next t) : Answers s t (status t) := by
  rcases exec_b32Enc_next h with ⟨-, rfl⟩ | ⟨-, -, hraise⟩ | ⟨-, -, data, -, hdeliver⟩
  · exact answers_skip
  · exact answers_raise hraise rfl rfl
  · exact answers_deliver hdeliver rfl rfl

theorem answers_b32DecEnd {r : Bits × Except B32Error (List Byte)} (h : b32DecEnd s r = .next t) :
    Answers s t (status t) := by
  match r with
  | (_, .error (.invalidCharacter _ _)) => exact answers_raise h rfl rfl
  | (_, .error .malformedInput) => exact answers_raise h rfl rfl
  | (_, .ok _) => exact answers_deliver h rfl rfl

theorem answers_b32DecWith {p : Config.Params} (h : b32DecWith p s = .next t) :
    Answers s t (status t) := by
  rcases b32DecWith_next h with ⟨-, rfl⟩ | ⟨-, -, hraise⟩ | ⟨-, -, text, -, hend⟩
  · exact answers_skip
  · exact answers_raise hraise rfl rfl
  · exact answers_b32DecEnd hend

theorem answers_exec_payBuild (h : exec .payBuild s = .next t) : Answers s t (status t) := by
  rcases exec_payBuild_next h with ⟨-, rfl⟩ | ⟨-, -, hraise⟩ | ⟨-, hash, -, -, hdeliver⟩
  · exact answers_skip
  · exact answers_raise hraise rfl rfl
  · exact answers_deliver hdeliver rfl rfl

theorem answers_payParseEnd {r : Except ErrorKind (List Byte)} (h : payParseEnd s r = .next t) :
    Answers s t (status t) := by
  cases r with
  | error x => exact answers_raise h rfl rfl
  | ok hash => exact answers_deliver h rfl rfl

theorem answers_exec_payParse (h : exec .payParse s = .next t) : Answers s t (status t) := by
  rcases exec_payParse_next h with ⟨-, rfl⟩ | ⟨-, p, -, hend⟩
  · exact answers_skip
  · exact answers_payParseEnd hend

/-! ### The response of every command -/

/-- The value a command reads and gives back in place of `STATUS`: the byte of `LD` and the
registers of `RDR` other than `STATUS` (R46 cases 3 and 4). -/
inductive ReadsOut (s : State) : Instr → Word → Prop where
  | ld {imm b : Byte} (he : s.err = 0) (hb : s.obuf.byteAt imm.toNat = some b) :
    ReadsOut s (.ld imm) (zextByte b)
  | einfo : ReadsOut s .rdrEinfo s.einfo
  | crc : ReadsOut s .rdrCrc s.crc
  | ilen : ReadsOut s .rdrIlen (zextLen s.ilen)
  | olen : ReadsOut s .rdrOlen (zextLen s.olen)

/-- Every command answers `STATUS` as it leaves it, or a value it reads and then changes nothing. -/
theorem exec_answers {i : Instr} (h : exec i s = .next t) :
    Answers s t (status t) ∨ ∃ v, ReadsOut s i v ∧ t = respond v s := by
  cases i with
  | nop => exact .inl (answers_complete (u := s) h rfl rfl)
  | clr => exact .inl (answers_complete (u := clearAll s) h rfl rfl)
  | clre =>
    exact .inl <|
      answers_complete (u := clearError s) h (clearError_responses s) (clearError_inputs s)
  | clri => exact .inl (answers_unlessError_complete (f := setIlen 0) h rfl rfl)
  | st imm => exact .inl (answers_exec_st h)
  | ld imm =>
    rcases exec_ld_next h with ⟨-, rfl⟩ | ⟨-, -, rfl⟩ | ⟨he, -, b, hb, rfl⟩
    · exact .inl answers_skip
    · exact .inl (answers_status_respond rfl rfl)
    · exact .inr ⟨_, .ld he hb, rfl⟩
  | movo => exact .inl (answers_exec_movo h)
  | rdrStatus => exact .inl (answers_complete (u := s) h rfl rfl)
  | rdrEinfo => exact .inr ⟨_, .einfo, (Host.Outcome.next.inj h).symm⟩
  | rdrCrc => exact .inr ⟨_, .crc, (Host.Outcome.next.inj h).symm⟩
  | rdrIlen => exact .inr ⟨_, .ilen, (Host.Outcome.next.inj h).symm⟩
  | rdrOlen => exact .inr ⟨_, .olen, (Host.Outcome.next.inj h).symm⟩
  | crcInit => exact .inl (answers_unlessError_complete (f := setCrc 0x0000) h rfl rfl)
  | crcByte imm =>
    exact .inl <|
      answers_unlessError_complete (f := fun s => setCrc (crcUpdate s.crc imm) s) h rfl rfl
  | crcBuf => exact .inl (answers_exec_crcBuf h)
  | crcSum => exact .inl (answers_exec_crcSum h)
  | b32Enc => exact .inl (answers_exec_b32Enc h)
  | b32Dec => exact .inl (answers_b32DecWith h)
  | payBuild => exact .inl (answers_exec_payBuild h)
  | payParse => exact .inl (answers_exec_payParse h)

theorem exists_answers_exec {i : Instr} (h : exec i s = .next t) : ∃ r, Answers s t r := by
  rcases exec_answers h with hstatus | ⟨v, -, rfl⟩
  · exact ⟨_, hstatus⟩
  · exact ⟨v, answers_respond v s⟩

theorem exists_answers_runWord {w : Word} (h : runWord w s = .next t) : ∃ r, Answers s t r := by
  cases hw : decode w with
  | ok i => exact exists_answers_exec (runWord_of_ok hw s ▸ h)
  | error k => exact ⟨_, answers_illegalCommand (runWord_of_error hw s ▸ h)⟩

/-! ### Which case of R46 it is -/

/-- Bit 15 of `STATUS` is set in every error state (R18). -/
theorem status_msb (he : s.err ≠ 0) : (status s).msb = true := by
  rw [BitVec.msb_eq_getLsbD_last]
  exact (status_bit15 s).2 he

/-- R46 case 1. -/
theorem answers_of_skipped {i : Instr} (h : exec i s = .next t) (he : s.err ≠ 0)
    (hi : Exempt i = false) : Answers s t (status s) := by
  rw [exec_of_error hi he] at h
  exact Host.Outcome.next.inj h ▸ answers_respond (status s) s

/-- R46 case 2: a command that reads a value out leaves `ERR` as it was. -/
theorem answers_of_raised {i : Instr} (h : exec i s = .next t) (he : s.err = 0) (ht : t.err ≠ 0) :
    Answers s t (status t) := by
  rcases exec_answers h with hstatus | ⟨v, -, rfl⟩
  · exact hstatus
  · exact absurd he ht

/-- R46 case 3. -/
theorem answers_of_ld {imm : Byte} (h : exec (.ld imm) s = .next t) (he : s.err = 0)
    (ht : t.err = 0) : ∃ b, s.obuf.byteAt imm.toNat = some b ∧ Answers s t (zextByte b) := by
  rcases exec_ld_next h with ⟨hne, -⟩ | ⟨-, -, rfl⟩ | ⟨-, -, b, hb, rfl⟩
  · exact absurd he hne
  · exact absurd ht (code_ne_zero .eRange)
  · exact ⟨b, hb, answers_respond _ s⟩

/-- R46 case 4. -/
theorem answers_of_answer {v : Word} (h : answer v s = .next t) : Answers s t v :=
  Host.Outcome.next.inj h ▸ answers_respond v s

/-- R46 case 5. -/
theorem answers_of_other {i : Instr} (h : exec i s = .next t) (hld : ∀ imm, i ≠ .ld imm)
    (heinfo : i ≠ .rdrEinfo) (hcrc : i ≠ .rdrCrc) (hilen : i ≠ .rdrIlen) (holen : i ≠ .rdrOlen) :
    Answers s t (status t) := by
  rcases exec_answers h with hstatus | ⟨v, hread, -⟩
  · exact hstatus
  · cases hread with
    | ld => exact absurd rfl (hld _)
    | einfo => exact absurd rfl heinfo
    | crc => exact absurd rfl hcrc
    | ilen => exact absurd rfl hilen
    | olen => exact absurd rfl holen

/-- A byte widened to a response has bit 15 clear, so no success of `LD` looks like an error
(R46). -/
theorem zextByte_msb (b : Byte) : (zextByte b).msb = false := by
  simp [zextByte, BitVec.msb_eq_getLsbD_last]

theorem err_of_illegalCommand (h : illegalCommand s = .next t) : t.err ≠ 0 := by
  rcases unlessError_next h with ⟨-, hraise⟩ | ⟨he, rfl⟩
  · obtain rfl := Host.Outcome.next.inj hraise
    exact code_ne_zero .eIllCmd
  · exact he

end

/-- Settles O6: the response there is one of, compared with the one each case of R46 gives. -/
theorem responseWordOfEveryCommand : Obligations.ResponseWordOfEveryCommand := by
  refine ⟨fun i s t h => ?_, fun w k s t hw h => ?_⟩
  · obtain ⟨r, hr⟩ := exists_answers_exec h
    refine ⟨r, hr.1, fun he hi => ?_, fun he ht => ?_, fun imm hi he ht => ?_, ?_, ?_, ?_, ?_, ?_,
      fun hld heinfo hcrc hilen holen => ?_⟩
    · obtain rfl := hr.unique (answers_of_skipped h he hi)
      exact ⟨rfl, status_msb he⟩
    · obtain rfl := hr.unique (answers_of_raised h he ht)
      exact ⟨rfl, status_msb ht⟩
    · subst hi
      obtain ⟨b, hb, hans⟩ := answers_of_ld h he ht
      obtain rfl := hr.unique hans
      exact ⟨b, hb, rfl, zextByte_msb b⟩
    case refine_4 | refine_5 | refine_6 | refine_7 | refine_8 =>
      rintro rfl
      exact hr.unique (answers_of_answer h)
    · obtain rfl := hr.unique (answers_of_other h hld heinfo hcrc hilen holen)
      exact ⟨rfl, fun ⟨he, hf⟩ => status_of_clear he hf⟩
  · rw [runWord_of_error hw] at h
    exact ⟨(answers_illegalCommand h).1, status_msb (err_of_illegalCommand h)⟩

/-- In the OK state an illegal word raises `E_ILLCMD` and changes nothing else (R135). -/
theorem illegalCommand_of_okState {s : State} (hs : s.Ok) : illegalCommand s =
    .next { s with err := 12, einfo := 0, responses := s.responses ++ [0x800C#16] } := by
  obtain ⟨he, hf⟩ := hs
  have hstatus : status (recordError .eIllCmd 0 s) = 0x800C#16 :=
    status_of_recoverable (code_ne_zero .eIllCmd) hf
  rw [illegalCommand_of_ok he, hstatus]
  rfl

/-- Settles O4: the kinds by the two bytes of the word, then the raise and the skip. -/
theorem illegalWordsRaiseOrAreSkipped : Obligations.IllegalWordsRaiseOrAreSkipped :=
  ⟨decode_eq_error_by_number, fun _ _ s hw =>
    ⟨fun hs => (runWord_of_error hw s).trans (illegalCommand_of_okState hs),
      fun he => (runWord_of_error hw s).trans (illegalCommand_of_error he)⟩⟩

end Sys2Proof.Machine
end

section
/-! PROOFS. Progress: under the invariant every word has a next state (30_encoding.md R59,
60_exceptions.md R143). A meaning can only stop at a buffer access, so what is to show is that the
bytes it reads are held and the bytes it writes fit. -/

namespace Sys2Proof.Machine

/-! ### The lengths of what the base-32 loops give -/

/-- Each turn of the inner loop of R93 takes five bits for one character. -/
theorem emitGroups_length (turns : Nat) (w : Bits) :
    5 * (emitGroups turns w).1.length + (emitGroups turns w).2.nb = w.nb := by
  induction turns generalizing w with
  | zero => simp [emitGroups]
  | succ turns ih =>
    by_cases hnb : 5 ≤ w.nb
    · have hrest := ih ⟨keepBits w.acc (w.nb - 5), w.nb - 5⟩
      rw [emitGroups_of_many turns hnb]
      simp only [List.length_cons] at hrest ⊢
      omega
    · simp [emitGroups_of_few _ (Nat.lt_of_not_le hnb)]

/-- One character for each five bits, the last for what is left (R94). -/
theorem b32EncodeFrom_length {data : List Byte} {w : Bits} (hw : w.Within 4) :
    (b32EncodeFrom data w).1.length = (w.nb + 8 * data.length + 4) / 5 := by
  induction data generalizing w with
  | nil =>
    have hnb := hw.1
    simp only [b32EncodeFrom, flushGroup, List.length_nil]
    split
    · simp only [List.length_singleton]
      omega
    · simp only [List.length_nil]
      omega
  | cons b bs ih =>
    have hgroups := emitGroups_length (pushByte w b).nb (pushByte w b)
    have hrest :=
      ih (emitGroups_within (turns := (pushByte w b).nb) (by omega) (pushByte_lt hw.2 b))
    have hpush : (pushByte w b).nb = w.nb + 8 := rfl
    simp only [b32EncodeFrom, List.length_append, List.length_cons, hrest]
    omega

theorem exists_of_map_eq_ok {ε α β : Type} {f : α → β} {r : Except ε α} {y : β}
    (h : r.map f = .ok y) : ∃ x, r = .ok x ∧ f x = y := by
  cases r with
  | error e => cases h
  | ok x => exact ⟨x, rfl, Except.ok.inj h⟩

/-- The decoder gives at most one byte for each character (R95). -/
theorem b32DecodeFrom_length_le {accW pos : Nat} {text bytes : List Byte} {w : Bits}
    (h : (b32DecodeFrom accW pos text w).2 = .ok bytes) : bytes.length ≤ text.length := by
  induction text generalizing pos w bytes with
  | nil =>
    obtain rfl := Except.ok.inj h
    exact Nat.le_refl _
  | cons ch rest ih =>
    cases hv : b32Inv (upcase ch) with
    | none =>
      rw [b32DecodeFrom_of_bad hv] at h
      cases h
    | some v =>
      by_cases hguard : w.nb + 5 ≤ accW
      · by_cases hbyte : 8 ≤ w.nb + 5
        · rw [b32DecodeFrom_of_many hv hguard hbyte] at h
          obtain ⟨bs, hbs, rfl⟩ := exists_of_map_eq_ok h
          exact Nat.succ_le_succ (ih hbs)
        · rw [b32DecodeFrom_of_few hv hguard (Nat.lt_of_not_le hbyte)] at h
          exact Nat.le_succ_of_le (ih h)
      · rw [b32DecodeFrom, hv] at h
        simp [Nat.lt_of_not_le hguard] at h

/-! ### Every command has a next state -/

/-- The outcome is a next state, neither a fault nor a refusal (R143). -/
def Progresses (r : Result) : Prop := ∃ t, r = .next t

section
variable {s : State}

theorem progresses_next (t : State) : Progresses (.next t) := ⟨t, rfl⟩

theorem progresses_raise (x : ErrorKind) (info : Word) (s : State) : Progresses (raise x info s) :=
  ⟨_, rfl⟩

theorem progresses_deliver {bs : List Byte} (h : bs.length ≤ 256) : Progresses (deliver bs s) :=
  ⟨_, deliver_of_fits h⟩

/-- The error-state test made once for the commands it applies to (R138). -/
theorem progresses_exec_of_ok {i : Instr} (hi : Exempt i = false)
    (hok : s.err = 0 → Progresses (exec i s)) : Progresses (exec i s) := by
  by_cases he : s.err = 0
  · exact hok he
  · exact ⟨_, exec_of_error hi he⟩

theorem progresses_illegalCommand (s : State) : Progresses (illegalCommand s) := by
  by_cases he : s.err = 0
  · exact ⟨_, illegalCommand_of_ok he⟩
  · exact ⟨_, illegalCommand_of_error he⟩

theorem progresses_exec_st (hs : s.Inv) (imm : Byte) (he : s.err = 0) :
    Progresses (exec (.st imm) s) := by
  by_cases hfull : s.ilen = 256
  · exact ⟨_, exec_st_of_full imm he hfull⟩
  · have hroom : s.ilen.toNat < 256 := by
      obtain ⟨⟨hilen, -⟩, -⟩ := hs
      exact Nat.lt_of_le_of_ne hilen fun e => hfull (BitVec.eq_of_toNat_eq e)
    exact ⟨_, exec_st_of_room imm he hroom⟩

theorem progresses_exec_ld (hs : s.Inv) (imm : Byte) (he : s.err = 0) :
    Progresses (exec (.ld imm) s) := by
  by_cases hrange : s.olen.toNat ≤ imm.toNat
  · exact ⟨_, exec_ld_of_range imm he hrange⟩
  · have hlt : imm.toNat < s.olen.toNat := Nat.lt_of_not_le hrange
    obtain ⟨-, houtput⟩ := buffersHeld_of_inv hs
    obtain ⟨b, hb⟩ := Option.isSome_iff_exists.1 (houtput imm.toNat hlt)
    exact ⟨_, exec_ld_of_held he hlt hb⟩

theorem progresses_exec_movo (hs : s.Inv) (he : s.err = 0) : Progresses (exec .movo s) := by
  obtain ⟨data, hd⟩ := exists_outputIs (buffersHeld_of_inv hs)
  obtain ⟨⟨-, holen, -⟩, -⟩ := hs
  exact ⟨_, exec_movo_of_held he hd (hd.1 ▸ holen)⟩

theorem progresses_exec_crcBuf (hs : s.Inv) (he : s.err = 0) : Progresses (exec .crcBuf s) := by
  obtain ⟨data, hd⟩ := exists_inputIs (buffersHeld_of_inv hs)
  exact ⟨_, exec_crcBuf_of_held he hd⟩

theorem progresses_exec_crcSum (hs : s.Inv) (he : s.err = 0) : Progresses (exec .crcSum s) := by
  obtain ⟨data, hd⟩ := exists_inputIs (buffersHeld_of_inv hs)
  exact ⟨_, exec_crcSum_of_held he hd⟩

/-- The bound of 160 bytes is the one whose encoding fits `OBUF` (R97). -/
theorem progresses_exec_b32Enc (hs : s.Inv) (he : s.err = 0) : Progresses (exec .b32Enc s) := by
  by_cases hlong : 160 < s.ilen.toNat
  · exact ⟨_, exec_b32Enc_of_long he hlong⟩
  · obtain ⟨data, hd⟩ := exists_inputIs (buffersHeld_of_inv hs)
    have hlen : s.ilen.toNat = data.length := hd.1
    rw [exec_b32Enc_of_held he hd (Nat.le_of_not_lt hlong)]
    refine progresses_deliver ?_
    rw [b32EncodeFrom_length (Bits.within_zero 4), Nat.zero_add]
    omega

theorem progresses_b32DecEnd {r : Bits × Except B32Error (List Byte)}
    (h : ∀ bytes, r.2 = .ok bytes → bytes.length ≤ 256) : Progresses (b32DecEnd s r) := by
  match r, h with
  | (_, .error (.invalidCharacter _ _)), _ => exact progresses_raise _ _ _
  | (_, .error .malformedInput), _ => exact progresses_raise _ _ _
  | (_, .ok bytes), h => exact progresses_deliver (h bytes rfl)

theorem progresses_b32DecWith (p : Config.Params) (hs : s.Inv) (he : s.err = 0) :
    Progresses (b32DecWith p s) := by
  by_cases hlong : p.b32MaxIn < s.ilen.toNat
  · exact ⟨_, b32DecWith_of_long he hlong⟩
  · obtain ⟨text, hd⟩ := exists_inputIs (buffersHeld_of_inv hs)
    obtain ⟨⟨hilen, -⟩, -⟩ := hs
    rw [b32DecWith_of_held he hd (Nat.le_of_not_lt hlong)]
    exact progresses_b32DecEnd fun bytes h =>
      (b32DecodeFrom_length_le h).trans (hd.1 ▸ hilen)

theorem progresses_exec_payBuild (hs : s.Inv) (he : s.err = 0) : Progresses (exec .payBuild s) := by
  by_cases hlen : s.ilen.toNat = 32
  · obtain ⟨hash, hd⟩ := exists_inputIs (buffersHeld_of_inv hs)
    have hhash : hash.length = 32 := hd.1 ▸ hlen
    rw [exec_payBuild_of_held he hd hhash]
    exact progresses_deliver (by rw [payloadBuild_length, hhash]; decide)
  · exact ⟨_, exec_payBuild_of_length he hlen⟩

theorem progresses_exec_payParse (hs : s.Inv) (he : s.err = 0) : Progresses (exec .payParse s) := by
  obtain ⟨p, hd⟩ := exists_inputIs (buffersHeld_of_inv hs)
  rw [exec_payParse_of_held he hd]
  cases hp : payloadParse p with
  | error x => exact progresses_raise x 0 s
  | ok hash =>
    have hhash := (payloadParse_ok_length hp).2
    exact progresses_deliver (by omega)

theorem progresses_exec (hs : s.Inv) (i : Instr) : Progresses (exec i s) := by
  cases i with
  | nop => exact progresses_next _
  | clr => exact progresses_next _
  | clre => exact progresses_next _
  | clri => exact progresses_exec_of_ok rfl fun he => ⟨_, exec_clri_of_ok he⟩
  | st imm => exact progresses_exec_of_ok rfl (progresses_exec_st hs imm)
  | ld imm => exact progresses_exec_of_ok rfl (progresses_exec_ld hs imm)
  | movo => exact progresses_exec_of_ok rfl (progresses_exec_movo hs)
  | rdrStatus => exact progresses_next _
  | rdrEinfo => exact progresses_next _
  | rdrCrc => exact progresses_next _
  | rdrIlen => exact progresses_next _
  | rdrOlen => exact progresses_next _
  | crcInit => exact progresses_exec_of_ok rfl fun he => ⟨_, exec_crcInit_of_ok he⟩
  | crcByte imm => exact progresses_exec_of_ok rfl fun he => ⟨_, exec_crcByte_of_ok imm he⟩
  | crcBuf => exact progresses_exec_of_ok rfl (progresses_exec_crcBuf hs)
  | crcSum => exact progresses_exec_of_ok rfl (progresses_exec_crcSum hs)
  | b32Enc => exact progresses_exec_of_ok rfl (progresses_exec_b32Enc hs)
  | b32Dec => exact progresses_exec_of_ok rfl (progresses_b32DecWith Config.params hs)
  | payBuild => exact progresses_exec_of_ok rfl (progresses_exec_payBuild hs)
  | payParse => exact progresses_exec_of_ok rfl (progresses_exec_payParse hs)

theorem progresses_runWord (hs : s.Inv) (w : Word) : Progresses (runWord w s) := by
  cases hw : decode w with
  | ok i => exact runWord_of_ok hw s ▸ progresses_exec hs i
  | error k => exact runWord_of_error hw s ▸ progresses_illegalCommand s

/-- The pending inputs are no part of the invariant, so it holds of the state the command is run
in. -/
theorem safe_of_inv (hs : s.Inv) : Safe s := by
  cases hin : s.inputs with
  | nil => exact ⟨s, step_of_nil hin⟩
  | cons x rest =>
    rw [Safe, step_of_cons hin]
    cases x with
    | command w => exact progresses_runWord (s := { s with inputs := rest }) hs w
    | reset => exact progresses_next _

end

/-- Settles O36: every word progresses under the invariant, and whatever progresses answers with one
response. -/
theorem everyWordAnswersUnderTheInvariant : Obligations.EveryWordAnswersUnderTheInvariant := by
  refine fun s hs => ⟨fun w => ?_, safe_of_inv hs⟩
  obtain ⟨t, ht⟩ := progresses_runWord hs w
  obtain ⟨r, hresponses, hinputs⟩ := exists_answers_runWord ht
  exact ⟨t, r, ht, hresponses, hinputs⟩

end Sys2Proof.Machine
end

section
/-! PROOFS. The buffer and system commands of 40_buffer_system.md: what each one answers in the OK
state, in an error state and where it raises, and what a step makes of a command word (R60). -/

namespace Sys2Proof.Machine

section
variable {s : State}

/-! ### Bytes stored from index 0 -/

/-- The bytes beyond the ones stored are as before (R67). -/
theorem byteAt_storeFrom_zero_of_ge {bs : List Byte} {i : Nat} (m : Memory) (h : bs.length ≤ i) :
    (storeFrom m 0 bs).byteAt i = m.byteAt i := by
  rw [byteAt_storeFrom, if_neg (by omega)]

/-! ### Raising from the OK state -/

/-- A recoverable error without data, raised from the OK state: `ERR`, `EINFO` and the response, and
nothing else (R136, R137). -/
theorem raise_of_okState {x : ErrorKind} (hs : s.Ok) (hfatal : x ≠ .ePrecond)
    (hdata : x ≠ .invalidBase32Character) : raise x 0 s = .next { s with
      err := x.code, einfo := 0,
      responses := s.responses ++ [0x8000#16 + x.code.zeroExtend 16] } := by
  have hff : (recordError x 0 s).ff = false := by rw [recordError_ff, if_neg hfatal, hs.2]
  rw [raise_eq, status_of_recoverable (code_ne_zero x) hff, recordError_err, recordError,
    if_neg hfatal, if_neg hdata, respond]

/-! ### `CLRE` and `RDR` -/

theorem exec_clre_of_not_fatal (hf : s.ff = false) : exec .clre s = .next { s with
    err := 0, einfo := 0, responses := s.responses ++ [0x0000#16] } := by
  have hstatus : status { s with err := 0, einfo := 0 } = 0x0000#16 := status_of_clear rfl hf
  rw [exec, execClre, clearError_of_not_fatal hf, complete_eq, hstatus, respond]

theorem exec_clre_of_fatal (hf : s.ff = true) :
    exec .clre s = .next (respond (status s) s) := by
  rw [exec, execClre, clearError_of_fatal hf, complete_eq]

/-- The register numbers from 5 up are reserved (R19, R55). -/
theorem decode_rdr_reserved {r : Byte} (hr : 5 ≤ r.toNat) :
    decode (0x07#8 ++ r) = .error .reservedRegister := by
  rw [decode_append, decodeFields_eq_error]
  exact .inr (.inr ⟨rfl, rfl, hr⟩)

end

/-! ### The obligations -/

/-- Settles O10: `NOP` is one response of `STATUS` and no test. -/
theorem nopReturnsStatusAndChangesNothing : Obligations.NopReturnsStatusAndChangesNothing :=
  ⟨decode_encode .nop, complete_eq⟩

/-- Settles O11: `CLR` is one `clearAll`, after which `STATUS` is zero. -/
theorem clrZeroesEveryRegister : Obligations.ClrZeroesEveryRegister := by
  refine ⟨decode_encode .clr, fun s => ?_⟩
  rw [exec, execClr, complete_eq, status_clearAll]
  rfl

/-- Settles O12: `CLRE` tests `FF` alone; the response in the fatal state is a value of `STATUS`
(R18). -/
theorem clreClearsARecoverableError : Obligations.ClreClearsARecoverableError := by
  refine ⟨decode_encode .clre, fun s => ⟨exec_clre_of_not_fatal, exec_clre_of_fatal, ?_⟩⟩
  obtain ⟨-, -, -, -, -, -, hfatal⟩ := statusIsTheViewOfErrAndFf s
  exact fun hf he => hfatal he hf

/-- Settles O14: each register is answered as it stands, without a test. -/
theorem rdrReadsTheFiveRegisters : Obligations.RdrReadsTheFiveRegisters :=
  ⟨⟨decode_encode .rdrStatus, decode_encode .rdrEinfo, decode_encode .rdrCrc,
      decode_encode .rdrIlen, decode_encode .rdrOlen, fun _ => decode_rdr_reserved⟩,
    fun s => ⟨answer_eq (status s) s, answer_eq s.einfo s, answer_eq s.crc s,
      answer_eq (zextLen s.ilen) s, answer_eq (zextLen s.olen) s⟩⟩

/-- Settles O13: past the error-state test `CLRI` is one `setIlen`. -/
theorem clriEmptiesTheInputBuffer : Obligations.ClriEmptiesTheInputBuffer := by
  refine ⟨decode_encode .clri, fun s => ⟨fun ⟨he, hf⟩ => ?_, exec_of_error rfl⟩⟩
  rw [exec_clri_of_ok he, status_of_clear he hf]
  rfl

/-- Settles O15: where there is room the immediate is stored at index `ILEN`, and a store changes
the byte at its own index and no other. -/
theorem stAppendsOneByte : Obligations.StAppendsOneByte := by
  refine fun imm s => ⟨decode_encode (.st imm), fun ⟨he, hf⟩ hroom => ?_, fun hs hfull => ?_,
    exec_of_error rfl⟩
  · rw [exec_st_of_room imm he hroom, status_of_clear he hf]
    exact ⟨_, rfl, rfl, toNat_add_one_of_lt hroom, Memory.byteAt_store_same ..,
      fun j hj => Memory.byteAt_store_other _ imm hj⟩
  · rw [exec_st_of_full imm hs.1 (BitVec.eq_of_toNat_eq hfull)]
    exact raise_of_okState hs nofun nofun

/-- Settles O16: on the two sides of `OLEN`, the byte read or the error. -/
theorem ldReadsOneOutputByte : Obligations.LdReadsOneOutputByte := by
  refine fun imm s => ⟨decode_encode (.ld imm), fun b ⟨he, _⟩ => exec_ld_of_held he,
    fun hs hge => ?_, exec_of_error rfl⟩
  rw [exec_ld_of_range imm hs.1 hge]
  exact raise_of_okState hs nofun nofun

/-- Settles O17: the bytes of `OBUF` stored from index 0 of `IBUF` are its valid bytes, and none is
stored at or beyond `OLEN`. -/
theorem movoCopiesTheOutputToTheInput : Obligations.MovoCopiesTheOutputToTheInput := by
  refine ⟨decode_encode .movo, fun s => ⟨fun data ⟨he, hf⟩ hdata hfit => ?_, exec_of_error rfl⟩⟩
  have hlen : s.olen.toNat = data.length := hdata.1
  rw [exec_movo_of_held he hdata hfit, status_of_clear he hf]
  exact ⟨_, rfl, rfl, ⟨hlen, fun i hi => byteAt_storeFrom_zero _ hi⟩,
    fun j hj => byteAt_storeFrom_zero_of_ge _ (hlen ▸ hj)⟩

/-- Settles O5: a step on a pending word runs that word on the rest of the inputs; the skip and the
raise are those of the command and of the illegal word. -/
theorem stepRunsTheDecodedCommand : Obligations.StepRunsTheDecodedCommand := by
  intro s w rest hin
  have hstep : step s = runWord w { s with inputs := rest } := step_of_cons hin
  rw [hstep]
  refine ⟨fun i hw => runWord_of_ok hw _, fun i hw he hi => ?_, fun k hw he => ?_,
    fun k hw hs => ?_⟩
  · rw [runWord_of_ok hw]
    exact exec_of_error hi he
  · rw [runWord_of_error hw]
    exact illegalCommand_of_error he
  · rw [runWord_of_error hw]
    exact illegalCommand_of_okState hs

end Sys2Proof.Machine
end

section
/-! PROOFS. The CRC unit of 41_crc.md. One round is linear and injective and, below the top bit, a
plain shift; from these three facts come the laws of the per-byte step, of the checksum (R86, R88)
and the shift register of R87. The four commands then write what these functions give. -/

namespace Sys2Proof.Machine

/-! ### One round -/

/-- What the bit shifted out feeds back: the polynomial of R80, or nothing. -/
def crcFeedback (f : Bool) : Word := if f then 0x1021 else 0x0000

theorem crcFeedback_getLsbD (f : Bool) {k : Nat} (hk : k < 16) :
    (crcFeedback f).getLsbD k = (f && decide (k = 0 ∨ k = 5 ∨ k = 12)) := by
  have hbits : ∀ k < 16, (0x1021#16).getLsbD k = decide (k = 0 ∨ k = 5 ∨ k = 12) := by decide
  cases f with
  | false => simp [crcFeedback]
  | true => exact hbits k hk

theorem crcFeedback_xor (f g : Bool) :
    crcFeedback (f ^^ g) = crcFeedback f ^^^ crcFeedback g := by
  cases f <;> cases g <;> rfl

theorem crcRound_eq (c : Word) : crcRound c = (c <<< 1) ^^^ crcFeedback c.msb := by
  cases h : c.msb <;> simp [crcRound, crcFeedback, h]

/-- The bits of R87: the feedback enters at three positions, and at position 0 nothing else does. -/
theorem crcRound_getLsbD (c : Word) {k : Nat} (hk : k < 16) :
    (crcRound c).getLsbD k =
      if k = 0 then c.getLsbD 15
      else if k = 5 then (c.getLsbD 4).xor (c.getLsbD 15)
      else if k = 12 then (c.getLsbD 11).xor (c.getLsbD 15)
      else c.getLsbD (k - 1) := by
  rw [crcRound_eq, BitVec.getLsbD_xor, BitVec.getLsbD_shiftLeft, crcFeedback_getLsbD _ hk,
    BitVec.msb_eq_getLsbD_last]
  split
  · next h0 => subst h0; simp
  split
  · next h5 => subst h5; simp
  split
  · next h12 => subst h12; simp
  · next h0 h5 h12 => simp [hk, h0, h5, h12]

theorem crcRound_xor (c d : Word) : crcRound (c ^^^ d) = crcRound c ^^^ crcRound d := by
  simp only [crcRound_eq, BitVec.msb_xor, crcFeedback_xor, BitVec.shiftLeft_xor_distrib]
  ac_rfl

/-- Bit 0 of a round is the bit shifted out, so the feedback can be undone and nothing is lost. -/
theorem crcRound_injective : Function.Injective crcRound := by
  intro c d h
  have hmsb : c.msb = d.msb := by
    have hbit : (crcRound c).getLsbD 0 = (crcRound d).getLsbD 0 := by rw [h]
    rw [crcRound_getLsbD c (by decide), crcRound_getLsbD d (by decide)] at hbit
    exact hbit
  have hshift : c <<< 1 = d <<< 1 := by
    rw [crcRound_eq, crcRound_eq, hmsb] at h
    exact (BitVec.xor_left_inj _).1 h
  have hnat := congrArg BitVec.toNat hshift
  rw [BitVec.msb_eq_decide, BitVec.msb_eq_decide, decide_eq_decide] at hmsb
  rw [BitVec.toNat_shiftLeft, BitVec.toNat_shiftLeft] at hnat
  exact BitVec.eq_of_toNat_eq (by omega)

/-- Without feedback a round doubles the register. -/
theorem crcRound_toNat_of_small {c : Word} (h : c.toNat * 2 < 2 ^ 16) :
    (crcRound c).toNat = c.toNat * 2 := by
  have hmsb : c.msb = false := by rw [BitVec.msb_eq_decide, decide_eq_false_iff_not]; omega
  rw [crcRound_eq, hmsb, show crcFeedback false = 0#16 from rfl, BitVec.xor_zero,
    BitVec.toNat_shiftLeft]
  omega

/-! ### Several rounds -/

theorem crcRounds_eq_iterate (n : Nat) (c : Word) : crcRounds n c = crcRound^[n] c := by
  induction n generalizing c with
  | zero => rfl
  | succ n ih => exact ih _

theorem crcRounds_xor (n : Nat) (c d : Word) :
    crcRounds n (c ^^^ d) = crcRounds n c ^^^ crcRounds n d := by
  induction n generalizing c d with
  | zero => rfl
  | succ n ih => rw [crcRounds, crcRound_xor, ih, crcRounds, crcRounds]

theorem crcRounds_injective (n : Nat) : Function.Injective (crcRounds n) := by
  rw [funext (crcRounds_eq_iterate n)]
  exact crcRound_injective.iterate n

/-- As long as no bit reaches the top, the rounds are shifts. -/
theorem crcRounds_toNat_of_small {n : Nat} {c : Word} (h : c.toNat * 2 ^ n < 2 ^ 16) :
    (crcRounds n c).toNat = c.toNat * 2 ^ n := by
  induction n generalizing c with
  | zero => exact (Nat.mul_one _).symm
  | succ n ih =>
    rw [pow_succ', ← Nat.mul_assoc] at h ⊢
    have hround := crcRound_toNat_of_small
      (Nat.lt_of_le_of_lt (Nat.le_mul_of_pos_right _ (Nat.two_pow_pos n)) h)
    rw [crcRounds, ih (hround ▸ h), hround]

/-! ### One byte -/

theorem append_xor_append (a b c d : Byte) :
    (a ++ b : Word) ^^^ (c ++ d) = (a ^^^ c) ++ (b ^^^ d) :=
  BitVec.xor_append

/-- The byte enters at bits 15:8 (R80, R87). -/
theorem zextByte_shiftLeft (b : Byte) : zextByte b <<< 8 = b ++ 0x00#8 := by
  refine BitVec.eq_of_toNat_eq ?_
  rw [append_toNat, zextByte, BitVec.toNat_shiftLeft, BitVec.toNat_setWidth]
  simp only [Nat.shiftLeft_eq, BitVec.toNat_ofNat]
  omega

theorem crcUpdate_eq (c : Word) (b : Byte) : crcUpdate c b = crcRounds 8 (c ^^^ (b ++ 0x00#8)) := by
  rw [crcUpdate, zextByte_shiftLeft]

/-- The step is linear in register and byte together (R86). -/
theorem crcUpdate_xor (c d : Word) (a b : Byte) :
    crcUpdate (c ^^^ d) (a ^^^ b) = crcUpdate c a ^^^ crcUpdate d b := by
  have hsplit : (a ^^^ b) ++ 0x00#8 = (a ++ 0x00#8) ^^^ (b ++ 0x00#8) := by
    rw [append_xor_append, BitVec.xor_self]
  rw [crcUpdate_eq, crcUpdate_eq, crcUpdate_eq, ← crcRounds_xor, hsplit]
  congr 1
  ac_rfl

theorem crcUpdate_injective (b : Byte) : Function.Injective (crcUpdate · b) := by
  intro c d h
  simp only [crcUpdate_eq] at h
  exact (BitVec.xor_left_inj _).1 (crcRounds_injective 8 h)

theorem crcUpdate_byte_injective (c : Word) : Function.Injective (crcUpdate c) := by
  intro a b h
  rw [crcUpdate_eq, crcUpdate_eq] at h
  have hentry : (a ++ 0x00#8 : Word) = b ++ 0x00#8 :=
    (BitVec.xor_right_inj c).1 (crcRounds_injective 8 h)
  exact (BitVec.append_left_inj _).1 hentry

theorem crcUpdate_bijective (b : Byte) : Function.Bijective (crcUpdate · b) := by
  have : Finite Word := .of_injective _ BitVec.toFin_injective
  exact Finite.injective_iff_bijective.1 (crcUpdate_injective b)

/-- Feeding the register's own high byte cancels it, and the low byte moves up untouched: what makes
a leading zero invisible and the residue zero (R88 items 2 and 4). -/
theorem crcUpdate_own_high_byte (hi lo : Byte) : crcUpdate (hi ++ lo) hi = lo ++ 0x00#8 := by
  have hcancel : (hi ++ lo : Word) ^^^ (hi ++ 0x00#8) = 0x00#8 ++ lo := by
    rw [append_xor_append, BitVec.xor_self, BitVec.xor_zero]
  have hlo : (0x00#8 ++ lo : Word).toNat = lo.toNat := by simp [append_toNat]
  have hlt := lo.isLt
  refine BitVec.eq_of_toNat_eq ?_
  rw [crcUpdate_eq, hcancel, crcRounds_toNat_of_small (by omega), hlo, append_toNat]
  exact (Nat.add_zero _).symm

/-! ### A byte sequence -/

/-- The fold is linear in the register and the bytes together (R88 item 3). -/
theorem crcFold_xor {as bs : List Byte} (h : as.length = bs.length) (c d : Word) :
    crcFold (c ^^^ d) (List.zipWith (· ^^^ ·) as bs) = crcFold c as ^^^ crcFold d bs := by
  induction as generalizing bs c d with
  | nil =>
    obtain rfl := List.length_eq_zero_iff.1 h.symm
    rfl
  | cons a as ih =>
    obtain _ | ⟨b, bs⟩ := bs
    · cases h
    · rw [List.zipWith_cons_cons, crcFold, crcUpdate_xor, ih (Nat.succ.inj h), crcFold, crcFold]

theorem crcFold_injective (bs : List Byte) : Function.Injective (crcFold · bs) := by
  induction bs with
  | nil => exact Function.injective_id
  | cons b bs ih => exact ih.comp (crcUpdate_injective b)

/-- The register fed with itself, high byte first, becomes zero (R88 item 4). -/
theorem crcFold_own_bytes (c : Word) :
    crcFold c [c.extractLsb' 8 8, c.extractLsb' 0 8] = 0x0000#16 := by
  obtain ⟨hi, lo, rfl⟩ := exists_append c
  rw [opcode_append, lowByte_append, crcFold, crcFold, crcUpdate_own_high_byte,
    crcUpdate_own_high_byte]
  rfl

theorem one_shiftLeft_ne_zero {k : Nat} (hk : k < 8) : 1#8 <<< k ≠ 0#8 := by
  decide +revert

/-- One byte changed, whatever the change and whatever stands around it, changes the checksum. -/
theorem checksum_ne_of_byte_ne {x y : Byte} (h : x ≠ y) (a c : List Byte) :
    checksum (a ++ x :: c) ≠ checksum (a ++ y :: c) := by
  intro hsum
  simp only [checksum, crcFold_append, crcFold] at hsum
  exact h (crcUpdate_byte_injective _ (crcFold_injective c hsum))

/-! ### The shift register -/

theorem crcRound_eq_crcRoundShiftRegister (c : Word) :
    crcRound c = crcRoundShiftRegister c := by
  refine BitVec.eq_of_getLsbD_eq fun k hk => ?_
  rw [crcRound_getLsbD c hk, crcRoundShiftRegister, BitVec.getLsbD_ofBoolListLE]
  interval_cases k <;> rfl

/-! ### The obligations -/

/-- Settles O40: both forms of a round have the same sixteen bits, and the rounds are an
iteration. -/
theorem crcRoundIsTheShiftRegister : Obligations.CrcRoundIsTheShiftRegister := by
  refine ⟨fun c _ => crcRound_getLsbD c, crcRound_eq_crcRoundShiftRegister, fun c b => ?_⟩
  rw [crcUpdate_eq, crcRounds_eq_iterate, funext crcRound_eq_crcRoundShiftRegister]

/-- Settles O41: injective on a finite type, and linearity at a zero byte and a zero register. -/
theorem crcUpdateIsBijectiveAndLinear : Obligations.CrcUpdateIsBijectiveAndLinear := by
  refine ⟨crcUpdate_bijective, fun c b => ?_⟩
  rw [← crcUpdate_xor, BitVec.xor_zero, BitVec.zero_xor]

/-- Settles O42: the fold continues, a zero byte keeps the zero register, the fold is linear, and a
register fed with itself becomes zero. -/
theorem checksumLaws : Obligations.ChecksumLaws := by
  refine ⟨fun a b => ?_, fun d => ?_, fun a b h => crcFold_xor h 0 0, fun d => ?_⟩
  · rw [checksum, crcFold_append, crcFold_eq_foldl _ b, checksum]
  · exact congrArg (crcFold · d) (crcUpdate_own_high_byte 0x00#8 0x00#8)
  · exact (crcFold_append ..).trans (crcFold_own_bytes _)

/-- Settles O43: a flipped bit is a changed byte. -/
theorem checksumDetectsEverySingleBitError : Obligations.ChecksumDetectsEverySingleBitError := by
  intro a c b k hk
  refine checksum_ne_of_byte_ne (fun h => one_shiftLeft_ne_zero hk ?_) a c
  rwa [← BitVec.xor_right_inj b, BitVec.xor_zero]

/-- Settles O18: past the error-state test `CRC.INIT` is one `setCrc`. -/
theorem crcInitZeroesTheRegister : Obligations.CrcInitZeroesTheRegister := by
  refine ⟨decode_encode .crcInit, fun s => ⟨fun ⟨he, hf⟩ => ?_, exec_of_error rfl⟩⟩
  rw [exec_crcInit_of_ok he, status_of_clear he hf]
  rfl

/-- Settles O19: past the error-state test `CRC.BYTE` is one `setCrc` with the per-byte step. -/
theorem crcByteFeedsOneByte : Obligations.CrcByteFeedsOneByte := by
  refine fun imm s => ⟨decode_encode (.crcByte imm), fun ⟨he, hf⟩ => ?_, exec_of_error rfl⟩
  rw [exec_crcByte_of_ok imm he, status_of_clear he hf]
  rfl

/-- Settles O20: the command's fold is the list's, from the register as it stands. -/
theorem crcBufFeedsTheInputBuffer : Obligations.CrcBufFeedsTheInputBuffer := by
  refine ⟨decode_encode .crcBuf, fun s => ⟨fun data ⟨he, hf⟩ hdata => ?_, exec_of_error rfl⟩⟩
  rw [exec_crcBuf_of_held he hdata, status_of_clear he hf, crcFold_eq_foldl]
  rfl

/-- Settles O21: `CRC.INIT` keeps the input bytes, so `CRC.BUF` after it folds them from the zero
`CRC.SUM` starts with. -/
theorem crcSumIsTheChecksumOfTheInput : Obligations.CrcSumIsTheChecksumOfTheInput := by
  refine ⟨decode_encode .crcSum, fun s => ⟨fun data ⟨he, hf⟩ hdata => ⟨?_, ?_⟩,
    exec_of_error rfl⟩⟩
  · rw [exec_crcSum_of_held he hdata, status_of_clear he hf, checksum, crcFold_eq_foldl]
    rfl
  · exact ⟨_, _, _, exec_crcInit_of_ok he, exec_crcBuf_of_held he hdata,
      exec_crcSum_of_held he hdata, rfl⟩

end Sys2Proof.Machine
end

section
/-! PROOFS. Bit strings, most significant bit first: how the bits of a number fall apart, and that
the two cuts of a bit string, in fives (R93) and in eights (R95), lose nothing. -/

namespace Sys2Proof.Machine

/-! ### The bits of a number -/

@[simp] theorem bitsOf_length (k v : Nat) : (bitsOf k v).length = k := by
  induction k with
  | zero => rfl
  | succ k ih => rw [bitsOf, List.length_cons, ih]

theorem bitsOf_zero (k : Nat) : bitsOf k 0 = List.replicate k false := by
  induction k with
  | zero => rfl
  | succ k ih => rw [bitsOf, ih, Nat.zero_testBit, List.replicate_succ]

/-- The higher bits of a number are those of its shift. -/
theorem bitsOf_add (j k v : Nat) : bitsOf (j + k) v = bitsOf j (v >>> k) ++ bitsOf k v := by
  induction j with
  | zero => rw [Nat.zero_add, bitsOf, List.nil_append]
  | succ j ih =>
    rw [Nat.succ_add, bitsOf, ih, bitsOf, Nat.testBit_shiftRight, Nat.add_comm k j,
      List.cons_append]

theorem bitsOf_mod {k n : Nat} (h : k ≤ n) (v : Nat) : bitsOf k (v % 2 ^ n) = bitsOf k v := by
  induction k with
  | zero => rfl
  | succ k ih =>
    have hbit : (v % 2 ^ n).testBit k = v.testBit k := by
      rw [Nat.testBit_mod_two_pow, decide_eq_true (Nat.lt_of_succ_le h), Bool.true_and]
    rw [bitsOf, hbit, ih (Nat.le_of_succ_le h), bitsOf]

/-- Bits shifted in below the others stand after them. -/
theorem bitsOf_shiftIn {k v : Nat} (n acc : Nat) (hv : v < 2 ^ k) :
    bitsOf (n + k) ((acc <<< k) ||| v) = bitsOf n acc ++ bitsOf k v := by
  have hsum : (acc <<< k) ||| v = 2 ^ k * acc + v := by
    rw [← Nat.shiftLeft_add_eq_or_of_lt hv, Nat.shiftLeft_eq, Nat.mul_comm]
  have hhigh : (2 ^ k * acc + v) >>> k = acc := by
    rw [Nat.shiftRight_eq_div_pow, Nat.mul_add_div (Nat.two_pow_pos k), Nat.div_eq_of_lt hv,
      Nat.add_zero]
  rw [hsum, bitsOf_add, hhigh, ← bitsOf_mod (Nat.le_refl k) (2 ^ k * acc + v),
    Nat.mul_add_mod_self_left, Nat.mod_eq_of_lt hv]

theorem valueFrom_bitsOf (u k v : Nat) : valueFrom u (bitsOf k v) = u * 2 ^ k + v % 2 ^ k := by
  induction k generalizing u with
  | zero => simp [bitsOf, valueFrom, Nat.mod_one]
  | succ k ih =>
    rw [bitsOf, valueFrom, ih, Nat.toNat_testBit, Nat.mod_pow_succ, pow_succ]
    ring

theorem valueOf_bitsOf (k v : Nat) : valueOf (bitsOf k v) = v % 2 ^ k := by
  rw [valueOf, valueFrom_bitsOf, Nat.zero_mul, Nat.zero_add]

/-- Five bits are the five bits of the number they write, and it is a value of a character. -/
theorem bitsOf_valueOf_five (a b c d e : Bool) :
    bitsOf 5 (valueOf [a, b, c, d, e]) = [a, b, c, d, e] ∧ valueOf [a, b, c, d, e] < 32 := by
  decide +revert

/-- The bits of a byte. -/
def byteBits (b : Byte) : List Bool := bitsOf 8 b.toNat

/-- Byte sequences have eight bits a byte. -/
theorem flatMap_byteBits_length (bs : List Byte) :
    (bs.flatMap byteBits).length = 8 * bs.length := by
  simp [List.length_flatMap, byteBits, Nat.mul_comm]

/-! ### The cut in fives -/

theorem groupsOf5_bitsOf_append (v : Nat) (rest : List Bool) :
    groupsOf5 (bitsOf 5 v ++ rest) = v % 32 :: groupsOf5 rest :=
  congrArg (· :: groupsOf5 rest) (valueOf_bitsOf 5 v)

theorem groupsOf5_lt {bs : List Bool} {v : Nat} (h : v ∈ groupsOf5 bs) : v < 32 := by
  induction bs using groupsOf5.induct with
  | case1 a b c d e rest ih =>
    rcases List.mem_cons.1 h with rfl | h
    · exact (bitsOf_valueOf_five a b c d e).2
    · exact ih h
  | case2 | case3 | case4 | case5 =>
    obtain rfl := List.mem_singleton.1 h
    exact (bitsOf_valueOf_five ..).2
  | case6 => cases h

/-- How many zero bits fill the last group of a string of `n` bits (R93). -/
def fillBits (n : Nat) : Nat := (5 - n % 5) % 5

theorem fillBits_eq {n k : Nat} (hk : k < 5) (h : (n + k) % 5 = 0) : fillBits n = k := by
  rw [fillBits]
  omega

/-- Put together again, the groups of five are the bits with the zeros that fill the last one. -/
theorem flatMap_groupsOf5 (bs : List Bool) :
    (groupsOf5 bs).flatMap (bitsOf 5) = bs ++ List.replicate (fillBits bs.length) false := by
  induction bs using groupsOf5.induct with
  | case1 a b c d e rest ih =>
    have hfill : fillBits (rest.length + 5) = fillBits rest.length := by
      rw [fillBits, Nat.add_mod_right, fillBits]
    simp only [groupsOf5, List.flatMap_cons, bitsOf_valueOf_five, ih, List.length_cons, hfill,
      List.cons_append, List.nil_append]
  | case2 | case3 | case4 | case5 =>
    exact (List.flatMap_singleton ..).trans (bitsOf_valueOf_five ..).1
  | case6 => rfl

/-- The values whose bits are cut come back. -/
theorem groupsOf5_flatMap {vs : List Nat} (h : ∀ v ∈ vs, v < 32) :
    groupsOf5 (vs.flatMap (bitsOf 5)) = vs := by
  induction vs with
  | nil => rfl
  | cons v vs ih =>
    rw [List.flatMap_cons, groupsOf5_bitsOf_append, Nat.mod_eq_of_lt (h v List.mem_cons_self),
      ih fun u hu => h u (List.mem_cons_of_mem v hu)]

/-- The zeros that fill the last group may as well stand in the bit string. -/
theorem groupsOf5_append_zeros {bs : List Bool} {k : Nat} (hk : k < 5)
    (h : (bs.length + k) % 5 = 0) : groupsOf5 (bs ++ List.replicate k false) = groupsOf5 bs := by
  rw [← fillBits_eq hk h, ← flatMap_groupsOf5, groupsOf5_flatMap fun _ => groupsOf5_lt]

/-! ### The cut in eights -/

theorem wholeBytes_byteBits_append (b : Byte) (rest : List Bool) :
    wholeBytes (byteBits b ++ rest) = b :: wholeBytes rest := by
  have hvalue : BitVec.ofNat 8 (valueOf (byteBits b)) = b := by
    rw [byteBits, valueOf_bitsOf, Nat.mod_eq_of_lt b.isLt, BitVec.ofNat_toNat, BitVec.setWidth_eq]
  exact congrArg (· :: wholeBytes rest) hvalue

theorem wholeBytes_of_short {bs : List Bool} (h : bs.length < 8) : wholeBytes bs = [] := by
  unfold wholeBytes
  split
  · simp only [List.length_cons] at h
    omega
  · rfl

/-- The bytes whose bits are cut come back, whatever fewer than eight bits follow them. -/
theorem wholeBytes_flatMap_append (bs : List Byte) {tail : List Bool} (h : tail.length < 8) :
    wholeBytes (bs.flatMap byteBits ++ tail) = bs := by
  induction bs with
  | nil => exact wholeBytes_of_short h
  | cons b bs ih => rw [List.flatMap_cons, List.append_assoc, wholeBytes_byteBits_append, ih]

end Sys2Proof.Machine
end

section
/-! PROOFS. The functions of the B32 unit (42_base32.md). The encoder's loop and the decoder's loop
are the two cuts of one bit string: what has gone in is what has come out, followed by the bits not
yet emitted. The length laws, the round trip and the exact condition for the other direction all
follow from this. -/

namespace Sys2Proof.Machine

/-! ### The alphabet -/

theorem b32Alpha_toNat {v : Nat} (h : v < 32) :
    (b32Alpha v).toNat = if v ≤ 25 then 0x41 + v else 0x32 + (v - 26) := by
  have hall : ∀ v < 32, (b32Alpha v).toNat = if v ≤ 25 then 0x41 + v else 0x32 + (v - 26) := by
    decide
  exact hall v h

theorem b32Inv_of_letter {u : Byte} (h : 0x41 ≤ u.toNat ∧ u.toNat ≤ 0x5A) :
    b32Inv u = some (u.toNat - 0x41) := if_pos h

theorem b32Inv_of_digit {u : Byte} (h : 0x32 ≤ u.toNat ∧ u.toNat ≤ 0x37) :
    b32Inv u = some (u.toNat - 0x32 + 26) := by
  rw [b32Inv, if_neg (by omega), if_pos h]

theorem b32Inv_eq_none_iff {u : Byte} : b32Inv u = none ↔
    ¬(0x41 ≤ u.toNat ∧ u.toNat ≤ 0x5A) ∧ ¬(0x32 ≤ u.toNat ∧ u.toNat ≤ 0x37) := by
  by_cases hletter : 0x41 ≤ u.toNat ∧ u.toNat ≤ 0x5A
  · simp [b32Inv_of_letter hletter, hletter]
  · by_cases hdigit : 0x32 ≤ u.toNat ∧ u.toNat ≤ 0x37
    · simp [b32Inv_of_digit hdigit, hdigit]
    · exact iff_of_true (by rw [b32Inv, if_neg hletter, if_neg hdigit]) ⟨hletter, hdigit⟩

theorem b32Inv_b32Alpha {v : Nat} (h : v < 32) : b32Inv (b32Alpha v) = some v := by
  have hcode := b32Alpha_toNat h
  by_cases hv : v ≤ 25
  · rw [if_pos hv] at hcode
    rw [b32Inv_of_letter (by omega), hcode, Nat.add_sub_cancel_left]
  · rw [if_neg hv] at hcode
    rw [b32Inv_of_digit (by omega), hcode]
    exact congrArg some (by omega)

theorem b32Alpha_of_b32Inv {u : Byte} {v : Nat} (h : b32Inv u = some v) : b32Alpha v = u := by
  refine BitVec.eq_of_toNat_eq ?_
  rw [b32Alpha_toNat (b32Inv_lt h)]
  by_cases hletter : 0x41 ≤ u.toNat ∧ u.toNat ≤ 0x5A
  · obtain rfl := Option.some.inj ((b32Inv_of_letter hletter).symm.trans h)
    rw [if_pos (by omega)]
    omega
  · by_cases hdigit : 0x32 ≤ u.toNat ∧ u.toNat ≤ 0x37
    · obtain rfl := Option.some.inj ((b32Inv_of_digit hdigit).symm.trans h)
      rw [if_neg (by omega)]
      omega
    · rw [b32Inv_eq_none_iff.2 ⟨hletter, hdigit⟩] at h
      cases h

theorem upcase_toNat (ch : Byte) : (upcase ch).toNat =
    if 0x61 ≤ ch.toNat ∧ ch.toNat ≤ 0x7A then ch.toNat - 0x20 else ch.toNat := by
  unfold upcase
  split
  · next h => exact BitVec.toNat_sub_of_le (show 0x20 ≤ ch.toNat by omega)
  · rfl

/-- Only the lower-case letters are changed. -/
theorem upcase_of_not_lower {ch : Byte} (h : ¬(0x61 ≤ ch.toNat ∧ ch.toNat ≤ 0x7A)) :
    upcase ch = ch := if_neg h

theorem upcase_upcase (ch : Byte) : upcase (upcase ch) = upcase ch := by
  refine upcase_of_not_lower ?_
  rw [upcase_toNat]
  split <;> omega

/-- A lower-case letter becomes a letter of the alphabet, so what is absent is no lower-case
letter. -/
theorem upcase_of_absent {ch : Byte} (h : b32Inv (upcase ch) = none) : upcase ch = ch := by
  refine upcase_of_not_lower fun hlower => ?_
  have habsent := b32Inv_eq_none_iff.1 h
  rw [upcase_toNat, if_pos hlower] at habsent
  omega

theorem upcase_b32Alpha {v : Nat} (h : v < 32) : upcase (b32Alpha v) = b32Alpha v := by
  refine upcase_of_not_lower ?_
  rw [b32Alpha_toNat h]
  split <;> omega

/-- Settles O44: the closed form, the two directions of the lookup, and the cases of `upcase`. -/
theorem alphabetAndInverse : Obligations.AlphabetAndInverse :=
  ⟨fun _ => b32Alpha_toNat, fun _ => b32Inv_b32Alpha,
    fun _ _ h => ⟨b32Inv_lt h, b32Alpha_of_b32Inv h⟩, fun _ => b32Inv_eq_none_iff, upcase_toNat,
    fun _ => upcase_of_absent⟩

/-! ### The bits not yet emitted -/

/-- The bits the working variables hold for later: the low `nb` bits of `acc` (R93, R95). -/
def Bits.unemitted (w : Bits) : List Bool := bitsOf w.nb w.acc

@[simp] theorem Bits.unemitted_length (w : Bits) : w.unemitted.length = w.nb := bitsOf_length ..

@[simp] theorem Bits.unemitted_zero : (⟨0, 0⟩ : Bits).unemitted = [] := rfl

theorem Bits.unemitted_keepBits (acc nb : Nat) :
    (⟨keepBits acc nb, nb⟩ : Bits).unemitted = bitsOf nb acc := by
  rw [Bits.unemitted, keepBits_eq_mod, bitsOf_mod (Nat.le_refl nb)]

/-- The unemitted bits are all zero exactly when the accumulator is. -/
theorem Bits.unemitted_eq_zeros_iff {w : Bits} (h : w.acc < 2 ^ w.nb) :
    w.unemitted = List.replicate w.nb false ↔ w.acc = 0 := by
  constructor
  · intro hbits
    have hvalue := congrArg valueOf hbits
    rwa [Bits.unemitted, ← bitsOf_zero, valueOf_bitsOf, valueOf_bitsOf, Nat.mod_eq_of_lt h,
      Nat.zero_mod] at hvalue
  · intro hacc
    rw [Bits.unemitted, hacc, bitsOf_zero]

/-! ### The encoder -/

theorem unemitted_pushByte (w : Bits) (b : Byte) :
    (pushByte w b).unemitted = w.unemitted ++ byteBits b :=
  bitsOf_shiftIn w.nb w.acc b.isLt

/-- The inner loop of R93 cuts the groups of five off the front of the bit string. -/
theorem groupsOf5_emitGroups (turns : Nat) (w : Bits) (rest : List Bool) :
    (groupsOf5 (w.unemitted ++ rest)).map b32Alpha =
      (emitGroups turns w).1 ++
        (groupsOf5 ((emitGroups turns w).2.unemitted ++ rest)).map b32Alpha := by
  induction turns generalizing w with
  | zero => rfl
  | succ turns ih =>
    by_cases hnb : 5 ≤ w.nb
    · have hcut : w.unemitted = bitsOf 5 (w.acc >>> (w.nb - 5)) ++ bitsOf (w.nb - 5) w.acc := by
        rw [← bitsOf_add, Nat.add_sub_cancel' hnb, Bits.unemitted]
      have hvalue : (w.acc >>> (w.nb - 5)) &&& 0x1F = w.acc >>> (w.nb - 5) % 32 :=
        Nat.and_two_pow_sub_one_eq_mod _ 5
      rw [emitGroups_of_many turns hnb, hcut, List.append_assoc, groupsOf5_bitsOf_append,
        List.map_cons, ← Bits.unemitted_keepBits, ih, hvalue, List.cons_append]
    · rw [emitGroups_of_few _ (Nat.lt_of_not_le hnb), List.nil_append]

/-- The leftover bits are the last group, filled with zeros on the right (R93). -/
theorem flushGroup_eq {w : Bits} (h : w.nb ≤ 4) :
    flushGroup w = (groupsOf5 w.unemitted).map b32Alpha := by
  by_cases hnb : 0 < w.nb
  · have hzero : 0 < 2 ^ (5 - w.nb) := Nat.two_pow_pos _
    have hfilled : w.unemitted ++ List.replicate (5 - w.nb) false =
        bitsOf 5 (w.acc <<< (5 - w.nb)) ++ [] := by
      rw [← bitsOf_zero, Bits.unemitted, ← bitsOf_shiftIn w.nb w.acc hzero, Nat.or_zero,
        Nat.add_sub_cancel' (by omega), List.append_nil]
    have hvalue : (w.acc <<< (5 - w.nb)) &&& 0x1F = w.acc <<< (5 - w.nb) % 32 :=
      Nat.and_two_pow_sub_one_eq_mod _ 5
    rw [flushGroup, if_pos hnb, hvalue,
      ← groupsOf5_append_zeros (k := 5 - w.nb) (by omega) (by rw [Bits.unemitted_length]; omega),
      hfilled, groupsOf5_bitsOf_append]
    rfl
  · have hnil : w.unemitted = [] := List.length_eq_zero_iff.1 (by rw [Bits.unemitted_length]; omega)
    rw [flushGroup, if_neg hnb, hnil]
    rfl

/-- The loop of R93 is the cut in fives of the unemitted bits and the bits of the bytes to come. -/
theorem b32EncodeFrom_eq {data : List Byte} {w : Bits} (hw : w.Within 4) :
    (b32EncodeFrom data w).1 =
      (groupsOf5 (w.unemitted ++ data.flatMap byteBits)).map b32Alpha := by
  induction data generalizing w with
  | nil =>
    rw [List.flatMap_nil, List.append_nil]
    exact flushGroup_eq hw.1
  | cons b bs ih =>
    have hrest := ih (emitGroups_within (turns := (pushByte w b).nb) (by omega)
      (pushByte_lt hw.2 b))
    rw [List.flatMap_cons, ← List.append_assoc, ← unemitted_pushByte,
      groupsOf5_emitGroups (pushByte w b).nb]
    exact congrArg ((emitGroups (pushByte w b).nb (pushByte w b)).1 ++ ·) hrest

theorem b32Encode_eq (data : List Byte) :
    b32Encode data = (groupsOf5 (data.flatMap byteBits)).map b32Alpha :=
  b32EncodeFrom_eq (Bits.within_zero 4)

theorem b32Encode_length (data : List Byte) :
    (b32Encode data).length = (data.length * 8 + 4) / 5 := by
  rw [b32Encode, b32EncodeFrom_length (Bits.within_zero 4), Nat.zero_add, Nat.mul_comm]

/-- Every character of an encoding is one of the alphabet. -/
theorem exists_of_mem_b32Encode {data : List Byte} {c : Byte} (h : c ∈ b32Encode data) :
    ∃ v < 32, b32Alpha v = c := by
  rw [b32Encode_eq] at h
  obtain ⟨v, hv, rfl⟩ := List.mem_map.1 h
  exact ⟨v, groupsOf5_lt hv, rfl⟩

/-- Settles O45: both are one cut in fives of the same bits. -/
theorem encoderCutsTheBitString : Obligations.EncoderCutsTheBitString := b32Encode_eq

/-- Settles O48: the length of the encoder's loop from nothing, and two of its values. -/
theorem encodedLengthLaw : Obligations.EncodedLengthLaw :=
  ⟨b32Encode_length, rfl, fun p hp => by rw [b32Encode_length, hp]⟩

/-! ### One turn of the decoder -/

/-- The five bits a character stands for (R95); every use has a character of the alphabet. -/
def charBits (ch : Byte) : List Bool := bitsOf 5 ((b32Inv (upcase ch)).getD 0)

theorem flatMap_charBits_length (text : List Byte) :
    (text.flatMap charBits).length = 5 * text.length := by
  simp [List.length_flatMap, charBits, Nat.mul_comm]

/-- A character's value goes below the unemitted bits (R95). -/
def pushValue (w : Bits) (v : Nat) : Bits := { acc := (w.acc <<< 5) ||| v, nb := w.nb + 5 }

/-- The byte the decoder emits when eight bits are complete, and the variables it leaves (R95). -/
def takeByte (w : Bits) : List Byte × Bits :=
  if 8 ≤ w.nb then
    ([BitVec.ofNat 8 ((w.acc >>> (w.nb - 8)) &&& 0xFF)], ⟨keepBits w.acc (w.nb - 8), w.nb - 8⟩)
  else ([], w)

/-- A result of the loop with bytes emitted before it. -/
def emitBefore (bytes : List Byte) (r : Bits × Except B32Error (List Byte)) :
    Bits × Except B32Error (List Byte) :=
  (r.1, r.2.map (bytes ++ ·))

@[simp] theorem emitBefore_nil (r : Bits × Except B32Error (List Byte)) : emitBefore [] r = r := by
  rcases r with ⟨w, e | bytes⟩ <;> rfl

theorem emitBefore_emitBefore (as bs : List Byte) (r : Bits × Except B32Error (List Byte)) :
    emitBefore as (emitBefore bs r) = emitBefore (as ++ bs) r := by
  rcases r with ⟨w, e | bytes⟩
  · rfl
  · simp only [emitBefore, Except.map, List.append_assoc]

theorem emitBefore_ok (bytes later : List Byte) (w : Bits) :
    emitBefore bytes (w, .ok later) = (w, .ok (bytes ++ later)) := rfl

theorem emitBefore_error (bytes : List Byte) (w : Bits) (e : B32Error) :
    emitBefore bytes (w, .error e) = (w, .error e) := rfl

theorem emitBefore_fst (bytes : List Byte) (r : Bits × Except B32Error (List Byte)) :
    (emitBefore bytes r).1 = r.1 := rfl

/-- One turn of the loop of R95, past the guard. -/
theorem b32DecodeFrom_of_char {accW pos v : Nat} {ch : Byte} {rest : List Byte} {w : Bits}
    (h : b32Inv (upcase ch) = some v) (hguard : w.nb + 5 ≤ accW) :
    b32DecodeFrom accW pos (ch :: rest) w =
      emitBefore (takeByte (pushValue w v)).1
        (b32DecodeFrom accW (pos + 1) rest (takeByte (pushValue w v)).2) := by
  by_cases hbyte : 8 ≤ w.nb + 5
  · rw [b32DecodeFrom_of_many h hguard hbyte, takeByte,
      if_pos (show 8 ≤ (pushValue w v).nb from hbyte)]
    rfl
  · rw [b32DecodeFrom_of_few h hguard (Nat.lt_of_not_le hbyte), takeByte,
      if_neg (show ¬8 ≤ (pushValue w v).nb from hbyte), emitBefore_nil]
    rfl

theorem b32DecodeFrom_of_guard {accW pos v : Nat} {ch : Byte} {rest : List Byte} {w : Bits}
    (h : b32Inv (upcase ch) = some v) (hguard : accW < w.nb + 5) :
    b32DecodeFrom accW pos (ch :: rest) w = (w, .error .malformedInput) := by
  rw [b32DecodeFrom, h]
  exact if_pos hguard

theorem unemitted_pushValue {ch : Byte} {v : Nat} (w : Bits) (h : b32Inv (upcase ch) = some v) :
    (pushValue w v).unemitted = w.unemitted ++ charBits ch := by
  rw [charBits, h]
  exact bitsOf_shiftIn w.nb w.acc (b32Inv_lt h)

/-- Emitting a byte loses no bit. -/
theorem takeByte_bits (w : Bits) :
    (takeByte w).1.flatMap byteBits ++ (takeByte w).2.unemitted = w.unemitted := by
  by_cases hnb : 8 ≤ w.nb
  · have hbyte : byteBits (BitVec.ofNat 8 ((w.acc >>> (w.nb - 8)) &&& 0xFF)) =
        bitsOf 8 (w.acc >>> (w.nb - 8)) := by
      have hvalue : (w.acc >>> (w.nb - 8)) &&& 0xFF = w.acc >>> (w.nb - 8) % 2 ^ 8 :=
        Nat.and_two_pow_sub_one_eq_mod _ 8
      rw [byteBits, hvalue, BitVec.toNat_ofNat, Nat.mod_mod, bitsOf_mod (Nat.le_refl 8)]
    rw [takeByte, if_pos hnb, List.flatMap_singleton, hbyte, Bits.unemitted_keepBits, ← bitsOf_add,
      Nat.add_sub_cancel' hnb, Bits.unemitted]
  · rw [takeByte, if_neg hnb]
    rfl

theorem takeByte_within {w : Bits} (h : w.Within 12) : (takeByte w).2.Within 7 := by
  obtain ⟨hnb, hacc⟩ := h
  by_cases hbyte : 8 ≤ w.nb
  · rw [takeByte, if_pos hbyte]
    exact keepBits_within _ (by omega)
  · rw [takeByte, if_neg hbyte]
    exact ⟨Nat.le_of_lt_succ (Nat.lt_of_not_le hbyte), hacc⟩

theorem pushValue_within {w : Bits} {v : Nat} (hw : w.Within 7) (hv : v < 32) :
    (pushValue w v).Within 12 :=
  ⟨Nat.add_le_add_right hw.1 5, shiftIn_lt hw.2 (k := 5) hv⟩

/-! ### The decoder's loop -/

/-- Where the decoder succeeds every character was one of the alphabet, and their bits are those of
its bytes, followed by the ones it drops. -/
theorem b32DecodeFrom_bits {accW pos : Nat} {text bytes : List Byte} {w : Bits}
    (h : (b32DecodeFrom accW pos text w).2 = .ok bytes) :
    (∀ c ∈ text, (b32Inv (upcase c)).isSome) ∧
      w.unemitted ++ text.flatMap charBits =
        bytes.flatMap byteBits ++ (b32DecodeFrom accW pos text w).1.unemitted := by
  induction text generalizing pos w bytes with
  | nil =>
    obtain rfl := Except.ok.inj h
    exact ⟨nofun, List.append_nil _⟩
  | cons ch rest ih =>
    cases hv : b32Inv (upcase ch) with
    | none =>
      rw [b32DecodeFrom_of_bad hv] at h
      cases h
    | some v =>
      by_cases hguard : w.nb + 5 ≤ accW
      · rw [b32DecodeFrom_of_char hv hguard] at h ⊢
        obtain ⟨later, hlater, rfl⟩ := exists_of_map_eq_ok h
        obtain ⟨hgood, hbits⟩ := ih hlater
        refine ⟨List.forall_mem_cons.2 ⟨by rw [hv, Option.isSome_some], hgood⟩, ?_⟩
        rw [List.flatMap_cons, ← List.append_assoc, ← unemitted_pushValue w hv, ← takeByte_bits,
          List.append_assoc, hbits, List.flatMap_append, List.append_assoc,
          emitBefore_fst]
      · rw [b32DecodeFrom_of_guard hv (Nat.lt_of_not_le hguard)] at h
        cases h

/-- Characters of the alphabet never stop a decoder of conforming width: it goes on behind them with
the bytes they completed, which do not depend on the width. -/
theorem b32DecodeFrom_of_good {good : List Byte} (hgood : ∀ c ∈ good, (b32Inv (upcase c)).isSome)
    {w : Bits} (hw : w.Within 7) : ∃ w' bytes, ∀ accW pos rest, 12 ≤ accW →
      b32DecodeFrom accW pos (good ++ rest) w =
        emitBefore bytes (b32DecodeFrom accW (pos + good.length) rest w') := by
  induction good generalizing w with
  | nil => exact ⟨w, [], fun accW pos rest _ => (emitBefore_nil _).symm⟩
  | cons ch good ih =>
    obtain ⟨hch, hgood⟩ := List.forall_mem_cons.1 hgood
    obtain ⟨v, hv⟩ := Option.isSome_iff_exists.1 hch
    obtain ⟨w', bytes, hloop⟩ := ih hgood (takeByte_within (pushValue_within hw (b32Inv_lt hv)))
    refine ⟨w', (takeByte (pushValue w v)).1 ++ bytes, fun accW pos rest hwidth => ?_⟩
    have hguard : w.nb + 5 ≤ accW := (Nat.add_le_add_right hw.1 5).trans hwidth
    rw [List.cons_append, b32DecodeFrom_of_char hv hguard, hloop accW (pos + 1) rest hwidth,
      emitBefore_emitBefore, List.length_cons, Nat.add_right_comm, Nat.add_assoc pos]

/-- The first character outside the alphabet is reported with its index, whatever follows it. -/
theorem b32DecodeFrom_of_firstBad {good : List Byte} {ch : Byte}
    (hgood : ∀ c ∈ good, (b32Inv (upcase c)).isSome) (hbad : b32Inv (upcase ch) = none)
    {w : Bits} (hw : w.Within 7) : ∃ w', ∀ accW pos rest, 12 ≤ accW →
      b32DecodeFrom accW pos (good ++ ch :: rest) w =
        (w', .error (.invalidCharacter ch (pos + good.length))) := by
  obtain ⟨w', bytes, hloop⟩ := b32DecodeFrom_of_good hgood hw
  refine ⟨w', fun accW pos rest hwidth => ?_⟩
  rw [hloop accW pos (ch :: rest) hwidth, b32DecodeFrom_of_bad hbad, emitBefore_error]

/-- A text of the alphabet decodes. -/
theorem b32DecodeFrom_of_alphabet {text : List Byte}
    (htext : ∀ c ∈ text, (b32Inv (upcase c)).isSome) {w : Bits} (hw : w.Within 7) :
    ∃ w' bytes, ∀ accW pos, 12 ≤ accW → b32DecodeFrom accW pos text w = (w', .ok bytes) := by
  obtain ⟨w', bytes, hloop⟩ := b32DecodeFrom_of_good htext hw
  refine ⟨w', bytes, fun accW pos hwidth => ?_⟩
  have hend := hloop accW pos [] hwidth
  rwa [List.append_nil, b32DecodeFrom, emitBefore_ok, List.append_nil] at hend

/-- A text is one of the alphabet, or has a first character outside it. -/
theorem alphabet_or_firstBad (text : List Byte) :
    (∀ c ∈ text, (b32Inv (upcase c)).isSome) ∨ ∃ good ch rest, text = good ++ ch :: rest ∧
      (∀ c ∈ good, (b32Inv (upcase c)).isSome) ∧ b32Inv (upcase ch) = none := by
  cases hfind : text.find? fun c => (b32Inv (upcase c)).isNone with
  | none =>
    exact .inl fun c hc => by
      simpa [Option.isSome_iff_ne_none] using List.find?_eq_none.1 hfind c hc
  | some ch =>
    obtain ⟨hbad, good, rest, rfl, hgood⟩ := List.find?_eq_some_iff_append.1 hfind
    exact .inr ⟨good, ch, rest, rfl,
      fun c hc => by simpa [Option.isSome_iff_ne_none] using hgood c hc,
      Option.isNone_iff_eq_none.1 hbad⟩

/-- All a decoder of conforming width can do: give bytes, or report a character outside the
alphabet. The width decides nothing, and its guard never fires (R99). -/
theorem b32DecodeFrom_cases (pos : Nat) (text : List Byte) {w : Bits} (hw : w.Within 7) :
    ∃ w', (∃ bytes, ∀ accW, 12 ≤ accW → b32DecodeFrom accW pos text w = (w', .ok bytes)) ∨
      ∃ ch i, ∀ accW, 12 ≤ accW →
        b32DecodeFrom accW pos text w = (w', .error (.invalidCharacter ch i)) := by
  rcases alphabet_or_firstBad text with htext | ⟨good, ch, rest, rfl, hgood, hbad⟩
  · obtain ⟨w', bytes, hloop⟩ := b32DecodeFrom_of_alphabet htext hw
    exact ⟨w', .inl ⟨bytes, fun accW => hloop accW pos⟩⟩
  · obtain ⟨w', hloop⟩ := b32DecodeFrom_of_firstBad hgood hbad hw
    exact ⟨w', .inr ⟨ch, pos + good.length, fun accW => hloop accW pos rest⟩⟩

theorem b32DecodeFrom_ne_malformed {accW : Nat} (hwidth : 12 ≤ accW) (pos : Nat)
    (text : List Byte) : (b32DecodeFrom accW pos text ⟨0, 0⟩).2 ≠ .error .malformedInput := by
  obtain ⟨w', ⟨bytes, hloop⟩ | ⟨ch, i, hloop⟩⟩ := b32DecodeFrom_cases pos text (Bits.within_zero 7)
  · rw [hloop accW hwidth]
    nofun
  · rw [hloop accW hwidth]
    nofun

/-- Decoders of conforming width agree (R99). -/
theorem b32DecodeFrom_width {accW accW' : Nat} (h : 12 ≤ accW) (h' : 12 ≤ accW') (pos : Nat)
    (text : List Byte) :
    b32DecodeFrom accW pos text ⟨0, 0⟩ = b32DecodeFrom accW' pos text ⟨0, 0⟩ := by
  obtain ⟨w', ⟨bytes, hloop⟩ | ⟨ch, i, hloop⟩⟩ := b32DecodeFrom_cases pos text (Bits.within_zero 7)
  · rw [hloop accW h, hloop accW' h']
  · rw [hloop accW h, hloop accW' h']

/-- Letter case makes no difference, in the bytes as in the error: a lower-case letter is never the
character reported. -/
theorem b32DecodeFrom_upcase (accW pos : Nat) (text : List Byte) (w : Bits) :
    b32DecodeFrom accW pos (text.map upcase) w = b32DecodeFrom accW pos text w := by
  induction text generalizing pos w with
  | nil => rfl
  | cons ch rest ih =>
    cases hv : b32Inv (upcase ch) with
    | none => rw [List.map_cons, upcase_of_absent hv, b32DecodeFrom_of_bad hv,
        b32DecodeFrom_of_bad hv]
    | some v =>
      have hup : b32Inv (upcase (upcase ch)) = some v := by rw [upcase_upcase, hv]
      by_cases hguard : w.nb + 5 ≤ accW
      · rw [List.map_cons, b32DecodeFrom_of_char hup hguard, b32DecodeFrom_of_char hv hguard, ih]
      · rw [List.map_cons, b32DecodeFrom_of_guard hup (Nat.lt_of_not_le hguard),
          b32DecodeFrom_of_guard hv (Nat.lt_of_not_le hguard)]

/-- Settles O51: both loops stay within their bound, and a decoder gives bytes or reports a
character. -/
theorem accumulatorNeverOverflows : Obligations.AccumulatorNeverOverflows := by
  refine ⟨fun data => ?_, fun accW pos text hwidth => ?_⟩
  · obtain ⟨hnb, hacc⟩ := b32EncodeFrom_within (data := data) (Bits.within_zero 4)
    refine ⟨hnb, hacc, fun b => ?_⟩
    have hpush : (pushByte (b32EncodeFrom data ⟨0, 0⟩).2 b).nb ≤ 12 := Nat.add_le_add_right hnb 8
    exact ⟨(pushByte_lt hacc b).trans_le (Nat.pow_le_pow_right (by decide) hpush), hpush⟩
  · obtain ⟨hnb, hacc⟩ := b32DecodeFrom_within (accW := accW) (pos := pos) (text := text)
      (Bits.within_zero 7)
    exact ⟨hnb, hacc, b32DecodeFrom_ne_malformed hwidth pos text⟩

/-- Settles O47: the loop from nothing, at position 0. -/
theorem decoderReportsTheFirstBadCharacter : Obligations.DecoderReportsTheFirstBadCharacter := by
  intro accW good ch rest hwidth hgood hbad
  obtain ⟨w', hloop⟩ := b32DecodeFrom_of_firstBad hgood hbad (Bits.within_zero 7)
  rw [b32Decode, hloop accW 0 rest hwidth, Nat.zero_add]

/-! ### The decoder as a cut -/

section
variable {accW : Nat} {text out : List Byte}

/-- The bits of a text that decodes: those of its bytes, then the fewer than eight that are
dropped (R96). -/
theorem bits_of_b32Decode (h : b32Decode accW text = .ok out) :
    text.flatMap charBits =
      out.flatMap byteBits ++ (b32DecodeFrom accW 0 text ⟨0, 0⟩).1.unemitted := by
  have hbits := (b32DecodeFrom_bits h).2
  rwa [Bits.unemitted_zero, List.nil_append] at hbits

theorem dropped_within : (b32DecodeFrom accW 0 text ⟨0, 0⟩).1.Within 7 :=
  b32DecodeFrom_within (Bits.within_zero 7)

theorem bitCount_of_b32Decode (h : b32Decode accW text = .ok out) :
    5 * text.length = 8 * out.length + (b32DecodeFrom accW 0 text ⟨0, 0⟩).1.nb := by
  have hlen := congrArg List.length (bits_of_b32Decode h)
  rwa [flatMap_charBits_length, List.length_append, flatMap_byteBits_length,
    Bits.unemitted_length] at hlen

theorem b32Decode_length (h : b32Decode accW text = .ok out) :
    out.length = text.length * 5 / 8 := by
  have hcount := bitCount_of_b32Decode h
  have hnb := (dropped_within (accW := accW) (text := text)).1
  omega

theorem b32Decode_of_alphabet (hwidth : 12 ≤ accW)
    (htext : ∀ c ∈ text, (b32Inv (upcase c)).isSome) :
    b32Decode accW text = .ok (wholeBytes (text.flatMap charBits)) := by
  obtain ⟨w', bytes, hloop⟩ := b32DecodeFrom_of_alphabet htext (Bits.within_zero 7)
  have hok : b32Decode accW text = .ok bytes := by rw [b32Decode, hloop accW 0 hwidth]
  have hshort : (b32DecodeFrom accW 0 text ⟨0, 0⟩).1.unemitted.length < 8 := by
    rw [Bits.unemitted_length]
    exact Nat.lt_succ_of_le dropped_within.1
  rw [bits_of_b32Decode hok, wholeBytes_flatMap_append bytes hshort, hok]

end

/-- Settles O49: the bits of the text are counted, and fewer than eight are left. -/
theorem decodedLengthLaw : Obligations.DecodedLengthLaw := by
  intro accW text out h
  have hcount := bitCount_of_b32Decode h
  have hnb := (dropped_within (accW := accW) (text := text)).1
  exact ⟨b32Decode_length h, by omega⟩

theorem flatMap_charBits_of_values {text : List Byte} {vs : List Nat}
    (h : text.map (fun ch => b32Inv (upcase ch)) = vs.map some) :
    text.flatMap charBits = vs.flatMap (bitsOf 5) := by
  have hvalues : text.map (fun ch => (b32Inv (upcase ch)).getD 0) = vs := by
    simpa [Function.comp_def] using congrArg (List.map (Option.getD · 0)) h
  rw [← hvalues, List.flatMap_map]
  rfl

/-- Settles O46: both are one cut in eights of the same bits. -/
theorem decoderCutsTheBitString : Obligations.DecoderCutsTheBitString := by
  intro accW text vs hwidth hvalues
  have htext : ∀ c ∈ text, (b32Inv (upcase c)).isSome := by
    intro c hc
    have hmem : b32Inv (upcase c) ∈ vs.map some :=
      hvalues ▸ List.mem_map_of_mem (f := fun ch => b32Inv (upcase ch)) hc
    obtain ⟨v, -, hv⟩ := List.mem_map.1 hmem
    rw [← hv, Option.isSome_some]
  rw [b32Decode_of_alphabet hwidth htext, flatMap_charBits_of_values hvalues, b32DecodeStream]

/-! ### The two directions of the round trip -/

theorem charBits_b32Alpha {v : Nat} (h : v < 32) : charBits (b32Alpha v) = bitsOf 5 v := by
  rw [charBits, upcase_b32Alpha h, b32Inv_b32Alpha h, Option.getD_some]

/-- The bits of an encoding are those of the data, with fewer than five zeros behind them (R93). -/
theorem flatMap_charBits_b32Encode (data : List Byte) :
    (b32Encode data).flatMap charBits =
      data.flatMap byteBits ++ List.replicate (fillBits (8 * data.length)) false := by
  have hchars : (b32Encode data).flatMap charBits =
      (groupsOf5 (data.flatMap byteBits)).flatMap (bitsOf 5) := by
    rw [b32Encode_eq, List.flatMap_map]
    exact List.flatMap_congr fun v hv => charBits_b32Alpha (groupsOf5_lt hv)
  rw [hchars, flatMap_groupsOf5, flatMap_byteBits_length]

theorem b32Decode_b32Encode (data : List Byte) : b32Decode 12 (b32Encode data) = .ok data := by
  have htext : ∀ c ∈ b32Encode data, (b32Inv (upcase c)).isSome := by
    intro c hc
    obtain ⟨v, hv, rfl⟩ := exists_of_mem_b32Encode hc
    rw [upcase_b32Alpha hv, b32Inv_b32Alpha hv, Option.isSome_some]
  have hshort : (List.replicate (fillBits (8 * data.length)) false).length < 8 := by
    rw [List.length_replicate, fillBits]
    omega
  rw [b32Decode_of_alphabet (Nat.le_refl 12) htext, flatMap_charBits_b32Encode,
    wholeBytes_flatMap_append data hshort]

/-- The bits of a text, cut in fives again, are its characters in upper case. -/
theorem map_b32Alpha_groupsOf5 {text : List Byte} (h : ∀ c ∈ text, (b32Inv (upcase c)).isSome) :
    (groupsOf5 (text.flatMap charBits)).map b32Alpha = text.map upcase := by
  induction text with
  | nil => rfl
  | cons ch rest ih =>
    obtain ⟨hch, hrest⟩ := List.forall_mem_cons.1 h
    obtain ⟨v, hv⟩ := Option.isSome_iff_exists.1 hch
    rw [List.flatMap_cons, charBits, hv, Option.getD_some, groupsOf5_bitsOf_append,
      Nat.mod_eq_of_lt (b32Inv_lt hv), List.map_cons, ih hrest, b32Alpha_of_b32Inv hv,
      List.map_cons]

/-- What an encoding drops when it is decoded are the zeros that fill its last group. -/
theorem dropped_of_b32Encode {data : List Byte} :
    (b32DecodeFrom 12 0 (b32Encode data) ⟨0, 0⟩).1.acc = 0 := by
  have hbits := (bits_of_b32Decode (b32Decode_b32Encode data)).symm.trans
    (flatMap_charBits_b32Encode data)
  have hdropped := List.append_cancel_left hbits
  have hnb := congrArg List.length hdropped
  rw [Bits.unemitted_length, List.length_replicate] at hnb
  exact (Bits.unemitted_eq_zeros_iff dropped_within.2).1 (hnb ▸ hdropped)

/-- A text whose dropped bits are zeros, fewer than five, is the encoding of its bytes but for
letter case. -/
theorem b32Encode_of_zeros_dropped {text out : List Byte} (h : b32Decode 12 text = .ok out)
    (hlen : text.length = (out.length * 8 + 4) / 5)
    (hacc : (b32DecodeFrom 12 0 text ⟨0, 0⟩).1.acc = 0) : b32Encode out = text.map upcase := by
  have hcount := bitCount_of_b32Decode h
  have hbits := bits_of_b32Decode h
  rw [(Bits.unemitted_eq_zeros_iff dropped_within.2).2 hacc] at hbits
  rw [← map_b32Alpha_groupsOf5 (b32DecodeFrom_bits h).1, hbits, b32Encode_eq,
    groupsOf5_append_zeros (by omega) (by rw [flatMap_byteBits_length]; omega)]

theorem b32Encode_upcase (data : List Byte) : (b32Encode data).map upcase = b32Encode data := by
  refine (List.map_congr_left fun c hc => ?_).trans (List.map_id _)
  obtain ⟨v, hv, rfl⟩ := exists_of_mem_b32Encode hc
  exact upcase_b32Alpha hv

/-- Settles O50: the round trip; four texts with the same byte and different dropped bits; letter
case; `=`, which is no character of the alphabet; and the texts that are encodings. -/
theorem decodingInvertsEncoding : Obligations.DecodingInvertsEncoding := by
  refine ⟨b32Decode_b32Encode, by decide, fun text => ?_, fun text hpad out h => ?_,
    fun text out h => ⟨?_, fun ⟨hupper, hlen, hacc⟩ => ?_⟩⟩
  · rw [b32Decode, b32DecodeFrom_upcase, b32Decode]
  · exact absurd ((b32DecodeFrom_bits h).1 _ hpad) (by decide)
  · rintro rfl
    exact ⟨b32Encode_upcase out, b32Encode_length out, dropped_of_b32Encode⟩
  · rw [b32Encode_of_zeros_dropped h hlen hacc, hupper]

end Sys2Proof.Machine
end

section
/-! PROOFS. The two commands of the B32 unit, `B32.ENC` (R97) and `B32.DEC` (R98): what a delivery
and an error write, applied to what the functions give. -/

namespace Sys2Proof.Machine

section
variable {s : State}

/-! ### How the commands end -/

/-- A delivery from the OK state: the bytes, their number and the response, and nothing else. -/
theorem deliver_of_okState {bs : List Byte} (hs : s.Ok) (h : bs.length ≤ 256) :
    deliver bs s = .next { s with
      obuf := storeFrom s.obuf 0 bs, olen := lenBits bs,
      responses := s.responses ++ [0x0000#16] } := by
  rw [deliver_of_fits h, status_of_clear hs.1 hs.2]
  rfl

/-- The same of a B32 command, which leaves `ACC` and `NB` as its loop left them: the bytes are the
valid content of `OBUF`, and indices beyond them read as before (R97, R98). -/
theorem exists_deliver_setWork {bs : List Byte} (hs : s.Ok) (h : bs.length ≤ 256) (w : Bits) :
    ∃ t, deliver bs (setWork w s) = .next t ∧
      t = { s with
        obuf := t.obuf, olen := t.olen, acc := t.acc, nb := t.nb,
        responses := s.responses ++ [0x0000#16] } ∧
      t.OutputIs bs ∧ ∀ j, t.olen.toNat ≤ j → t.obuf.byteAt j = s.obuf.byteAt j :=
  ⟨_, deliver_of_okState (s := setWork w s) hs h, rfl,
    ⟨lenBits_toNat h, fun _ hi => byteAt_storeFrom_zero _ hi⟩,
    fun _ hj => byteAt_storeFrom_zero_of_ge _ ((lenBits_toNat h).symm.trans_le hj)⟩

/-- A bad character, raised from the OK state: `ERR`, `EINFO` with its data and the response, and
nothing else (R98, R136). -/
theorem raise_badCharacter_of_okState (hs : s.Ok) (info : Word) :
    raise .invalidBase32Character info s = .next { s with
      err := 3, einfo := info, responses := s.responses ++ [0x8003#16] } := by
  have hstatus : status (recordError .invalidBase32Character info s) = 0x8003#16 :=
    status_of_recoverable (code_ne_zero .invalidBase32Character) hs.2
  rw [raise_eq, hstatus]
  rfl

/-! ### `B32.DEC` past its length test -/

variable {p : Config.Params} {text : List Byte}

/-- Whether the input is held or the access faults, what follows depends on the block through the
width alone, which the decoder does not show (R99). -/
theorem b32DecWith_of_short {p' : Config.Params} (hp : 12 ≤ p.accW) (hp' : 12 ≤ p'.accW)
    (h : s.ilen.toNat ≤ p.b32MaxIn) (h' : s.ilen.toNat ≤ p'.b32MaxIn) :
    b32DecWith p s = b32DecWith p' s := by
  have hn : ¬p.b32MaxIn < (setWork ⟨0, 0⟩ s).ilen.toNat := Nat.not_lt.2 h
  have hn' : ¬p'.b32MaxIn < (setWork ⟨0, 0⟩ s).ilen.toNat := Nat.not_lt.2 h'
  by_cases he : s.err = 0
  · simp only [b32DecWith, unlessError_ok he, if_neg hn, if_neg hn', b32DecodeFrom_width hp hp']
  · simp only [b32DecWith, unlessError_skip he]

theorem b32DecWith_of_bytes {out : List Byte} (hs : s.Ok) (hd : s.InputIs text)
    (hl : text.length ≤ p.b32MaxIn) (h : b32Decode p.accW text = .ok out) :
    ∃ w, b32DecWith p s = deliver out (setWork w s) := by
  have hdec : b32DecodeFrom p.accW 0 text ⟨0, 0⟩ = (_, .ok out) := Prod.ext rfl h
  rw [b32DecWith_of_held hs.1 hd (hd.1 ▸ hl), hdec]
  exact ⟨_, rfl⟩

theorem b32DecWith_of_badCharacter {char : Byte} {pos : Nat} (hs : s.Ok) (hd : s.InputIs text)
    (hl : text.length ≤ p.b32MaxIn)
    (h : b32Decode p.accW text = .error (.invalidCharacter char pos)) :
    ∃ w, b32DecWith p s = raise .invalidBase32Character (charInfo char pos) (setWork w s) := by
  have hdec : b32DecodeFrom p.accW 0 text ⟨0, 0⟩ = (_, .error (.invalidCharacter char pos)) :=
    Prod.ext rfl h
  rw [b32DecWith_of_held hs.1 hd (hd.1 ▸ hl), hdec]
  exact ⟨_, rfl⟩

end

/-! ### The obligations -/

/-- Settles O22: within 160 bytes the encoding fits `OBUF` and is delivered. -/
theorem b32EncEncodesTheInput : Obligations.B32EncEncodesTheInput := by
  refine ⟨decode_encode .b32Enc, fun s => ⟨fun data hs hd hl => ?_, fun hs hlong => ?_,
    exec_of_error rfl⟩⟩
  · have hlen := b32Encode_length data
    obtain ⟨t, hexec, hframe, hout, hbeyond⟩ :=
      exists_deliver_setWork (bs := b32Encode data) hs (by omega) (b32EncodeFrom data ⟨0, 0⟩).2
    refine ⟨t, ?_, hframe, hout, ?_, hbeyond⟩
    · rw [exec_b32Enc_of_held hs.1 hd (hd.1 ▸ hl)]
      exact hexec
    · rw [hout.1, hlen, hd.1]
  · rw [exec_b32Enc_of_long hs.1 hlong]
    exact ⟨_, raise_of_okState (s := setWork ⟨0, 0⟩ s) hs nofun nofun, rfl⟩

/-- Settles O24: the length test, then the decoder's bytes, which fit `OBUF`, or its error. -/
theorem b32DecOnEveryConformingBlock : Obligations.B32DecOnEveryConformingBlock := by
  intro p ⟨hmin, hmax, hwidth⟩ s
  refine ⟨fun hshort => ?_, fun hs hlong => ?_, fun text out hs hd hl h => ?_,
    fun text char pos hs hd hl h => ?_, b32DecodeFrom_ne_malformed hwidth 0,
    fun he => unlessError_skip he _⟩
  · exact b32DecWith_of_short (p' := Config.params) hwidth (by decide) (hshort.trans hmin)
      (hshort.trans (by decide))
  · rw [b32DecWith_of_long hs.1 hlong]
    exact ⟨_, raise_of_okState (s := setWork ⟨0, 0⟩ s) hs nofun nofun, rfl⟩
  · obtain ⟨w, hend⟩ := b32DecWith_of_bytes hs hd hl h
    have hlen := b32Decode_length h
    have hcap : p.b32MaxIn ≤ 256 := hmax
    obtain ⟨t, hexec, hframe, hout, hbeyond⟩ := exists_deliver_setWork hs (bs := out) (by omega) w
    exact ⟨t, hend.trans hexec, hframe, hout, by rw [hout.1, hlen, hd.1], hbeyond⟩
  · obtain ⟨w, hend⟩ := b32DecWith_of_badCharacter hs hd hl h
    exact ⟨_, hend.trans (raise_badCharacter_of_okState (s := setWork w s) hs _), rfl⟩

/-- Settles O23: the modelled block is the conforming one with R7's defaults. -/
theorem b32DecDecodesTheInput : Obligations.B32DecDecodesTheInput :=
  ⟨decode_encode .b32Dec, fun s =>
    (b32DecOnEveryConformingBlock Config.params (by decide) s).2⟩

end Sys2Proof.Machine
end

section
/-! PROOFS. The functions of the PAY unit (43_payload.md). A payload falls into its parts, version,
hash and checksum bytes; on the parts each function is one equation, and from the two equations come
the laws of R111. -/

namespace Sys2Proof.Machine

theorem checksum_eq_foldl (d : List Byte) : checksum d = d.foldl crcUpdate 0x0000#16 :=
  crcFold_eq_foldl _ d

/-! ### The parts of a payload -/

/-- Every sequence of the length of R105 has a version, a hash and two checksum bytes. -/
theorem exists_payload_parts {p : List Byte} (h : p.length = 35) :
    ∃ (v lo hi : Byte) (hash : List Byte), hash.length = 32 ∧ p = v :: hash ++ [lo, hi] := by
  obtain ⟨v, rest, rfl⟩ := List.exists_cons_of_length_eq_add_one h
  have hrest : rest.length = 34 := Nat.succ.inj h
  obtain ⟨lo, hi, htail⟩ : ∃ lo hi, rest.drop 32 = [lo, hi] :=
    List.length_eq_two.1 (by rw [List.length_drop, hrest])
  refine ⟨v, lo, hi, rest.take 32, by rw [List.length_take, hrest]; rfl, ?_⟩
  rw [List.cons_append, ← htail, List.take_append_drop]

section
variable {v lo hi : Byte} {hash : List Byte}

theorem parts_hash (h : hash.length = 32) : ((v :: hash ++ [lo, hi]).drop 1).take 32 = hash :=
  List.take_left' h

theorem parts_checked (h : hash.length = 32) : (v :: hash ++ [lo, hi]).take 33 = v :: hash :=
  List.take_left' (congrArg Nat.succ h)

theorem parts_low (h : hash.length = 32) : (v :: hash ++ [lo, hi])[33]? = some lo := by
  simp [h]

theorem parts_high (h : hash.length = 32) : (v :: hash ++ [lo, hi])[34]? = some hi := by
  simp [h]

theorem parts_hash_byte {i : Nat} (h : i < hash.length) :
    (v :: hash ++ [lo, hi])[1 + i]? = hash[i]? := by
  rw [Nat.add_comm, List.cons_append, List.getElem?_cons_succ, List.getElem?_append_left h]

/-- The parts are the ones that stand at the indices of R105. -/
theorem exists_hash_of_bytes {p : List Byte} (h : p.length = 35) (hv : p[0]? = some v)
    (hlo : p[33]? = some lo) (hhi : p[34]? = some hi) :
    ∃ hash : List Byte, hash.length = 32 ∧ p = v :: hash ++ [lo, hi] := by
  obtain ⟨v', lo', hi', hash, hhash, rfl⟩ := exists_payload_parts h
  obtain rfl := Option.some.inj hv
  obtain rfl := Option.some.inj ((parts_low hhash).symm.trans hlo)
  obtain rfl := Option.some.inj ((parts_high hhash).symm.trans hhi)
  exact ⟨hash, hhash, rfl⟩

theorem parts_set_hash (x : Byte) {j : Nat} (h : j < hash.length) :
    (v :: hash ++ [lo, hi]).set (j + 1) x = v :: hash.set j x ++ [lo, hi] :=
  List.set_append_left (j + 1) x (Nat.succ_lt_succ h)

theorem parts_set_low (x : Byte) (h : hash.length = 32) :
    (v :: hash ++ [lo, hi]).set 33 x = v :: hash ++ [x, hi] := by
  simp [h]

theorem parts_set_high (x : Byte) (h : hash.length = 32) :
    (v :: hash ++ [lo, hi]).set 34 x = v :: hash ++ [lo, x] := by
  simp [h]

/-- A widened byte stands below a zero byte (R33). -/
theorem zextByte_eq (b : Byte) : zextByte b = 0x00#8 ++ b :=
  BitVec.setWidth_eq_append (by decide)

/-- The low byte stands first (R105, R107). -/
theorem storedChecksum_parts (h : hash.length = 32) :
    storedChecksum (v :: hash ++ [lo, hi]) = hi ++ lo := by
  rw [storedChecksum, List.getD_eq_getElem?_getD, List.getD_eq_getElem?_getD, parts_low h,
    parts_high h, Option.getD_some, Option.getD_some, zextByte_shiftLeft, zextByte_eq]
  exact BitVec.or_append.trans (by rw [BitVec.or_zero, BitVec.zero_or])

/-! ### The two functions on the parts -/

/-- The two tests left once the length is right (R107). -/
theorem payloadParse_parts (h : hash.length = 32) :
    payloadParse (v :: hash ++ [lo, hi]) =
      if v ≠ 0x10#8 then .error .unsupportedVersion
      else if checksum (v :: hash) ≠ hi ++ lo then .error .invalidChecksum
      else .ok hash := by
  have hlen : (v :: hash ++ [lo, hi]).length = 35 := by simp [h]
  rw [payloadParse, if_neg (not_not_intro hlen), storedChecksum_parts h, parts_checked h,
    parts_hash h]
  rfl

theorem payloadParse_of_length {p : List Byte} (h : p.length ≠ 35) :
    payloadParse p = .error .invalidPayloadLength :=
  if_pos h

theorem payloadParse_of_version (h : hash.length = 32) (hv : v ≠ 0x10#8) :
    payloadParse (v :: hash ++ [lo, hi]) = .error .unsupportedVersion := by
  rw [payloadParse_parts h, if_pos hv]

theorem payloadParse_of_checksum (h : hash.length = 32)
    (hsum : checksum (0x10#8 :: hash) ≠ hi ++ lo) :
    payloadParse (0x10#8 :: hash ++ [lo, hi]) = .error .invalidChecksum := by
  rw [payloadParse_parts h, if_neg (not_not_intro rfl), if_pos hsum]

theorem payloadParse_of_accepted (h : hash.length = 32)
    (hsum : checksum (0x10#8 :: hash) = hi ++ lo) :
    payloadParse (0x10#8 :: hash ++ [lo, hi]) = .ok hash := by
  rw [payloadParse_parts h, if_neg (not_not_intro rfl), if_neg (not_not_intro hsum)]

theorem payloadBuild_eq (hsum : checksum (0x10#8 :: hash) = hi ++ lo) :
    payloadBuild hash = 0x10#8 :: hash ++ [lo, hi] := by
  have hversion : Config.versionContract = 0x10#8 := rfl
  rw [payloadBuild, hversion, hsum, checksumBytes, lowByte_append, opcode_append]

/-! ### Parsing inverts building -/

theorem payloadParse_payloadBuild (h : hash.length = 32) :
    payloadParse (payloadBuild hash) = .ok hash := by
  obtain ⟨hi, lo, hsum⟩ := exists_append (checksum (0x10#8 :: hash))
  rw [payloadBuild_eq hsum, payloadParse_of_accepted h hsum]

/-- What is accepted passed both tests, so its version and checksum bytes are the built ones. -/
theorem parts_of_payloadParse {p : List Byte} (h : payloadParse p = .ok hash) :
    ∃ lo hi : Byte, p = 0x10#8 :: hash ++ [lo, hi] ∧ checksum (0x10#8 :: hash) = hi ++ lo := by
  obtain ⟨v, lo, hi, hash', hlen, rfl⟩ := exists_payload_parts (payloadParse_ok_length h).1
  rw [payloadParse_parts hlen] at h
  split at h
  · cases h
  · next hv =>
    split at h
    · cases h
    · next hsum =>
      obtain rfl := Except.ok.inj h
      obtain rfl := not_not.1 hv
      exact ⟨lo, hi, rfl, not_not.1 hsum⟩

/-! ### One byte changed -/

/-- One byte of a sequence changed in its place changes the checksum. -/
theorem checksum_set_ne {d : List Byte} {i : Nat} {b x : Byte} (hb : d[i]? = some b) (hx : x ≠ b) :
    checksum (d.set i x) ≠ checksum d := by
  obtain ⟨hlt, hbyte⟩ := List.getElem?_eq_some_iff.1 hb
  have hsplit : d.take i ++ b :: d.drop (i + 1) = d := by
    rw [← hbyte, ← List.drop_eq_getElem_cons hlt, List.take_append_drop]
  have hne := checksum_ne_of_byte_ne hx (d.take i) (d.drop (i + 1))
  rw [hsplit] at hne
  rwa [List.set_eq_take_append_cons_drop, if_pos hlt]

/-- The four fields of R105, by the index of a byte. -/
theorem payload_index_cases {i : Nat} (h : i < 35) :
    i = 0 ∨ (∃ j < 32, i = j + 1) ∨ i = 33 ∨ i = 34 := by
  by_cases hhash : 1 ≤ i ∧ i ≤ 32
  · exact .inr (.inl ⟨i - 1, by omega, by omega⟩)
  · omega

/-- A byte changed in the version fails its test; one in the hash changes the checksum computed, and
one in the checksum bytes the checksum stored, so the two no longer agree. -/
theorem payloadParse_set {p : List Byte} {i : Nat} {b x : Byte} (h : payloadParse p = .ok hash)
    (hb : p[i]? = some b) (hx : x ≠ b) : payloadParse (p.set i x) =
      .error (if i = 0 then .unsupportedVersion else .invalidChecksum) := by
  have hlen := (payloadParse_ok_length h).2
  obtain ⟨lo, hi, rfl, hsum⟩ := parts_of_payloadParse h
  obtain ⟨hlt, -⟩ := List.getElem?_eq_some_iff.1 hb
  obtain rfl | ⟨j, hj, rfl⟩ | rfl | rfl := payload_index_cases (by simpa [hlen] using hlt)
  · exact payloadParse_of_version hlen fun hv => hx (hv.trans (Option.some.inj hb))
  · rw [parts_set_hash x (hlen.symm ▸ hj)]
    rw [List.getElem?_append_left (by simp; omega)] at hb
    exact payloadParse_of_checksum ((List.length_set ..).trans hlen)
      (hsum ▸ checksum_set_ne hb hx)
  · rw [parts_low hlen] at hb
    rw [parts_set_low x hlen]
    refine payloadParse_of_checksum hlen fun hsame => hx ?_
    exact (append_inj.1 (hsame.symm.trans hsum)).2.trans (Option.some.inj hb)
  · rw [parts_high hlen] at hb
    rw [parts_set_high x hlen]
    refine payloadParse_of_checksum hlen fun hsame => hx ?_
    exact (append_inj.1 (hsame.symm.trans hsum)).1.trans (Option.some.inj hb)

end

/-! ### The obligations -/

/-- Settles O52: the payload is its parts, and a checksum is its own high and low byte. -/
theorem payloadLayout : Obligations.PayloadLayout := by
  intro hash h
  rw [← checksum_eq_foldl]
  obtain ⟨hi, lo, hsum⟩ := exists_append (checksum (0x10#8 :: hash))
  rw [payloadBuild_eq hsum, hsum]
  refine ⟨by simp [h], rfl, fun i hlt => parts_hash_byte (h.symm ▸ hlt), ?_, ?_⟩
  · rw [parts_low h, lowByte_append]
  · rw [parts_high h, opcode_append]

/-- Settles O53: an accepted sequence is built from its hash, and a built one is accepted. -/
theorem parseAcceptsExactlyTheBuiltPayloads : Obligations.ParseAcceptsExactlyTheBuiltPayloads := by
  refine ⟨fun hash => payloadParse_payloadBuild, fun p hash => ⟨fun h => ?_, ?_⟩⟩
  · obtain ⟨hlength, hhash⟩ := payloadParse_ok_length h
    obtain ⟨lo, hi, rfl, hsum⟩ := parts_of_payloadParse h
    exact ⟨hlength, (parts_hash hhash).symm, (payloadBuild_eq hsum).symm⟩
  · rintro ⟨hlength, hhash, hbuilt⟩
    rw [hbuilt, payloadBuild_length] at hlength
    rw [hbuilt]
    exact payloadParse_payloadBuild (Nat.add_right_cancel hlength)

/-- Settles O54: a flipped bit is a changed byte. -/
theorem singleBitFlipIsRefused : Obligations.SingleBitFlipIsRefused := by
  intro p hash h i k b _ hk hb
  refine payloadParse_set h hb fun hsame => one_shiftLeft_ne_zero hk ?_
  rwa [← BitVec.xor_right_inj b, BitVec.xor_zero]

end Sys2Proof.Machine
end

section
/-! PROOFS. The two commands of the PAY unit, `PAY.BUILD` (R108) and `PAY.PARSE` (R109): a delivery
or an error of the OK state, by what the functions give. -/

namespace Sys2Proof.Machine

section
variable {s : State}

/-! ### How the commands end -/

/-- A delivery from the OK state writes `OBUF`, `OLEN` and the response and nothing else, `ACC` and
`NB` included: the bytes are the valid content of `OBUF`, and indices beyond them read as before. -/
theorem exists_deliver_of_okState {bs : List Byte} (hs : s.Ok) (h : bs.length ≤ 256) :
    ∃ t, deliver bs s = .next t ∧
      t = { s with
        obuf := t.obuf, olen := lenBits bs, responses := s.responses ++ [0x0000#16] } ∧
      t.OutputIs bs ∧ ∀ j, bs.length ≤ j → t.obuf.byteAt j = s.obuf.byteAt j :=
  ⟨_, deliver_of_okState hs h, rfl, ⟨lenBits_toNat h, fun _ => byteAt_storeFrom_zero _⟩,
    fun _ => byteAt_storeFrom_zero_of_ge _⟩

/-- The fatal error, whatever the state before: `ERR`, `FF`, `EINFO` and the response, and nothing
else (R108, R136). -/
theorem raise_ePrecond (info : Word) : raise .ePrecond info s = .next { s with
    err := 13, ff := true, einfo := 0, responses := s.responses ++ [0xC00D#16] } := by
  obtain ⟨-, -, -, -, -, -, hfatal⟩ := statusIsTheViewOfErrAndFf (recordError .ePrecond info s)
  rw [raise_eq, hfatal rfl rfl]
  rfl

/-- An error of the validator, raised from the OK state; it carries no data (R109, R136). -/
theorem exec_payParse_of_error {p : List Byte} {x : ErrorKind} (hs : s.Ok) (hd : s.InputIs p)
    (h : payloadParse p = .error x) : exec .payParse s = .next { s with
      err := x.code, einfo := 0,
      responses := s.responses ++ [0x8000#16 + x.code.zeroExtend 16] } := by
  rw [exec_payParse_of_held hs.1 hd, h]
  obtain rfl | rfl | rfl := payloadParse_error h <;> exact raise_of_okState hs nofun nofun

end

/-! ### The obligations -/

/-- Settles O25: the payload of 32 bytes is delivered, any other length raises. -/
theorem payBuildMarshalsThePayload : Obligations.PayBuildMarshalsThePayload := by
  refine ⟨decode_encode .payBuild, fun s => ⟨fun hash hs hd hhash => ?_, fun hs hlen => ?_,
    exec_of_error rfl⟩⟩
  · have hlen : (payloadBuild hash).length = 35 := by rw [payloadBuild_length, hhash]
    obtain ⟨t, hexec, hframe, hout, hbeyond⟩ :=
      exists_deliver_of_okState (bs := payloadBuild hash) hs (by omega)
    rw [lenBits, hlen] at hframe
    rw [hlen] at hbeyond
    exact ⟨t, (exec_payBuild_of_held hs.1 hd hhash).trans hexec, hframe, hout, hbeyond⟩
  · rw [exec_payBuild_of_length hs.1 hlen, raise_ePrecond]

/-- Settles O26: the validator's three tests on the parts of the input, then the delivery of the
hash, whose byte `i` is byte `1 + i` of the input. -/
theorem payParseValidatesThePayload : Obligations.PayParseValidatesThePayload := by
  refine ⟨decode_encode .payParse, fun s => ⟨fun p hs hd hlen => ?_, fun p hs hd hlen hv => ?_,
    fun p lo hi hs hd hlen hv hlo hhi hsum => ?_, fun p lo hi hs hd hlen hv hlo hhi hsum => ?_,
    exec_of_error rfl⟩⟩
  · exact exec_payParse_of_error hs hd (payloadParse_of_length hlen)
  · obtain ⟨v, lo, hi, hash, hhash, rfl⟩ := exists_payload_parts hlen
    exact exec_payParse_of_error hs hd
      (payloadParse_of_version hhash fun h => hv (congrArg some h))
  · obtain ⟨hash, hhash, rfl⟩ := exists_hash_of_bytes hlen hv hlo hhi
    rw [parts_checked hhash, ← checksum_eq_foldl] at hsum
    exact exec_payParse_of_error hs hd (payloadParse_of_checksum hhash hsum)
  · obtain ⟨hash, hhash, rfl⟩ := exists_hash_of_bytes hlen hv hlo hhi
    rw [parts_checked hhash, ← checksum_eq_foldl] at hsum
    obtain ⟨t, hexec, hframe, hout, hbeyond⟩ :=
      exists_deliver_of_okState (bs := hash) hs (by omega)
    rw [lenBits, hhash] at hframe
    rw [hhash] at hbeyond
    refine ⟨t, ?_, hframe, fun i hlt => ?_, hbeyond⟩
    · rw [exec_payParse_of_held hs.1 hd, payloadParse_of_accepted hhash hsum]
      exact hexec
    · rw [hout.2 i (hhash.symm ▸ hlt), hd.2 (1 + i) (by omega), parts_hash_byte (hhash.symm ▸ hlt)]

end Sys2Proof.Machine
end

section
/-! PROOFS. The hex text of 44_host_layer.md R117 and R118. A digit and its value are each other's
inverse, so pairs of digits and bytes are; and no hex digit is trimmed or lower-cased. -/

namespace Sys2Proof.Machine

/-! ### The digits -/

theorem hexDigit_hexChar {v : Nat} (h : v < 16) : hexDigit (hexChar v) = some v := by
  have hall : ∀ v < 16, hexDigit (hexChar v) = some v := by decide
  exact hall v h

/-- The two ranges of digits, with their values (R117). -/
theorem hexDigit_eq_some_iff {c : Byte} {v : Nat} : hexDigit c = some v ↔
    (0x30 ≤ c.toNat ∧ c.toNat ≤ 0x39 ∧ v = c.toNat - 0x30) ∨
      (0x61 ≤ c.toNat ∧ c.toNat ≤ 0x66 ∧ v = c.toNat - 0x61 + 10) := by
  unfold hexDigit
  split
  · rw [Option.some_inj]
    omega
  · split
    · rw [Option.some_inj]
      omega
    · exact iff_of_false nofun (by omega)

theorem hexDigit_isSome_iff {c : Byte} : (hexDigit c).isSome ↔
    (0x30 ≤ c.toNat ∧ c.toNat ≤ 0x39) ∨ (0x61 ≤ c.toNat ∧ c.toNat ≤ 0x66) := by
  simp only [Option.isSome_iff_exists, hexDigit_eq_some_iff]
  constructor
  · rintro ⟨v, ⟨hlow, hhigh, -⟩ | ⟨hlow, hhigh, -⟩⟩
    · exact .inl ⟨hlow, hhigh⟩
    · exact .inr ⟨hlow, hhigh⟩
  · rintro (⟨hlow, hhigh⟩ | ⟨hlow, hhigh⟩)
    · exact ⟨_, .inl ⟨hlow, hhigh, rfl⟩⟩
    · exact ⟨_, .inr ⟨hlow, hhigh, rfl⟩⟩

/-- A digit's value is a nibble, and the nibble is written as that digit. -/
theorem hexChar_of_hexDigit {c : Byte} {v : Nat} (h : hexDigit c = some v) :
    v < 16 ∧ hexChar v = c := by
  rcases hexDigit_eq_some_iff.1 h with ⟨hlow, hhigh, rfl⟩ | ⟨hlow, hhigh, rfl⟩
  · refine ⟨by omega, BitVec.eq_of_toNat_eq ?_⟩
    rw [hexChar, if_pos (by omega), BitVec.toNat_ofNat]
    omega
  · refine ⟨by omega, BitVec.eq_of_toNat_eq ?_⟩
    rw [hexChar, if_neg (by omega), BitVec.toNat_ofNat]
    omega

theorem lowerByte_of_hexDigit {c : Byte} (h : (hexDigit c).isSome) : lowerByte c = c := by
  have hranges := hexDigit_isSome_iff.1 h
  exact if_neg (by omega)

theorem not_mem_hexTrimSet_of_hexDigit {c : Byte} (h : (hexDigit c).isSome) :
    c ∉ Config.params.hexTrimSet := by
  have hnone : ∀ b ∈ Config.params.hexTrimSet, ¬(hexDigit b).isSome := by decide
  exact fun hmem => hnone c hmem h

/-! ### Bytes and pairs of digits -/

@[simp] theorem toHex_cons (b : Byte) (bs : List Byte) :
    toHex (b :: bs) = hexChar (b.toNat / 16) :: hexChar (b.toNat % 16) :: toHex bs := rfl

@[simp] theorem toHex_length (d : List Byte) : (toHex d).length = 2 * d.length := by
  induction d with
  | nil => rfl
  | cons b bs ih => rw [toHex_cons, List.length_cons, List.length_cons, ih, List.length_cons,
      Nat.mul_succ]

theorem nibbles_lt (b : Byte) : b.toNat / 16 < 16 ∧ b.toNat % 16 < 16 := by
  have hb := b.isLt
  omega

theorem hexDigit_of_mem_toHex {d : List Byte} {c : Byte} (h : c ∈ toHex d) :
    (hexDigit c).isSome := by
  obtain ⟨b, -, hc⟩ := List.mem_flatMap.1 h
  obtain ⟨hhigh, hlow⟩ := nibbles_lt b
  rcases List.mem_pair.1 hc with rfl | rfl
  · rw [hexDigit_hexChar hhigh, Option.isSome_some]
  · rw [hexDigit_hexChar hlow, Option.isSome_some]

theorem hexPairs_toHex (d : List Byte) : hexPairs (toHex d) = d := by
  induction d with
  | nil => rfl
  | cons b bs ih =>
    obtain ⟨hhigh, hlow⟩ := nibbles_lt b
    rw [toHex_cons, hexPairs, hexDigit_hexChar hhigh, hexDigit_hexChar hlow, Option.getD_some,
      Option.getD_some, Nat.div_add_mod, BitVec.ofNat_toNat, BitVec.setWidth_eq, ih]

/-- Two nibbles come back from the byte they make. -/
theorem toHex_ofNat_cons {x y : Nat} (hx : x < 16) (hy : y < 16) (bs : List Byte) :
    toHex (BitVec.ofNat 8 (16 * x + y) :: bs) = hexChar x :: hexChar y :: toHex bs := by
  have hvalue : (BitVec.ofNat 8 (16 * x + y)).toNat = 16 * x + y := by
    rw [BitVec.toNat_ofNat]
    omega
  have hhigh : (16 * x + y) / 16 = x := by omega
  have hlow : (16 * x + y) % 16 = y := by omega
  rw [toHex_cons, hvalue, hhigh, hlow]

theorem toHex_hexPairs {t : List Byte} (heven : t.length % 2 = 0)
    (ht : ∀ c ∈ t, (hexDigit c).isSome) : toHex (hexPairs t) = t := by
  induction t using hexPairs.induct with
  | case1 a b cs ih =>
    obtain ⟨ha, hb, hcs⟩ : (hexDigit a).isSome ∧ (hexDigit b).isSome ∧
        ∀ c ∈ cs, (hexDigit c).isSome := by
      simpa only [List.forall_mem_cons] using ht
    obtain ⟨x, hx⟩ := Option.isSome_iff_exists.1 ha
    obtain ⟨y, hy⟩ := Option.isSome_iff_exists.1 hb
    obtain ⟨hxlt, rfl⟩ := hexChar_of_hexDigit hx
    obtain ⟨hylt, rfl⟩ := hexChar_of_hexDigit hy
    have hlength : cs.length % 2 = 0 := by
      rwa [List.length_cons, List.length_cons, Nat.add_assoc, Nat.add_mod_right] at heven
    rw [hexPairs, hx, hy, Option.getD_some, Option.getD_some, toHex_ofNat_cons hxlt hylt,
      ih hlength hcs]
  | case2 t hshort =>
    match t, heven with
    | [], _ => rfl
    | a :: b :: cs, _ => exact absurd rfl (hshort a b cs)

/-! ### `toBytes` -/

/-- The text whose digits `toBytes` looks at (R117). -/
def hexBody (p : Config.Params) (hex : List Byte) : List Byte :=
  (trimEnds p.hexTrimSet hex).map lowerByte

theorem firstNonHex_eq_none_iff {i : Nat} {t : List Byte} :
    firstNonHex i t = none ↔ ∀ c ∈ t, (hexDigit c).isSome := by
  induction t generalizing i with
  | nil => exact iff_of_true rfl nofun
  | cons c cs ih =>
    rw [firstNonHex, List.forall_mem_cons]
    split
    · next hc => rw [ih, and_iff_right hc]
    · next hc => exact iff_of_false nofun fun hall => hc hall.1

/-- Exactly the texts of an even number of digits convert, pair by pair. -/
theorem toBytes_eq_ok_iff {p : Config.Params} {s d : List Byte} : toBytes p s = .ok d ↔
    (hexBody p s).length % 2 = 0 ∧ (∀ c ∈ hexBody p s, (hexDigit c).isSome) ∧
      hexPairs (hexBody p s) = d := by
  rw [← firstNonHex_eq_none_iff (i := 0), toBytes, ← hexBody]
  split
  · next hodd => exact iff_of_false nofun (by omega)
  · next hodd =>
    rw [and_iff_right (Nat.mod_two_ne_one.1 hodd)]
    cases firstNonHex 0 (hexBody p s) with
    | some i => exact iff_of_false nofun fun h => nomatch h.1
    | none => rw [and_iff_right rfl, Except.ok.injEq]

theorem trimEnds_of_none_mem {set bs : List Byte} (h : ∀ c ∈ bs, c ∉ set) :
    trimEnds set bs = bs := by
  have hkeep : ∀ l : List Byte, (∀ c ∈ l, c ∉ set) →
      l.dropWhile (fun b => decide (b ∈ set)) = l := fun l hl =>
    List.dropWhile_eq_self_iff.2 fun hpos => by simpa using hl _ (List.getElem_mem hpos)
  rw [trimEnds, hkeep bs h, hkeep bs.reverse fun c hc => h c (List.mem_reverse.1 hc),
    List.reverse_reverse]

/-- Hex digits are neither trimmed nor changed. -/
theorem hexBody_of_digits {t : List Byte} (h : ∀ c ∈ t, (hexDigit c).isSome) :
    hexBody Config.params t = t := by
  rw [hexBody, trimEnds_of_none_mem fun c hc => not_mem_hexTrimSet_of_hexDigit (h c hc)]
  exact (List.map_congr_left fun c hc => lowerByte_of_hexDigit (h c hc)).trans (List.map_id t)

theorem toBytes_toHex (d : List Byte) : toBytes Config.params (toHex d) = .ok d := by
  have hdigits : ∀ c ∈ toHex d, (hexDigit c).isSome := fun c => hexDigit_of_mem_toHex
  rw [toBytes_eq_ok_iff, hexBody_of_digits hdigits]
  exact ⟨by rw [toHex_length, Nat.mul_mod_right], hdigits, hexPairs_toHex d⟩

/-- Settles O56: the text of a byte sequence is pairs of digits, and a text that converts is pairs
of digits once it is trimmed and lower-cased. -/
theorem hexTextRoundTrip : Obligations.HexTextRoundTrip := by
  refine ⟨fun d => ⟨toHex_length d, toBytes_toHex d, fun c hc =>
    hexDigit_isSome_iff.1 (hexDigit_of_mem_toHex hc)⟩, fun s d h => ?_⟩
  obtain ⟨heven, hdigits, rfl⟩ := toBytes_eq_ok_iff.1 h
  exact toHex_hexPairs heven hdigits

end Sys2Proof.Machine
end

section
/-! PROOFS. The addresses of 44_host_layer.md R119 and the source's functions over them (R120, R122,
R124). Past the length test `addressDecode` is the base-32 decoder and then the payload's three
tests, so each law is one of the decoder's and one of the payload's. -/

namespace Sys2Proof.Machine

section
variable {p : Config.Params} {t d hash : List Byte}

/-! ### What `addressDecode` answers -/

theorem addressDecode_of_tooLong (h : p.b32MaxIn < t.length) :
    addressDecode p t = .error .inputTooLong :=
  if_pos h

theorem addressDecode_of_badCharacter {char : Byte} {pos : Nat} (hlen : t.length ≤ p.b32MaxIn)
    (h : b32Decode p.accW t = .error (.invalidCharacter char pos)) :
    addressDecode p t = .error (.invalidBase32Character char pos) := by
  rw [addressDecode, if_neg (Nat.not_lt.2 hlen), h]

theorem addressDecode_of_parseError {x : ErrorKind} (hlen : t.length ≤ p.b32MaxIn)
    (hd : b32Decode p.accW t = .ok d) (hx : payloadParse d = .error x) :
    addressDecode p t = .error (parseError x) := by
  rw [addressDecode, if_neg (Nat.not_lt.2 hlen), hd]
  simp only [hx]

/-- Exactly the texts within the bound that decode to an accepted payload are addresses. -/
theorem addressDecode_eq_ok_iff : addressDecode p t = .ok hash ↔
    t.length ≤ p.b32MaxIn ∧ ∃ d, b32Decode p.accW t = .ok d ∧ payloadParse d = .ok hash := by
  rw [addressDecode]
  split
  · next hlong => exact iff_of_false nofun fun h => Nat.not_lt.2 h.1 hlong
  · next hshort =>
    rw [and_iff_right (Nat.not_lt.1 hshort)]
    cases b32Decode p.accW t with
    | error e => cases e <;> simp
    | ok d => cases hparse : payloadParse d <;> simp [hparse]

/-- A text of 56 or 57 characters, and no other, decodes to the 35 bytes of a payload (R96,
90_conflicts.md C1). -/
theorem b32Decode_length_eq_payload_iff {accW : Nat} (h : b32Decode accW t = .ok d) :
    d.length = 35 ↔ t.length = 56 ∨ t.length = 57 := by
  rw [b32Decode_length h]
  omega

theorem length_of_addressDecode (h : addressDecode p t = .ok hash) :
    t.length = 56 ∨ t.length = 57 := by
  obtain ⟨-, d, hd, hparse⟩ := addressDecode_eq_ok_iff.1 h
  exact (b32Decode_length_eq_payload_iff hd).1 (payloadParse_ok_length hparse).1

/-! ### The text of a payload -/

/-- A decoder of any conforming width reads back what the encoder wrote (R99, R100). -/
theorem b32Decode_b32Encode_of_width {accW : Nat} (h : 12 ≤ accW) (data : List Byte) :
    b32Decode accW (b32Encode data) = .ok data := by
  rw [b32Decode, b32DecodeFrom_width h (Nat.le_refl 12)]
  exact b32Decode_b32Encode data

theorem addressEncode_length (h : hash.length = 32) : (addressEncode hash).length = 56 := by
  rw [addressEncode, b32Encode_length, payloadBuild_length, h]

theorem addressDecode_addressEncode (hp : p.Conforming) (h : hash.length = 32) :
    addressDecode p (addressEncode hash) = .ok hash := by
  obtain ⟨hmin, -, hwidth⟩ := hp
  refine addressDecode_eq_ok_iff.2 ⟨?_, _, b32Decode_b32Encode_of_width hwidth _,
    payloadParse_payloadBuild h⟩
  rw [addressEncode_length h]
  omega

end

/-! ### The first two characters -/

/-- The version byte 0x10 is the five bits of `C` and three zeros, which with the next byte's top
two bits are the second character (R119). -/
theorem groupsOf5_version_append (b : Byte) (rest : List Bool) :
    groupsOf5 (byteBits 0x10#8 ++ (byteBits b ++ rest)) =
      2 :: b.toNat / 64 :: groupsOf5 (bitsOf 6 b.toNat ++ rest) := by
  have hb := b.isLt
  have htop : b.toNat >>> 6 = b.toNat / 64 := Nat.shiftRight_eq_div_pow _ 6
  have hlast : bitsOf 5 (b.toNat / 64) = [false, false, false] ++ bitsOf 2 (b.toNat / 64) := by
    have hall : ∀ v < 4, bitsOf 5 v = [false, false, false] ++ bitsOf 2 v := by decide
    exact hall _ (by omega)
  have hbits : byteBits 0x10#8 ++ (byteBits b ++ rest) =
      bitsOf 5 2 ++ (bitsOf 5 (b.toNat / 64) ++ (bitsOf 6 b.toNat ++ rest)) := by
    rw [hlast, byteBits, byteBits, bitsOf_add 2 6 b.toNat, htop]
    rfl
  have hvalue : b.toNat / 64 % 32 = b.toNat / 64 := by omega
  rw [hbits, groupsOf5_bitsOf_append, groupsOf5_bitsOf_append, hvalue]

theorem addressEncode_cons (b : Byte) (bs : List Byte) : ∃ rest,
    addressEncode (b :: bs) = 0x43#8 :: b32Alpha (b.toNat / 64) :: rest := by
  have hpayload : payloadBuild (b :: bs) =
      0x10#8 :: b :: (bs ++ checksumBytes (checksum (0x10#8 :: b :: bs))) := rfl
  rw [addressEncode, hpayload, b32Encode_eq, List.flatMap_cons, List.flatMap_cons,
    groupsOf5_version_append]
  exact ⟨_, rfl⟩

/-- Settles O55: the length and the round trip are the encoder's and the payload's, the first two
characters are the version byte's bits and the top two of the hash. -/
theorem addressRoundTrip : Obligations.AddressRoundTrip := by
  intro p hash hp h
  obtain ⟨b, bs, rfl⟩ := List.exists_cons_of_length_eq_add_one h
  obtain ⟨rest, htext⟩ := addressEncode_cons b bs
  have hsecond : b32Alpha (b.toNat / 64) ∈ [0x41#8, 0x42#8, 0x43#8, 0x44#8] := by
    have hall : ∀ v < 4, b32Alpha v ∈ [0x41#8, 0x42#8, 0x43#8, 0x44#8] := by decide
    have hb := b.isLt
    exact hall _ (by omega)
  refine ⟨addressEncode_length h, ?_, ⟨_, hsecond, ?_⟩, addressDecode_addressEncode hp h⟩
  · rw [htext, List.getElem?_cons_zero]
  · rw [htext, List.getElem?_cons_succ, List.getElem?_cons_zero]

/-! ### The source's functions -/

theorem isValidContractAddress_iff {p : Config.Params} {t : List Byte} :
    isValidContractAddress p t = true ↔ ∃ hash, addressDecode p t = .ok hash := by
  rw [isValidContractAddress, codecDecode]
  cases addressDecode p t <;> simp [Except.map]

/-- The 64 characters of a hash's hex text are no address, so `encode` takes them as hex (R120). -/
theorem codecEncode_toHex {hash : List Byte} (h : hash.length = 32) :
    codecEncode Config.params (toHex hash) = .ok (addressEncode hash) := by
  have hinvalid : ¬isValidContractAddress Config.params (toHex hash) = true := by
    rw [isValidContractAddress_iff]
    rintro ⟨hash', hdecode⟩
    have hlen := length_of_addressDecode hdecode
    rw [toHex_length] at hlen
    omega
  rw [codecEncode, if_neg hinvalid, toBytes_toHex]
  exact if_neg (not_not_intro h)

/-- Settles O57: the address of the hash is valid, and that is all `encode` looks at first. -/
theorem codecRoundTrip : Obligations.CodecRoundTrip := by
  intro hash h
  have hdecode : addressDecode Config.params (addressEncode hash) = .ok hash :=
    addressDecode_addressEncode (by decide) h
  have hvalid := isValidContractAddress_iff.2 ⟨hash, hdecode⟩
  refine ⟨addressEncode hash, codecEncode_toHex h, addressEncode_length h, ?_, hvalid, ?_⟩
  · rw [codecDecode, hdecode, Except.map]
  · rw [codecEncode, if_pos hvalid]

/-! ### The order of the errors -/

/-- Settles O58: the length test stands first; then the decoder reports a character, or gives bytes
whose length, and then version, the payload's tests look at. -/
theorem addressDecodeRejectsInOrder : Obligations.AddressDecodeRejectsInOrder := by
  have hwidth : 12 ≤ Config.params.accW := Nat.le_refl 12
  refine ⟨fun t h => addressDecode_of_tooLong h, fun t hlen hforeign => ?_,
    fun t hlen htext h56 h57 => ?_, fun v lo hi hash h hv => ?_⟩
  · rcases alphabet_or_firstBad t with htext | ⟨good, ch, rest, rfl, hgood, hbad⟩
    · obtain ⟨c, hc, hnone⟩ := hforeign
      exact absurd (htext c hc) (by rw [hnone]; nofun)
    · refine ⟨ch, good.length, ?_, hbad, addressDecode_of_badCharacter hlen ?_⟩
      · rw [List.getElem?_append_right (Nat.le_refl _), Nat.sub_self, List.getElem?_cons_zero]
      · exact decoderReportsTheFirstBadCharacter _ good ch rest hwidth hgood hbad
  · have hdecode := b32Decode_of_alphabet hwidth htext
    refine addressDecode_of_parseError hlen hdecode (payloadParse_of_length fun h35 => ?_)
    rcases (b32Decode_length_eq_payload_iff hdecode).1 h35 with h | h
    · exact h56 h
    · exact h57 h
  · have hlen : (b32Encode (v :: hash ++ [lo, hi])).length = 56 := by
      rw [b32Encode_length]
      simp [h]
    exact addressDecode_of_parseError (p := Config.params) (hlen.trans_le (by decide))
      (b32Decode_b32Encode_of_width hwidth _) (payloadParse_of_version h hv)

end Sys2Proof.Machine
end

section
/-! PROOFS. Error entry and the error state (60_exceptions.md): which command raises which kind, what
error entry leaves unchanged, and what a word can do once an error is recorded. -/

namespace Sys2Proof.Machine

/-! ### Error entry -/

/-- In the fatal state `STATUS` is bits 15 and 14 and code 13 (R18, R142). -/
theorem status_of_fatal {s : State} (hf : s.ff = true) (he : s.err = 13) :
    status s = 0xC00D#16 := by
  obtain ⟨-, -, -, -, -, -, hfatal⟩ := statusIsTheViewOfErrAndFf s
  exact hfatal he hf

/-- Settles O27: the fatal kind is the one that writes `FF`; after any other the state is a
recoverable error state, whose `STATUS` is bit 15 and the code. -/
theorem raiseWritesTheErrorRegisters : Obligations.RaiseWritesTheErrorRegisters := by
  rintro x info s ⟨-, hf⟩
  by_cases hfatal : x = .ePrecond
  · subst hfatal
    exact raise_ePrecond info
  · have hff : (recordError x info s).ff = false := by rw [recordError_ff, if_neg hfatal, hf]
    rw [raise_eq, status_of_recoverable (code_ne_zero x) hff, recordError_err, if_neg hfatal]
    simp [respond, recordError, hfatal, hf]

/-- `t` comes of `s` by error entry with kind `x`: what R136 writes of `ERR` and `FF`, and what R137
keeps. -/
structure Raised (s t : State) (x : ErrorKind) : Prop where
  err : t.err = x.code
  ff : t.ff = if x = .ePrecond then true else s.ff
  crc : t.crc = s.crc
  ibuf : t.ibuf = s.ibuf
  ilen : t.ilen = s.ilen
  obuf : t.obuf = s.obuf
  olen : t.olen = s.olen

theorem raised_of_raise {s t : State} {x : ErrorKind} {info : Word}
    (h : raise x info s = .next t) : Raised s t x := by
  obtain rfl := Host.Outcome.next.inj h
  exact ⟨rfl, rfl, rfl, rfl, rfl, rfl, rfl⟩

/-- The B32 commands have written `ACC` and `NB` when they raise, which R137 does not speak of. -/
theorem raised_of_raise_setWork {s t : State} {x : ErrorKind} {info : Word} {w : Bits}
    (h : raise x info (setWork w s) = .next t) : Raised s t x :=
  { raised_of_raise h with }

/-! ### Which command raises which kind -/

/-- The rows of R131 for the commands, each kind with its condition. -/
inductive Raises (s : State) : Instr → ErrorKind → Prop where
  | stFull {imm : Byte} (h : s.ilen = 256) : Raises s (.st imm) .eCap
  | ldRange {imm : Byte} (h : s.olen.toNat ≤ imm.toNat) : Raises s (.ld imm) .eRange
  | encTooLong (h : 160 < s.ilen.toNat) : Raises s .b32Enc .eCap
  | decTooLong (h : 128 < s.ilen.toNat) : Raises s .b32Dec .inputTooLong
  | decCharacter {text : List Byte} {char : Byte} {pos : Nat} (hd : s.InputIs text)
    (h : b32Decode 12 text = .error (.invalidCharacter char pos)) :
    Raises s .b32Dec .invalidBase32Character
  | buildLength (h : s.ilen.toNat ≠ 32) : Raises s .payBuild .ePrecond
  | parse {p : List Byte} {x : ErrorKind} (hd : s.InputIs p) (h : payloadParse p = .error x) :
    Raises s .payParse x

/-- How a command run outside an error state can end: without an error and without setting `FF`, or
by raising one of its kinds. -/
inductive Ends (s t : State) (i : Instr) : Prop where
  | ok (herr : t.err = 0) (hff : t.ff = true → s.ff = true)
  | raised {x : ErrorKind} (hx : Raises s i x) (h : Raised s t x)

section
variable {s t u : State} {i : Instr}

/-- The registers of the error state end as they were. -/
theorem ends_of_kept (he : s.err = 0) (herr : t.err = s.err) (hff : t.ff = s.ff) : Ends s t i :=
  .ok (herr.trans he) fun h => hff ▸ h

theorem ends_of_deliver {bs : List Byte} (h : deliver bs u = .next t) (he : s.err = 0)
    (herr : u.err = s.err) (hff : u.ff = s.ff) : Ends s t i := by
  obtain ⟨-, rfl⟩ := deliver_next h
  exact ends_of_kept he herr hff

theorem ends_exec_clre (he : s.err = 0) (h : exec .clre s = .next t) : Ends s t .clre := by
  obtain rfl := Host.Outcome.next.inj h
  cases hf : s.ff with
  | true =>
    rw [clearError_of_fatal hf]
    exact ends_of_kept he rfl rfl
  | false =>
    rw [clearError_of_not_fatal hf]
    exact .ok rfl id

theorem ends_exec_st {imm : Byte} (he : s.err = 0) (h : exec (.st imm) s = .next t) :
    Ends s t (.st imm) := by
  rcases exec_st_next h with ⟨hne, -⟩ | ⟨-, hfull, ht⟩ | ⟨-, -, rfl⟩
  · exact absurd he hne
  · exact .raised (.stFull hfull) (raised_of_raise (congrArg Host.Outcome.next ht.symm))
  · exact ends_of_kept he rfl rfl

theorem ends_exec_ld {imm : Byte} (he : s.err = 0) (h : exec (.ld imm) s = .next t) :
    Ends s t (.ld imm) := by
  rcases exec_ld_next h with ⟨hne, -⟩ | ⟨-, hrange, ht⟩ | ⟨-, -, b, -, rfl⟩
  · exact absurd he hne
  · exact .raised (.ldRange hrange) (raised_of_raise (congrArg Host.Outcome.next ht.symm))
  · exact ends_of_kept he rfl rfl

theorem ends_exec_b32Enc (he : s.err = 0) (h : exec .b32Enc s = .next t) : Ends s t .b32Enc := by
  rcases exec_b32Enc_next h with ⟨hne, -⟩ | ⟨-, hlong, hraise⟩ | ⟨-, -, data, -, hdeliver⟩
  · exact absurd he hne
  · exact .raised (.encTooLong hlong) (raised_of_raise_setWork hraise)
  · exact ends_of_deliver hdeliver he rfl rfl

/-- The decoder of the modelled block reports a character or gives bytes; the third case of its
error is the guard of R99, which never fires. -/
theorem ends_exec_b32Dec (he : s.err = 0) (h : exec .b32Dec s = .next t) : Ends s t .b32Dec := by
  rcases b32DecWith_next h with ⟨hne, -⟩ | ⟨-, hlong, hraise⟩ | ⟨-, -, text, hd, hend⟩
  · exact absurd he hne
  · exact .raised (.decTooLong hlong) (raised_of_raise_setWork hraise)
  · rcases hr : b32DecodeFrom Config.params.accW 0 text ⟨0, 0⟩ with ⟨w, r⟩
    have hdec : b32Decode 12 text = r := congrArg Prod.snd hr
    rw [hr] at hend
    match r with
    | .error (.invalidCharacter char pos) =>
      exact .raised (.decCharacter hd hdec) (raised_of_raise_setWork hend)
    | .error .malformedInput =>
      exact absurd hdec (b32DecodeFrom_ne_malformed (Nat.le_refl 12) 0 text)
    | .ok bytes => exact ends_of_deliver hend he rfl rfl

theorem ends_exec_payBuild (he : s.err = 0) (h : exec .payBuild s = .next t) :
    Ends s t .payBuild := by
  rcases exec_payBuild_next h with ⟨hne, -⟩ | ⟨-, hlen, hraise⟩ | ⟨-, hash, -, -, hdeliver⟩
  · exact absurd he hne
  · exact .raised (.buildLength hlen) (raised_of_raise hraise)
  · exact ends_of_deliver hdeliver he rfl rfl

theorem ends_exec_payParse (he : s.err = 0) (h : exec .payParse s = .next t) :
    Ends s t .payParse := by
  rcases exec_payParse_next h with ⟨hne, -⟩ | ⟨-, p, hd, hend⟩
  · exact absurd he hne
  · cases hp : payloadParse p with
    | error x =>
      rw [hp] at hend
      exact .raised (.parse hd hp) (raised_of_raise hend)
    | ok hash =>
      rw [hp] at hend
      exact ends_of_deliver hend he rfl rfl

/-- Everything a command can do to the error registers outside an error state (R131, R136). -/
theorem ends_exec (he : s.err = 0) (h : exec i s = .next t) : Ends s t i := by
  cases i with
  | clr =>
    obtain rfl := Host.Outcome.next.inj h
    exact .ok rfl nofun
  | clre => exact ends_exec_clre he h
  | clri =>
    obtain rfl := Host.Outcome.next.inj (exec_clri_of_ok he ▸ h)
    exact ends_of_kept he rfl rfl
  | st imm => exact ends_exec_st he h
  | ld imm => exact ends_exec_ld he h
  | movo =>
    rcases exec_movo_next h with ⟨hne, -⟩ | ⟨-, data, -, -, rfl⟩
    · exact absurd he hne
    · exact ends_of_kept he rfl rfl
  | nop | rdrStatus | rdrEinfo | rdrCrc | rdrIlen | rdrOlen =>
    obtain rfl := Host.Outcome.next.inj h
    exact ends_of_kept he rfl rfl
  | crcInit =>
    obtain rfl := Host.Outcome.next.inj (exec_crcInit_of_ok he ▸ h)
    exact ends_of_kept he rfl rfl
  | crcByte imm =>
    obtain rfl := Host.Outcome.next.inj (exec_crcByte_of_ok imm he ▸ h)
    exact ends_of_kept he rfl rfl
  | crcBuf =>
    rcases exec_crcBuf_next h with ⟨hne, -⟩ | ⟨-, data, -, rfl⟩
    · exact absurd he hne
    · exact ends_of_kept he rfl rfl
  | crcSum =>
    rcases exec_crcSum_next h with ⟨hne, -⟩ | ⟨-, data, -, rfl⟩
    · exact absurd he hne
    · exact ends_of_kept he rfl rfl
  | b32Enc => exact ends_exec_b32Enc he h
  | b32Dec => exact ends_exec_b32Dec he h
  | payBuild => exact ends_exec_payBuild he h
  | payParse => exact ends_exec_payParse he h

/-! ### What a word can do in an error state -/

/-- The words of R138 are those of the exempt commands. -/
theorem exempt_eq_false_of_encode_not_mem (h : encode i ∉ [0x0000#16, 0x0100#16, 0x0200#16,
    0x0700#16, 0x0701#16, 0x0702#16, 0x0703#16, 0x0704#16]) : Exempt i = false := by
  cases i with
  | nop | clr | clre | rdrStatus | rdrEinfo | rdrCrc | rdrIlen | rdrOlen =>
    exact absurd (by decide) h
  | clri | st | ld | movo | crcInit | crcByte | crcBuf | crcSum | b32Enc | b32Dec | payBuild
    | payParse => rfl

/-- What an exempt command gives a response to (R138, R61, R63, R68). -/
theorem exec_next_of_exempt (hi : Exempt i = true) (h : exec i s = .next t) :
    ∃ v, t = respond v s ∨ (i = .clr ∧ t = respond v (clearAll s)) ∨
      (i = .clre ∧ t = respond v (clearError s)) := by
  cases i with
  | nop | rdrStatus | rdrEinfo | rdrCrc | rdrIlen | rdrOlen =>
    exact ⟨_, .inl (Host.Outcome.next.inj h).symm⟩
  | clr => exact ⟨_, .inr (.inl ⟨rfl, (Host.Outcome.next.inj h).symm⟩)⟩
  | clre => exact ⟨_, .inr (.inr ⟨rfl, (Host.Outcome.next.inj h).symm⟩)⟩
  | clri | st | ld | movo | crcInit | crcByte | crcBuf | crcSum | b32Enc | b32Dec | payBuild
    | payParse => cases hi

/-- Everything a word can do in an error state: respond only, or clear by `CLR` or `CLRE`. -/
theorem runWord_next_of_errorState {w : Word} (he : s.err ≠ 0) (h : runWord w s = .next t) :
    ∃ v, t = respond v s ∨ (w = 0x0100#16 ∧ t = respond v (clearAll s)) ∨
      (w = 0x0200#16 ∧ t = respond v (clearError s)) := by
  cases hw : decode w with
  | error k =>
    rw [runWord_of_error hw, illegalCommand_of_error he] at h
    exact ⟨_, .inl (Host.Outcome.next.inj h).symm⟩
  | ok i =>
    obtain rfl := decode_eq_ok.1 hw
    rw [runWord_of_ok hw] at h
    cases hi : Exempt i with
    | false =>
      rw [exec_of_error hi he] at h
      exact ⟨_, .inl (Host.Outcome.next.inj h).symm⟩
    | true =>
      obtain ⟨v, ht | ⟨rfl, ht⟩ | ⟨rfl, ht⟩⟩ := exec_next_of_exempt hi h
      · exact ⟨v, .inl ht⟩
      · exact ⟨v, .inr (.inl ⟨rfl, ht⟩)⟩
      · exact ⟨v, .inr (.inr ⟨rfl, ht⟩)⟩

theorem runWord_clr : runWord 0x0100#16 s = complete (clearAll s) :=
  runWord_of_ok (decode_encode .clr) s

/-- Clearing a recoverable error gives back what was observed before it (R137). -/
theorem view_clre_of_raised {x : ErrorKind} {u : State} (hs : s.Ok) (hinfo : s.einfo = 0)
    (h : Raised s t x) (hf : t.ff = false) (hu : exec .clre t = .next u) : u.view = s.view := by
  obtain ⟨he, hff⟩ := hs
  obtain rfl := Host.Outcome.next.inj ((exec_clre_of_not_fatal hf).symm.trans hu)
  exact alike_iff.1
    { crc := h.crc, ilen := h.ilen, olen := h.olen, err := he.symm, ff := hf.trans hff.symm,
      einfo := hinfo.symm, input := fun _ _ => by rw [h.ibuf], output := fun _ _ => by rw [h.obuf] }

/-- Only `PAY.BUILD` with a wrong length, run outside an error state, sets `FF` (R142). -/
theorem build_of_runWord_sets_ff {w : Word} (hs : s.ff = false) (h : runWord w s = .next t)
    (ht : t.ff = true) : w = 0x3000#16 ∧ s.err = 0 ∧ s.ilen.toNat ≠ 32 ∧ t.err = 13 := by
  have hne : t.ff ≠ s.ff := by rw [hs, ht]; nofun
  by_cases he : s.err = 0
  · cases hw : decode w with
    | error k =>
      rw [runWord_of_error hw, illegalCommand_of_okState ⟨he, hs⟩] at h
      obtain rfl := Host.Outcome.next.inj h
      exact absurd rfl hne
    | ok i =>
      obtain rfl := decode_eq_ok.1 hw
      cases ends_exec he (runWord_of_ok hw s ▸ h) with
      | ok _ hff => exact absurd (ht.trans (hff ht).symm) hne
      | @raised x hx hraised =>
        have hfatal : x = .ePrecond := by
          by_contra hx
          exact hne (hraised.ff.trans (if_neg hx))
        subst hfatal
        cases hx with
        | buildLength hlen => exact ⟨rfl, he, hlen, hraised.err⟩
        | parse _ hp => rcases payloadParse_error hp with hx | hx | hx <;> cases hx
  · obtain ⟨v, rfl | ⟨-, rfl⟩ | ⟨-, rfl⟩⟩ := runWord_next_of_errorState he h
    · exact absurd rfl hne
    · cases ht
    · exact absurd (clearError_ff s) hne

end

/-! ### The obligations -/

/-- Settles O28: a command that ends in an error has raised it, and error entry writes none of the
five; `CLRE` then takes back what it wrote. -/
theorem errorsArePrecise : Obligations.ErrorsArePrecise := by
  intro i s t hs h ht
  cases ends_exec hs.1 h with
  | ok herr _ => exact absurd herr ht
  | raised _ hraised =>
    refine ⟨hraised.crc, hraised.ibuf, hraised.ilen, hraised.obuf, hraised.olen, fun hf hinfo => ?_⟩
    exact ⟨_, rfl, view_clre_of_raised hs hinfo hraised hf rfl⟩

/-- Settles O29: a legal word outside the list is a command the error-state test skips, and so is an
illegal word. -/
theorem errorStateSkipsEveryOtherCommand : Obligations.ErrorStateSkipsEveryOtherCommand := by
  refine fun w s he hw => ⟨?_, status_msb he⟩
  cases hd : decode w with
  | error k => exact (runWord_of_error hd s).trans (illegalCommand_of_error he)
  | ok i =>
    obtain rfl := decode_eq_ok.1 hd
    exact (runWord_of_ok hd s).trans (exec_of_error (exempt_eq_false_of_encode_not_mem hw) he)

/-- Settles O30: the kinds each command raises, by their codes. -/
theorem commandsRaiseOnlyTheirCodes : Obligations.CommandsRaiseOnlyTheirCodes := by
  refine ⟨fun i s t he h => ?_, fun w k s t he hw h => ?_⟩
  · cases ends_exec he h with
    | ok herr _ => cases i <;> simp [herr]
    | raised hx hraised =>
      rw [hraised.err]
      cases hx with
      | stFull | ldRange | encTooLong | decTooLong | decCharacter | buildLength =>
        simp [ErrorKind.code]
      | parse _ hp => rcases payloadParse_error hp with rfl | rfl | rfl <;> decide
  · rw [runWord_of_error hw, illegalCommand_of_ok he] at h
    obtain rfl := Host.Outcome.next.inj h
    rfl

/-- Settles O31: in an error state a word only responds, or it is `CLR`, or it is `CLRE`, which
changes nothing in the fatal state. -/
theorem firstErrorStaysUntilCleared : Obligations.FirstErrorStaysUntilCleared := by
  refine ⟨fun w s t he h => ?_, fun s t h => ?_⟩
  · obtain ⟨v, rfl | ⟨hw, rfl⟩ | ⟨hw, rfl⟩⟩ := runWord_next_of_errorState he h
    · exact .inl ⟨rfl, rfl, rfl⟩
    · exact .inr ⟨⟨rfl, rfl⟩, rfl, .inl hw⟩
    · cases hf : s.ff with
      | true =>
        rw [clearError_of_fatal hf]
        exact .inl ⟨rfl, hf, rfl⟩
      | false =>
        rw [clearError_of_not_fatal hf]
        exact .inr ⟨⟨rfl, hf⟩, rfl, .inr ⟨hw, rfl⟩⟩
  · obtain rfl := Host.Outcome.next.inj h
    exact ⟨⟨rfl, rfl⟩, rfl⟩

/-- Settles O32: the fatal state is an error state in which `CLRE` clears nothing, so a word other
than `CLR` only responds. -/
theorem fatalStateOnlyByBuildAndLeftOnlyByClear :
    Obligations.FatalStateOnlyByBuildAndLeftOnlyByClear := by
  refine ⟨fun w s t hs h ht => ?_, fun w s t hf he h => ⟨fun hw => ?_, ?_⟩, fun s t h => ?_⟩
  · obtain ⟨hw, he, hlen, herr⟩ := build_of_runWord_sets_ff hs h ht
    exact ⟨hw, he, hlen, herr, status_of_fatal ht herr⟩
  · have hne : s.err ≠ 0 := by rw [he]; decide
    have hkept : ∃ v, t = respond v s := by
      obtain ⟨v, ht | ⟨hclr, -⟩ | ⟨-, ht⟩⟩ := runWord_next_of_errorState hne h
      · exact ⟨v, ht⟩
      · exact absurd hclr hw
      · exact ⟨v, clearError_of_fatal hf ▸ ht⟩
    obtain ⟨v, rfl⟩ := hkept
    exact ⟨rfl, status_of_fatal hf he⟩
  · rintro rfl
    obtain rfl := Host.Outcome.next.inj (runWord_clr.symm.trans h)
    exact ⟨rfl, rfl⟩
  · obtain rfl := Host.Outcome.next.inj h
    exact ⟨rfl, rfl⟩

end Sys2Proof.Machine
end

section
/-! PROOFS. The hardware reset among the inputs (70_reset_and_hazards.md R155). -/

namespace Sys2Proof.Machine

/-- A pending hardware reset is taken whatever the state is: `step` tests neither `ERR` nor `FF`
before it (R155). -/
theorem step_of_reset_cons {s : State} {rest : List HostInput} (h : s.inputs = .reset :: rest) :
    step s = .next (hardwareReset { s with inputs := rest }) :=
  step_of_cons h

/-- The hardware reset leaves nothing of the state before it to observe (R155, R24). -/
theorem view_hardwareReset (s : State) : (hardwareReset s).view = State.reset.view :=
  have hreset : hardwareReset State.reset = State.reset := rfl
  calc (hardwareReset s).view
    _ = (hardwareReset State.reset).view := alike_iff.1 (.hardwareReset s State.reset)
    _ = State.reset.view := congrArg State.view hreset

/-- Settles O9: the step is the hardware reset of the state without that input; the inputs and the
responses are the host's and stay (log 9). -/
theorem hardwareResetStepFromAnyState : Obligations.HardwareResetStepFromAnyState := by
  intro s rest hinputs
  exact ⟨hardwareReset { s with inputs := rest }, step_of_reset_cons hinputs,
    view_hardwareReset _, hardwareReset_inputs _, hardwareReset_responses _⟩

end Sys2Proof.Machine
end
